-- ==== Sys2Proof/Word.lean ====
section
/-! DEFINITION. The words of the link block: bytes, byte sequences and the 16-bit packetId
(00_scope.md R11, R13). -/

namespace Sys2Proof

/-- A byte, 0 to 255; bit 7 is its most significant bit (R13). -/
abbrev Byte := BitVec 8

/-- A byte sequence, a finite list of bytes (R13). -/
abbrev Bytes := List Byte

/-- The packetId field, "16-bit" (R11). -/
abbrev Pid := BitVec 16

end Sys2Proof
end

