-- ==== Sys2Proof/Config.lean ====
section
/-! DEFINITION. What is fixed for the block: the hardwired constants of 00_scope.md R8 and R9, and the
named parameters of R10 that no rule reads, and the default of `CRC_INIT`. `CRC_INIT` and the two capacities of R10 are
fixed for an instance and stand in `Machine.Params`. -/

namespace Sys2Proof.Config

/-- `STX`, the frame start byte (R8). -/
def stx : Byte := 0x02#8

/-- `ETX`, the frame end byte (R8). -/
def etx : Byte := 0x04#8

/-- `DLE`, the escape byte (R8). -/
def dle : Byte := 0x20#8

/-- `CRC_POLY`, the low 8 bits of x^8+x^2+x+1 (R8). -/
def crcPoly : Byte := 0x07#8

/-- The default of the parameter `CRC_INIT` (R10), the spec's decision D1. UNVERIFIED against the repository (N1), log 3.
An instance has its own, `Machine.Params.crcInit`. -/
def crcInit : Byte := 0x00#8

/-- `MIN_FRAME`, the least length of a frame the decoder accepts (R8). -/
def minFrame : Nat := 8

/-- `MIN_PAYLOAD`, the least payload length the encoder accepts (R8). -/
def minPayload : Nat := 1

/-- `MAX_PAYLOAD`, the greatest payload length the encoder accepts (R8). -/
def maxPayload : Nat := 35

/-- `BROADCAST`, the destination slot that means every module (R8). -/
def broadcast : Byte := 255#8

/-- `CONTROLLER`, the slot of the controller (R8). -/
def controller : Byte := 0#8

/-- `HEADER_LEN`: destination, source, packetId high, packetId low (R9). -/
def headerLen : Nat := 4

/-- `BODY_MIN`: header, one payload byte, CRC (R9). -/
def bodyMin : Nat := headerLen + minPayload + 1

/-- `BODY_MAX`: header, 35 payload bytes, CRC (R9). -/
def bodyMax : Nat := headerLen + maxPayload + 1

/-- `FRAME_MAX_UNSTUFFED` = 42 (R9, C1). -/
def frameMaxUnstuffed : Nat := bodyMax + 2

/-- `FRAME_MAX_STUFFED` = 82 (R9). -/
def frameMaxStuffed : Nat := 2 * bodyMax + 2

/-- What `POLL_INTERVAL` exceeds zero by, less one; the spec gives no value and no rule depends on it
(R10, R144, D27), log 25. -/
opaque pollIntervalPred : Nat

/-- `POLL_INTERVAL`, "greater than zero, value not given" (R144). -/
def pollInterval : Nat := pollIntervalPred + 1

/-- What `BAUD` exceeds zero by, less one (R10, D27), log 25. -/
opaque baudPred : Nat

/-- `BAUD`, a positive rate the spec leaves open (R10). -/
def baud : Nat := baudPred + 1

/-- `DISCOVERY_PID_BASE`, used outside the block only; the block does not test it (R10, R75, D29), log 25. -/
opaque discoveryPidBase : Pid

end Sys2Proof.Config
end

