-- ==== Sys2Proof/Syntax.lean ====
section
/-! DEFINITION. The operations and wire forms of the link block: one constructor of `Instr` per row of
spec/opcode_table.json (30_encoding.md R78 to R80), the packets they carry (R24), the callbacks `OPEN` binds
(R32), and an encoded operation as it stands at a port (R80). -/

namespace Sys2Proof

/-- A packet that `DECODE` returns: `dst`, `src` one byte each, `pid` 16 bits, and the payload; the crc is not
stored (10_state.md R24). -/
structure Packet where
  dst : Byte
  src : Byte
  pid : Pid
  payload : Bytes
  deriving DecidableEq, Repr

/-- The receive callback bound by `OPEN` (R32), held by name so that State stays plain data: the host's own
function, or `LINK.RX` of the joined block (46_link_top.md R162). What the host's code does while it runs is a
move of the environment. DESIGN CHOICE, log 9. -/
inductive Callback where
  | host
  | linkRx
  deriving DecidableEq, Repr

/-- Every row of spec/opcode_table.json, in the table's order (R78, R80). -/
inductive Instr where
  /-- wire byte `0x02` (R63) -/
  | stx
  /-- wire byte `0x04` (R63) -/
  | etx
  /-- wire byte `0x20` (R63) -/
  | dle
  /-- any other wire byte (R63) -/
  | literal (value : Byte)
  /-- wire pair `20 FD`, body byte `0x02` (R65) -/
  | escStx
  /-- wire pair `20 FB`, body byte `0x04` (R65) -/
  | escEtx
  /-- wire pair `20 DF`, body byte `0x20` (R65) -/
  | escDle
  /-- wire pair `20 xx`, body byte `~xx` (R66) -/
  | escAny (xx : Byte)
  /-- a whole wire frame (R60) -/
  | frame (dst src : Byte) (pid : Pid) (payload : Bytes)
  /-- host command `0x0` (R79) -/
  | nopReserved
  /-- host command `0x1` (R87) -/
  | crc8Clear
  /-- host command `0x2` (R88) -/
  | crc8Update (b : Byte)
  /-- host command `0x3` (R89) -/
  | crc8Calc (s : Bytes)
  /-- host command `0x4` (R96) -/
  | stuff (s : Bytes)
  /-- host command `0x5` (R98) -/
  | unstuff (w : Bytes)
  /-- host command `0x6`; `dst`, `src`, `pid` outside their widths are ill-typed (R105, R106) -/
  | assemble (dst src : Byte) (pid : Pid) (payload : Bytes)
  /-- host command `0x7`; `dst`, `src`, `pid` are mathematical integers (R107, R24) -/
  | encode (dst src pid : Int) (payload : Bytes)
  /-- host command `0x8` (R114) -/
  | decode (f : Bytes)
  /-- host command `0x9`; `none` is an absent operand (R126, R127) -/
  | toUint (payload : Bytes) (offset width : Option Int)
  /-- host command `0xA` (R126, R128) -/
  | toInt (payload : Bytes) (offset width : Option Int)
  /-- host command `0xB` (R126, R130) -/
  | toText (payload : Bytes) (offset width : Option Int) (substitute : Bool)
  /-- host command `0xC`; `T` is the block's one Transport (R136, R167) -/
  | openT (cb : Callback)
  /-- host command `0xD` (R137) -/
  | send (bytes : Bytes)
  /-- host command `0xE` (R150) -/
  | close
  /-- host command `0xF` (R161) -/
  | linkTx (dst src pid : Int) (payload : Bytes)
  /-- internal: one bit step (R86) -/
  | crc8Bitstep (a : Byte)
  /-- internal: the range tests of `ENCODE` (R104) -/
  | validate (dst src pid : Int) (payload : Bytes)
  /-- internal: one worker iteration (R138) -/
  | poll
  /-- internal: cut candidate frames out of `rx_buf` (R142) -/
  | extract
  /-- internal: the receive callback of the joined block (R162) -/
  | linkRx (frame : Bytes)
  deriving DecidableEq, Repr

/-- The formats of the table (R80); `internal` for the rows without a code. -/
inductive Format where
  | wireByte
  | wirePair
  | frame
  | hostCmd
  | internal
  deriving DecidableEq, Repr

/-- An encoded operation as it stands at a port, one constructor per kind of row of R80: a byte or a pair on the
wire, a whole frame on the wire, or a command code with its operand bytes (10_state.md R38). -/
inductive Encoding where
  | wireByte (b : Byte)
  | wirePair (b0 b1 : Byte)
  | frame (bytes : Bytes)
  | hostCmd (op : BitVec 4) (args : Bytes)
  deriving DecidableEq, Repr

/-- The kind of an encoding. -/
def Encoding.format : Encoding → Format
  | .wireByte _ => .wireByte
  | .wirePair _ _ => .wirePair
  | .frame _ => .frame
  | .hostCmd _ _ => .hostCmd

/-- The format the table gives each row (R80). -/
def Instr.format : Instr → Format
  | .stx | .etx | .dle | .literal _ => .wireByte
  | .escStx | .escEtx | .escDle | .escAny _ => .wirePair
  | .frame _ _ _ _ => .frame
  | .nopReserved | .crc8Clear | .crc8Update _ | .crc8Calc _ | .stuff _ | .unstuff _ | .assemble _ _ _ _
  | .encode _ _ _ _ | .decode _ | .toUint _ _ _ | .toInt _ _ _ | .toText _ _ _ _ | .openT _ | .send _ | .close
  | .linkTx _ _ _ _ => .hostCmd
  | .crc8Bitstep _ | .validate _ _ _ _ | .poll | .extract | .linkRx _ => .internal

end Sys2Proof
end

