-- ==== Sys2Proof/Machine/Codec.lean ====
section
/-! DEFINITION. The pure functions of `CRC8` and `FRAMER`, which have no state (10_state.md R22, R23): the CRC of
40_crc8.md, the stuffing of 41_stuffing.md, and packet encode and decode of 42 and 43. -/

namespace Sys2Proof.Machine

/-- `CRC8.BITSTEP(a)` (R86): shift left, and XOR the polynomial when bit 7 was set. -/
def bitStep (a : Byte) : Byte :=
  if a.getLsbD 7 then (a <<< 1) ^^^ Config.crcPoly else a <<< 1

/-- Eight bit steps, the table `T` of R91. -/
def bitStep8 (a : Byte) : Byte :=
  bitStep (bitStep (bitStep (bitStep (bitStep (bitStep (bitStep (bitStep a)))))))

/-- The accumulator after one byte (R88). -/
def crcUpdate (acc b : Byte) : Byte := bitStep8 (acc ^^^ b)

/-- `CRC8.CALC(s)` from the instance's `CRC_INIT` (R89, R10). -/
def crcCalc (init : Byte) (s : Bytes) : Byte := s.foldl crcUpdate init

/-- A byte is special when it is `STX`, `ETX` or `DLE` (R64). -/
def isSpecial (b : Byte) : Bool := b == Config.stx || b == Config.etx || b == Config.dle

/-- `STUFF(s)` (R96). -/
def stuffBytes : Bytes → Bytes
  | [] => []
  | b :: rest => if isSpecial b then Config.dle :: (~~~b) :: stuffBytes rest else b :: stuffBytes rest

/-- `UNSTUFF(w)` (R98); `none` is `fail`. -/
def unstuffBytes : Bytes → Option Bytes
  | [] => some []
  | [b] => if b = Config.dle then none else some [b]
  | b :: c :: rest =>
    if b = Config.dle then (unstuffBytes rest).map ((~~~c) :: ·) else (unstuffBytes (c :: rest)).map (b :: ·)

/-- One step of the streaming unstuffer (R101) on the flag `esc` and the output so far. -/
def unstuffStep (st : Bool × Bytes) (c : Byte) : Bool × Bytes :=
  if st.1 then (false, st.2 ++ [~~~c]) else if c = Config.dle then (true, st.2) else (false, st.2 ++ [c])

/-- `VALIDATE(dst, src, pid, payload)` (R104). -/
def validatePacket (dst src pid : Int) (payload : Bytes) : Bool :=
  decide (1 ≤ dst) && decide (dst ≤ 255) && decide (0 ≤ src) && decide (src ≤ 255) && decide (dst ≠ src)
    && decide (1 ≤ pid) && decide (pid ≤ 65535)
    && decide (Config.minPayload ≤ payload.length) && decide (payload.length ≤ Config.maxPayload)

/-- The high byte of a packetId, `pid[15:8]` (R60, R69). -/
def pidHi (pid : Pid) : Byte := (pid >>> 8).setWidth 8

/-- The low byte of a packetId, `pid[7:0]` (R60, R69). -/
def pidLo (pid : Pid) : Byte := pid.setWidth 8

/-- The big-endian packetId of two bytes (R47, R69). -/
def pidOf (hi lo : Byte) : Pid := (hi.setWidth 16 <<< 8) ||| lo.setWidth 16

/-- The body before the CRC is appended (R60, R105). -/
def headAndPayload (dst src : Byte) (pid : Pid) (payload : Bytes) : Bytes :=
  dst :: src :: pidHi pid :: pidLo pid :: payload

/-- The body with its CRC, before stuffing (R60, R105). -/
def frameBody (init : Byte) (dst src : Byte) (pid : Pid) (payload : Bytes) : Bytes :=
  headAndPayload dst src pid payload ++ [crcCalc init (headAndPayload dst src pid payload)]

/-- `ASSEMBLE(dst, src, pid, payload)` (R105). -/
def assembleFrame (init : Byte) (dst src : Byte) (pid : Pid) (payload : Bytes) : Bytes :=
  Config.stx :: (stuffBytes (frameBody init dst src pid payload) ++ [Config.etx])

/-- `ENCODE(dst, src, pid, payload)` (R107): the frame, or the empty sequence when `VALIDATE` fails. -/
def encodePacket (init : Byte) (dst src pid : Int) (payload : Bytes) : Bytes :=
  if validatePacket dst src pid payload then
    assembleFrame init (BitVec.ofInt 8 dst) (BitVec.ofInt 8 src) (BitVec.ofInt 16 pid) payload
  else []

/-- The split of an unstuffed interior (R69, R114 checks 5 and 6). -/
def splitBody (init : Byte) (u : Bytes) : Option Packet :=
  match u with
  | d :: s :: hi :: lo :: rest =>
    if rest = [] then none
    else if crcCalc init u.dropLast ≠ u.getLastD 0 then none
    else some ⟨d, s, pidOf hi lo, rest.dropLast⟩
  | _ => none

/-- The interior of a candidate frame, `f[1 : len(f)-1]` (R114). -/
def interior (f : Bytes) : Bytes := (f.drop 1).dropLast

/-- `DECODE(f)` (R114), checks 1 to 6 in order. -/
def decodeFrame (init : Byte) (f : Bytes) : Option Packet :=
  if f.length < Config.minFrame then none
  else if f.head? ≠ some Config.stx then none
  else if f.getLast? ≠ some Config.etx then none
  else match unstuffBytes (interior f) with
    | none => none
    | some u => splitBody init u

end Sys2Proof.Machine
end

