-- ==== Sys2Proof/WellFormed.lean ====
section
/-! DEFINITION. Which terms of `Instr` an encoding can present: the classes of wire byte (30_encoding.md R63), the
pairs, the payload range of the frame row (R60), and operands that fit the ports of R24 and R38. A term that is not
well-formed still has its meaning (an `ENCODE` of `dst = 256` is refused by `VALIDATE`, R104); it has no encoding of
its own. -/

namespace Sys2Proof

/-- An integer that an 8-bit port presents (R24). -/
def fitsByte (v : Int) : Bool := decide (0 ≤ v) && decide (v ≤ 255)

/-- An integer that a 16-bit port presents (R24). -/
def fitsPid (v : Int) : Bool := decide (0 ≤ v) && decide (v ≤ 65535)

/-- An optional operand that the command port presents: absent, or any natural number; a negative one, which R126 refuses,
has no operand bytes (log 8). -/
def fitsOperand : Option Int → Bool
  | none => true
  | some v => decide (0 ≤ v)

/-- The term is the one its encoding stands for, and its operands fit the port. -/
def Instr.wf : Instr → Bool
  | .literal v => v != Config.stx && v != Config.etx && v != Config.dle
  | .escAny xx => xx != 0xFD#8 && xx != 0xFB#8 && xx != 0xDF#8
  | .frame _ _ _ y => decide (Config.minPayload ≤ y.length) && decide (y.length ≤ Config.maxPayload)
  | .encode d s p _ | .linkTx d s p _ => fitsByte d && fitsByte s && fitsPid p
  | .toUint _ o w | .toInt _ o w | .toText _ o w _ => fitsOperand o && fitsOperand w
  | .stx | .etx | .dle | .escStx | .escEtx | .escDle | .nopReserved | .crc8Clear | .crc8Update _ | .crc8Calc _
  | .stuff _ | .unstuff _ | .assemble _ _ _ _ | .decode _ | .openT _ | .send _ | .close | .crc8Bitstep _
  | .validate _ _ _ _ | .poll | .extract | .linkRx _ => true

end Sys2Proof
end

