-- ==== Sys2Proof/Decode.lean ====
section
/-! DEFINITION. The decoder, total on anything that can stand at a port and rejecting by name, then the encoder, both
from the tables of 30_encoding.md R63, R65, R66, R60 and R79. Which operand bytes follow a command code is the
model's layout (log 8), but for `dst`, `src`, `pid`, payload, whose order 95_test_vectors.md P2 shows. -/

namespace Sys2Proof

/-- Why an encoding stands for no operation. -/
inductive DecodeError where
  /-- a wire pair whose first byte is not `DLE` (R66) -/
  | notAnEscape
  /-- bytes that are no canonical frame with a payload of 1 to 35 bytes (R60) -/
  | notAFrame
  /-- a command with too few operand bytes (R38) -/
  | missingOperand
  /-- a command with operand bytes after its last operand (R38) -/
  | extraOperand
  /-- a selector byte with a value that has no meaning (log 8) -/
  | badSelector
  deriving DecidableEq, Repr

/-- A wire byte by its class (R63). -/
def decodeWireByte (b : Byte) : Instr :=
  if b = Config.stx then .stx else if b = Config.etx then .etx else if b = Config.dle then .dle else .literal b

/-- A wire pair: the three stuffing pairs first, then the general escape (R65, R66). -/
def decodeWirePair (b0 b1 : Byte) : Except DecodeError Instr :=
  if b0 = Config.dle then
    .ok (if b1 = 0xFD#8 then .escStx else if b1 = 0xFB#8 then .escEtx else if b1 = 0xDF#8 then .escDle else .escAny b1)
  else .error .notAnEscape

/-- A whole frame: a candidate that decodes, in canonical form, with a payload the row allows (R60); its CRC is of the
instance's `CRC_INIT` (R10). -/
def decodeWholeFrame (init : Byte) (f : Bytes) : Except DecodeError Instr :=
  match Machine.decodeFrame init f with
  | none => .error .notAFrame
  | some p =>
    if Machine.assembleFrame init p.dst p.src p.pid p.payload = f && (Instr.frame p.dst p.src p.pid p.payload).wf then
      .ok (.frame p.dst p.src p.pid p.payload)
    else .error .notAFrame

/-- The slot and packetId operands and the payload, in the order of the body (R60, P2). -/
def takeHeader : Bytes → Except DecodeError (Byte × Byte × Pid × Bytes)
  | d :: s :: hi :: lo :: rest => .ok (d, s, Machine.pidOf hi lo, rest)
  | _ => .error .missingOperand

/-- A natural number as operand bytes, of any size: each byte `FF` adds 255 and goes on, any other byte ends it. DESIGN
CHOICE, log 8. -/
def takeNat : Bytes → Option (Nat × Bytes)
  | [] => none
  | b :: rest => if b = 0xFF#8 then (takeNat rest).map (fun r => (255 + r.1, r.2)) else some (b.toNat, rest)

/-- An optional operand, which follows when the selector says so. -/
def takeOperand (present : Bool) (args : Bytes) : Option (Option Int × Bytes) :=
  if present then (takeNat args).map (fun r => (some (r.1 : Int), r.2)) else some (none, args)

/-- The optional operands of the helpers (R126): bit 0 of the selector says that an offset follows, bit 1 that a width
follows; the payload is the rest. DESIGN CHOICE, log 8. -/
def takeSlice (sel : Byte) (args : Bytes) : Except DecodeError (Option Int × Option Int × Bytes) :=
  match takeOperand (sel.getLsbD 0) args with
  | none => .error .missingOperand
  | some (o, more) =>
    match takeOperand (sel.getLsbD 1) more with
    | none => .error .missingOperand
    | some (w, payload) => .ok (o, w, payload)

/-- A command without operands. -/
def noOperands (i : Instr) : Bytes → Except DecodeError Instr
  | [] => .ok i
  | _ :: _ => .error .extraOperand

/-- The one operand byte of `CRC8.UPDATE` (R88). -/
def decodeUpdate : Bytes → Except DecodeError Instr
  | [] => .error .missingOperand
  | [b] => .ok (.crc8Update b)
  | _ :: _ :: _ => .error .extraOperand

/-- The callback selector of `OPEN`: 0 the host's own, 1 `LINK.RX`. DESIGN CHOICE, log 8. -/
def decodeOpen : Bytes → Except DecodeError Instr
  | [] => .error .missingOperand
  | [b] => if b = 0#8 then .ok (.openT .host) else if b = 1#8 then .ok (.openT .linkRx) else .error .badSelector
  | _ :: _ :: _ => .error .extraOperand

/-- `ASSEMBLE` at the command port. -/
def decodeAssemble (args : Bytes) : Except DecodeError Instr :=
  match takeHeader args with
  | .ok (d, s, p, y) => .ok (.assemble d s p y)
  | .error e => .error e

/-- `ENCODE` at the command port: the ports present 0 to 255 and 0 to 65535 (R24). -/
def decodeEncode (args : Bytes) : Except DecodeError Instr :=
  match takeHeader args with
  | .ok (d, s, p, y) => .ok (.encode d.toNat s.toNat p.toNat y)
  | .error e => .error e

/-- `LINK.TX` at the command port (P2: "operand bytes FF 00 FC 00 01"). -/
def decodeLinkTx (args : Bytes) : Except DecodeError Instr :=
  match takeHeader args with
  | .ok (d, s, p, y) => .ok (.linkTx d.toNat s.toNat p.toNat y)
  | .error e => .error e

/-- `TO_UINT` at the command port: selector, offset, width, payload. -/
def decodeToUint : Bytes → Except DecodeError Instr
  | [] => .error .missingOperand
  | sel :: args =>
    if 4 ≤ sel.toNat then .error .badSelector
    else match takeSlice sel args with
      | .ok (o, w, y) => .ok (.toUint y o w)
      | .error e => .error e

/-- `TO_INT` at the command port. -/
def decodeToInt : Bytes → Except DecodeError Instr
  | [] => .error .missingOperand
  | sel :: args =>
    if 4 ≤ sel.toNat then .error .badSelector
    else match takeSlice sel args with
      | .ok (o, w, y) => .ok (.toInt y o w)
      | .error e => .error e

/-- `TO_TEXT` at the command port: bit 2 of the selector is `substitute`. -/
def decodeToText : Bytes → Except DecodeError Instr
  | [] => .error .missingOperand
  | sel :: args =>
    if 8 ≤ sel.toNat then .error .badSelector
    else match takeSlice sel args with
      | .ok (o, w, y) => .ok (.toText y o w (sel.getLsbD 2))
      | .error e => .error e

/-- The host command of a 4-bit code (R79) and its operand bytes. -/
def decodeHostCmd (op : BitVec 4) (args : Bytes) : Except DecodeError Instr :=
  match op.toNat with
  | 0x0 => noOperands .nopReserved args
  | 0x1 => noOperands .crc8Clear args
  | 0x2 => decodeUpdate args
  | 0x3 => .ok (.crc8Calc args)
  | 0x4 => .ok (.stuff args)
  | 0x5 => .ok (.unstuff args)
  | 0x6 => decodeAssemble args
  | 0x7 => decodeEncode args
  | 0x8 => .ok (.decode args)
  | 0x9 => decodeToUint args
  | 0xA => decodeToInt args
  | 0xB => decodeToText args
  | 0xC => decodeOpen args
  | 0xD => .ok (.send args)
  | 0xE => noOperands .close args
  | 0xF => decodeLinkTx args
  | _ => .error .badSelector -- no 4-bit code is left

/-- The decoder: the operation that stands at a port, or the name of what is wrong with it. `init` is the instance's
`CRC_INIT`, which a whole frame's CRC depends on. -/
def decode (init : Byte) : Encoding → Except DecodeError Instr
  | .wireByte b => .ok (decodeWireByte b)
  | .wirePair b0 b1 => decodeWirePair b0 b1
  | .frame f => decodeWholeFrame init f
  | .hostCmd op args => decodeHostCmd op args

/-- The first wire symbol of the bytes a line delivers, and the bytes after it: a `DLE` with the byte after it is a
pair, every other byte stands alone (R63, R66). -/
def firstSymbol : Bytes → Option (Encoding × Bytes)
  | [] => none
  | [b] => some (.wireByte b, [])
  | b :: c :: rest => if b = Config.dle then some (.wirePair b c, rest) else some (.wireByte b, c :: rest)

/-- The slot and packetId operands and the payload as operand bytes (P2). -/
def putHeader (dst src : Byte) (pid : Pid) (payload : Bytes) : Bytes :=
  dst :: src :: Machine.pidHi pid :: Machine.pidLo pid :: payload

/-- A natural number as operand bytes (log 8). -/
def putNat (n : Nat) : Bytes := List.replicate (n / 255) 0xFF#8 ++ [BitVec.ofNat 8 (n % 255)]

/-- One optional operand as operand bytes. -/
def putOperand : Option Int → Bytes
  | none => []
  | some v => putNat v.toNat

/-- The selector byte of the helpers (log 8). -/
def sliceSelector (o w : Option Int) (substitute : Bool) : Byte :=
  (if o.isSome then 1#8 else 0#8) ||| (if w.isSome then 2#8 else 0#8) ||| (if substitute then 4#8 else 0#8)

/-- The operand bytes of the helpers (log 8). -/
def putSlice (payload : Bytes) (o w : Option Int) (substitute : Bool) : Bytes :=
  sliceSelector o w substitute :: (putOperand o ++ putOperand w ++ payload)

/-- The selector byte of `OPEN` (log 8). -/
def callbackByte : Callback → Byte
  | .host => 0#8
  | .linkRx => 1#8

/-- The encoder: the bytes of a well-formed operation at its port; none for the internal rows, which carry no code
(R79, R80). -/
def encode (init : Byte) : Instr → Option Encoding
  | .stx => some (.wireByte 0x02#8)
  | .etx => some (.wireByte 0x04#8)
  | .dle => some (.wireByte 0x20#8)
  | .literal v => some (.wireByte v)
  | .escStx => some (.wirePair 0x20#8 0xFD#8)
  | .escEtx => some (.wirePair 0x20#8 0xFB#8)
  | .escDle => some (.wirePair 0x20#8 0xDF#8)
  | .escAny xx => some (.wirePair 0x20#8 xx)
  | .frame d s p y => some (.frame (Machine.assembleFrame init d s p y))
  | .nopReserved => some (.hostCmd 0x0#4 [])
  | .crc8Clear => some (.hostCmd 0x1#4 [])
  | .crc8Update b => some (.hostCmd 0x2#4 [b])
  | .crc8Calc s => some (.hostCmd 0x3#4 s)
  | .stuff s => some (.hostCmd 0x4#4 s)
  | .unstuff w => some (.hostCmd 0x5#4 w)
  | .assemble d s p y => some (.hostCmd 0x6#4 (putHeader d s p y))
  | .encode d s p y =>
    some (.hostCmd 0x7#4 (putHeader (BitVec.ofInt 8 d) (BitVec.ofInt 8 s) (BitVec.ofInt 16 p) y))
  | .decode f => some (.hostCmd 0x8#4 f)
  | .toUint y o w => some (.hostCmd 0x9#4 (putSlice y o w false))
  | .toInt y o w => some (.hostCmd 0xA#4 (putSlice y o w false))
  | .toText y o w b => some (.hostCmd 0xB#4 (putSlice y o w b))
  | .openT cb => some (.hostCmd 0xC#4 [callbackByte cb])
  | .send bytes => some (.hostCmd 0xD#4 bytes)
  | .close => some (.hostCmd 0xE#4 [])
  | .linkTx d s p y =>
    some (.hostCmd 0xF#4 (putHeader (BitVec.ofInt 8 d) (BitVec.ofInt 8 s) (BitVec.ofInt 16 p) y))
  | .crc8Bitstep _ | .validate _ _ _ _ | .poll | .extract | .linkRx _ => none

/-- As many zero operand bytes as the command of a code needs; a helper gets a payload of one zero byte. -/
def zeroOperands (op : BitVec 4) : Bytes :=
  match op.toNat with
  | 2 => [0#8]
  | 6 | 7 | 15 => [0#8, 0#8, 0#8, 0#8]
  | 9 | 10 | 11 => [0#8, 0#8]
  | 12 => [0#8]
  | _ => []

/-- `n` bytes of a number, the first from its least significant bits. A frame row has no word in the table (R80): that a
frame given as a number has its first wire byte in the low bits, where a wire pair has it in the high ones, is the model's:
DESIGN CHOICE, log 7. -/
def bytesOfNat : Nat → Nat → Bytes
  | 0, _ => []
  | n + 1, w => BitVec.ofNat 8 w :: bytesOfNat n (w / 256)

/-- The encoding a word of the opcode table stands for, by the row's `format`, which tells the kinds of row apart (R80):
8-bit wire bytes, 16-bit wire pairs with the first wire byte in bits 15 to 8, 4-bit command codes (here with operand bytes
of zeros), and frames, here of `n` bytes, the first wire byte in the low bits (DESIGN CHOICE, log 7); internal rows have no
word. -/
def rowEncoding (format : Format) (n w : Nat) : Option Encoding :=
  match format with
  | .wireByte => if w < 256 then some (.wireByte (BitVec.ofNat 8 w)) else none
  | .wirePair => if w < 65536 then some (.wirePair (BitVec.ofNat 8 (w / 256)) (BitVec.ofNat 8 w)) else none
  | .frame => some (.frame (bytesOfNat n w))
  | .hostCmd => if w < 16 then some (.hostCmd (BitVec.ofNat 4 w) (zeroOperands (BitVec.ofNat 4 w))) else none
  | .internal => none

/-- The format of a word that comes with its width alone, as the host asks. A word of 4 bits is a command code and a word
of 16 bits a wire pair. The host gives widths in whole bytes, so a width of 8 is a command's or a wire byte's: below 16 it
is taken for the command's (log 7). -/
def wordFormat (nbits w : Nat) : Format :=
  if nbits ≤ 4 then .hostCmd
  else if nbits ≤ 8 then (if w < 16 then .hostCmd else .wireByte)
  else if nbits = 16 then .wirePair
  else .frame

/-- The encoding of a word that comes with its width alone. -/
def tableEncoding (nbits w : Nat) : Option Encoding := rowEncoding (wordFormat nbits w) (nbits / 8) w

/-- The instruction the decoder reads from a table word (the host's question). -/
def decodeTableWord (nbits w : Nat) : Option Instr :=
  match tableEncoding nbits w with
  | none => none
  | some e =>
    match decode Config.crcInit e with
    | .ok i => some i
    | .error _ => none

end Sys2Proof
end

