-- ==== Sys2Proof/Machine/State.lean ====
section
/-! DEFINITION. The state of one link block (10_state.md) as plain data, the moves of the agents around it, and the
state right after reset (R39, R206). -/

namespace Sys2Proof.Machine

/-- Where the streaming unstuffer stands: it takes the bytes of an interior and no other (R23, R63, R95, R101). -/
inductive Interior where
  /-- in no interior; the next `STX` on the line begins one (R68, R142) -/
  | outside
  /-- in the interior of a candidate frame on the line: after its `STX`, before the first `ETX` (R68, R142) -/
  | framed
  /-- in an interior given by itself, where raw `02` and `04` are data (R70 b and c, R98), log 6 -/
  | given
  deriving DecidableEq, Repr

/-- The worker's place in its loop (R27). -/
inductive Phase where
  | check
  | rx
  | tx
  | sleep
  deriving DecidableEq, Repr

/-- The life cycle of the instance (R29). -/
inductive Run where
  | unopened
  | running
  | closed
  | faulted
  deriving DecidableEq, Repr

/-- The Transport primitives the worker uses (R41 to R43); `TransportFault` carries which one failed (R188). -/
inductive Prim where
  | avail
  | read
  | write
  deriving DecidableEq, Repr

/-- The faults that end the worker (R187); each is recorded in `State.fault` and the block goes on answering the host. -/
inductive FaultName where
  /-- a Transport primitive failed inside `POLL` (R45) -/
  | transportFault (which : Prim)
  /-- an unfinished frame outgrew a bounded `RX_BUF_CAP` (R155) -/
  | rxOverflow
  /-- the receive callback ended with an error (R187, U4) -/
  | callbackFault
  deriving DecidableEq, Repr

/-- Who issued the command being run: the receive callback, or any other thread (R191, R200, U5). -/
inductive Caller where
  | host
  | callback
  deriving DecidableEq, Repr

/-- Which of the life-cycle tests a `TransportError` comes from (R136, R137, R150), log 27. -/
inductive TransportWhy where
  | alreadyOpened
  | notRunning
  | closeFailed
  deriving DecidableEq, Repr

/-- The outcome on the status port (R182 to R188). -/
inductive Status where
  | ok
  /-- R184; `ENCODE`, `LINK.TX` -/
  | validationError
  /-- R183; `DECODE`, `UNSTUFF` -/
  | frameError
  /-- R185; `OPEN`, `SEND`, `CLOSE` -/
  | transportError (why : TransportWhy)
  /-- R186; the block never raises it -/
  | timeoutError
  /-- R127, R186; carries the slice length -/
  | widthError (len : Nat)
  /-- R137, R186 -/
  | txQueueFull
  deriving DecidableEq, Repr

/-- A character of `TO_TEXT` (R130, R131): the ASCII character of a code, or `CODEPAGE(b)` for a byte outside `0x20` to
`0x7E`, which carries the byte and says nothing of the glyph (U9, log 16). -/
inductive TextChar where
  | ascii (code : Byte)
  | codePage (b : Byte)
  deriving DecidableEq, Repr

/-- The data on the result port (R34, R37). -/
inductive Value where
  | nothing
  | byte (b : Byte)
  | truth (b : Bool)
  | bytes (s : Bytes)
  /-- `UNSTUFF`'s `fail` (R98) -/
  | fail
  | packet (p : Packet)
  /-- `DECODE`'s `none` (R114) -/
  | noPacket
  | natural (n : Nat)
  | integer (z : Int)
  | text (t : List TextChar)
  deriving DecidableEq, Repr

/-- What an operation returns (R34). -/
structure Reply where
  status : Status
  value : Value
  deriving DecidableEq, Repr

/-- Which primitives the environment lets fail (R45, U7). A failing read has lost the first bytes it took, a failing
write has put the first bytes of the entry into `T.out`; how many is the environment's too. DESIGN CHOICE, log 13. -/
structure Health where
  avail : Bool
  read : Option Nat
  write : Option Nat
  close : Bool
  deriving DecidableEq, Repr

/-- The Transport at the block's edge (R33, R40). -/
structure Transport where
  /-- `T.in`: bytes delivered and not yet read -/
  inb : Bytes
  /-- `T.out`: every byte the arbiter has written, in order -/
  outb : Bytes
  /-- how many bytes of `T.out` the queued writer has put on the line (R33, R212), log 26 -/
  sent : Nat
  /-- `T.open` -/
  isOpen : Bool
  /-- whether the line's bytes come back into `T.in` (R164, U16), log 4 -/
  echo : Bool
  /-- the draws of failing primitives -/
  fails : Health
  deriving DecidableEq, Repr

/-- The parameters fixed when an instance is built (R10, R35): no step changes them, and every statement holds for each of
their values. A capacity `none` is unbounded. -/
structure Params where
  /-- `CRC_INIT` -/
  crcInit : Byte
  rxBufCap : Option Nat
  txqCap : Option Nat
  deriving DecidableEq, Repr

/-- The input pins of the signal-level binding, as one edge of `clk` samples them (R38), log 29. The pin `rst` is the move
`rst`. -/
structure Pins where
  /-- `crc_clear` -/
  crcClear : Bool
  /-- `crc_en` -/
  crcEn : Bool
  /-- `crc_din` -/
  crcDin : Byte
  /-- `cmd_valid` -/
  cmdValid : Bool
  /-- `cmd_op` -/
  cmdOp : BitVec 4
  /-- `arg_valid` -/
  argValid : Bool
  /-- `arg_data` -/
  argData : Byte
  /-- `arg_last` -/
  argLast : Bool
  /-- `rx_valid` -/
  rxValid : Bool
  /-- `rx_data` -/
  rxData : Byte
  /-- `tx_ready` -/
  txReady : Bool
  /-- `evt_ack` -/
  evtAck : Bool
  deriving DecidableEq, Repr

/-- Every input pin at 0. -/
def Pins.idle : Pins :=
  { crcClear := false, crcEn := false, crcDin := 0#8, cmdValid := false, cmdOp := 0#4, argValid := false, argData := 0#8,
    argLast := false, rxValid := false, rxData := 0#8, txReady := false, evtAck := false }

/-- One move of the agents, in the order in which they take effect (R58). Every claim quantifies over the list. -/
inductive Input where
  /-- a command at the host's port, from a thread of the host or from the receive callback (R37, R38) -/
  | host (who : Caller) (op : BitVec 4) (args : Bytes)
  /-- the line delivers bytes, any bytes at any time (R20 c, R200, U3, U14) -/
  | line (bytes : Bytes)
  /-- the line delivers one whole frame at once (R60) -/
  | frame (bytes : Bytes)
  /-- an interior given by itself begins at the streaming unstuffer (R70 c, R101), log 6 -/
  | interior
  /-- the interior given by itself is over (R101), log 6 -/
  | interiorEnd
  /-- an edge of `clk`, at which every input pin is sampled (R38), log 29 -/
  | clk (pins : Pins)
  /-- the worker, or a `CLOSE` that waited for it, makes its next move (R138, R150) -/
  | tick
  /-- the receive callback returns (R193) -/
  | cbReturn
  /-- the receive callback ends with an error (R187, U4) -/
  | cbError
  /-- the Transport's writer puts up to `n` more bytes on the line (R20 d) -/
  | drain (n : Nat)
  /-- host code in the receive callback will no longer, or will again, return by itself when no other move is to come
  (R191, R215), log 1 -/
  | cbHangs (hangs : Bool)
  /-- a call of `OPEN` will from now on return later than it takes effect, or in the same step (R209), log 30 -/
  | openLate (late : Bool)
  /-- a call of `OPEN` that has taken effect returns to its caller (R136, R209), log 30 -/
  | openReturn
  /-- the host opens a medium for an instance not yet opened; it may hold bytes already, inbound and outbound (R39, R40,
  R209, N12), log 4 -/
  | openMedium (waiting held : Bytes) (echo : Bool)
  /-- the environment draws anew which primitives fail (R45, U7) -/
  | health (h : Health)
  /-- `rst`: construction, or an edge of `clk` with that pin at 1, which samples no other pin (log 29); `done` bytes of the
  write or the read in progress are done when it strikes inside a `TX` or `RX` phase (R208, U13), log 15 -/
  | rst (done : Nat)
  deriving DecidableEq, Repr

/-- The whole state of the machine. INVENTORY.md lists each field with its rule and reset value. -/
structure State where
  /-- `acc` (R21) -/
  acc : Byte
  /-- `rx_buf` (R25) -/
  rxBuf : Bytes
  /-- `txq`, head first (R26) -/
  txq : List Bytes
  /-- `phase` (R27) -/
  phase : Phase
  /-- `stop` (R28) -/
  stop : Bool
  /-- `run` (R29) -/
  run : Run
  /-- `fault` (R30) -/
  fault : Option FaultName
  /-- `in_cb` (R31) -/
  inCb : Bool
  /-- `cb` (R32) -/
  cb : Option Callback
  /-- `T` is bound (R33) -/
  tBound : Bool
  /-- the Transport's own state (R33) -/
  tr : Transport
  /-- the parameters of the instance (R10) -/
  par : Params
  /-- `n`, as the last `CHECK` read it (R138, R141), log 5 -/
  avail : Nat
  /-- the `RX` phase has done its `MemRead` and stands in `EXTRACT` (R141, R152), log 5 -/
  rxRead : Bool
  /-- the bytes of the drain in progress that a bounded `rx_buf` does not hold yet (`data` of R138), log 5, log 12 -/
  data : Bytes
  /-- the worker has ended (R151), log 5 -/
  ended : Bool
  /-- a `CLOSE` waits for the worker to end (R150), log 5 -/
  closing : Bool
  /-- a call of `OPEN` has taken effect and has not returned yet (R209), log 30 -/
  opening : Bool
  /-- where the streaming unstuffer stands (R23, R101), log 6 -/
  uat : Interior
  /-- `esc` of the streaming unstuffer (R101) -/
  uesc : Bool
  /-- what the streaming unstuffer has output since the interior began (R101), log 6 -/
  uout : Bytes
  /-- the operand bytes that the command port has taken so far (R38), log 29 -/
  argIn : Bytes
  /-- the result port (R34, R38), log 10 -/
  res : Option Reply
  /-- how many bytes of the result stream have been put out (R38), log 29 -/
  resPut : Nat
  /-- the event port: the frame the running callback was given (R38, R190), log 19 -/
  evt : Option Bytes
  /-- how many bytes of the event stream have been put out (R38), log 29 -/
  evtPut : Nat
  /-- the environment's: host code in the callback does not return by itself (R215), log 1 -/
  hangs : Bool
  /-- the environment's: a call of `OPEN` returns later than it takes effect (R209), log 30 -/
  lateOpen : Bool
  /-- the model's own: every frame emitted, in order, log 19 -/
  emits : List Bytes
  /-- the model's own: every packet `LINK.RX` delivered, in order, log 19 -/
  got : List Packet
  /-- the model's own: who issued the command being run, log 20 -/
  caller : Caller
  /-- the model's own: the moves still to come, log 1 -/
  inputs : List Input
  deriving DecidableEq, Repr

/-- What a step's fetch finds: an operation to run, a move that is none, or operands that are no operand. -/
inductive Fetched where
  | instr (i : Instr) (s : State)
  | event (s : State)
  | malformed (e : DecodeError)
  deriving DecidableEq, Repr

/-- Why the machine stops without a next state. -/
inductive Fault where
  /-- Raised by `CLOSE` when host code in the instance's own receive callback calls it: it waits for the worker that is
  executing it (R216, U5: stuck). Safe: the machine stops where the spec gives no next state. -/
  | closeInsideCallback
  deriving DecidableEq, Repr

/-- Why an operation has no meaning. -/
inductive Refusal where
  /-- Raised by `exec` for an instruction without a meaning yet. Safe. -/
  | notModelled (mnemonic : String)
  /-- Raised by `step` when a command's operand bytes are no operand of its code (R200: the host must respect operand
  types). Safe. -/
  | malformedOperands (e : DecodeError)
  /-- Raised by `TO_UINT`, `TO_INT`, `TO_TEXT` when the slice is not inside the payload (R126, U6). Safe. -/
  | sliceOutsidePayload
  /-- Raised by `TO_UINT`, `TO_INT` on an empty slice (R129, U18). Safe. -/
  | emptySlice
  deriving DecidableEq, Repr

/-- No primitive fails. -/
def Health.good : Health := { avail := false, read := none, write := none, close := false }

/-- The Transport as `State.reset` finds it: the spec says "whatever the Transport holds" (R39). DESIGN CHOICE: open,
both streams empty, no echo, nothing fails (log 4, log 13). -/
def Transport.fresh : Transport :=
  { inb := [], outb := [], sent := 0, isOpen := true, echo := false, fails := Health.good }

/-- The parameters at their defaults: both capacities unbounded (R10). -/
def Params.default : Params := { crcInit := Config.crcInit, rxBufCap := none, txqCap := none }

/-- The machine right after reset (R39, R206). -/
def State.reset : State :=
  { acc := Config.crcInit, rxBuf := [], txq := [], phase := .check, stop := false, run := .unopened, fault := none,
    inCb := false, cb := none, tBound := false, tr := Transport.fresh, par := Params.default, avail := 0,
    rxRead := false, data := [], ended := false, closing := false, opening := false, uat := .outside, uesc := false, uout := [],
    argIn := [], res := none, resPut := 0, evt := none, evtPut := 0, hangs := false, lateOpen := false, emits := [],
    got := [], caller := .host, inputs := [] }

end Sys2Proof.Machine
end

