-- ==== Sys2Proof/Machine/Flags.lean ====
section
/-! DEFINITION. The block has no condition-code or status-flag register (10_state.md R34). What stands in its place is
the cause byte of the status port, with the numbers of 60_exceptions.md R188, and `res_ok` of R38. -/

namespace Sys2Proof.Machine

/-- The number of an outcome (R188). -/
def statusCode : Status → Nat
  | .ok => 0
  | .validationError => 1
  | .frameError => 2
  | .transportError _ => 3
  | .timeoutError => 4
  | .widthError _ => 5
  | .txQueueFull => 6

/-- The number of a fault (R188). -/
def faultCode : FaultName → Nat
  | .transportFault _ => 16
  | .rxOverflow => 17
  | .callbackFault => 18

/-- `res_ok` (R38, R188). -/
def resOk (r : Reply) : Bool := statusCode r.status == 0

/-- The cause byte of the instance's fault record, 0 for none (R188). -/
def faultCause (s : State) : Nat :=
  match s.fault with
  | none => 0
  | some f => faultCode f

end Sys2Proof.Machine
end

