-- ==== Sys2Proof/Machine/Operands.lean ====
section
/-! DEFINITION. The operand forms of the payload helpers (44_payload_helpers.md R126 to R129): the slice, and the
big-endian readings of it. -/

namespace Sys2Proof.Machine

/-- The slice of R126: `payload[offset : offset + width]`, or `payload[offset :]` when `width` is absent; `offset`
is 0 when absent. `none` when the bounds of R126 do not hold. -/
def sliceOf (payload : Bytes) (offset width : Option Int) : Option Bytes :=
  let o := offset.getD 0
  if o < 0 then none
  else match width with
    | none => if o ≤ payload.length then some (payload.drop o.toNat) else none
    | some w =>
      if 0 ≤ w ∧ o + w ≤ payload.length then some ((payload.drop o.toNat).take w.toNat) else none

/-- The unsigned big-endian value of a slice: `v <- (v << 8) | b` over its bytes (R127). -/
def unsignedOf (sl : Bytes) : Nat := sl.foldl (fun v b => v * 256 + b.toNat) 0

/-- `sext_n(v)`: `v` when `v < 2^(n-1)`, else `v - 2^n` (R13). -/
def sext (n v : Nat) : Int := if v < 2 ^ (n - 1) then (v : Int) else (v : Int) - 2 ^ n

/-- The two's-complement big-endian value of a slice, over exactly its own width (R128). -/
def signedOf (sl : Bytes) : Int := sext (8 * sl.length) (unsignedOf sl)

/-- The greatest number of bytes the integer helpers take (R125, R127). -/
def maxIntegerBytes : Nat := 8

/-- A byte outside `0x20` to `0x7E` (R130). -/
def nonPrintable (b : Byte) : Bool := decide (b.toNat < 0x20) || decide (0x7E < b.toNat)

end Sys2Proof.Machine
end

