-- ==== Sys2Proof/Machine/Ops.lean ====
section
/-! DEFINITION. The named operations over the state: results, the Transport primitives of 20_memory.md R41 to R44, the
line side and the streaming unstuffer, the extraction of one candidate (45_arbiter.md R142, R155), and the two shared
entries of 60_exceptions.md: raising a fault (R187) and the receive event with its return (R190, R193). -/

namespace Sys2Proof.Machine

/-- An operation returns (R34). -/
def State.withReply (s : State) (st : Status) (v : Value) : State := { s with res := some ⟨st, v⟩, resPut := 0 }

/-- `x[acc] <- a` (R21). -/
def State.withAcc (s : State) (a : Byte) : State := { s with acc := a }

/-- The Transport's state changes (R33). -/
def State.withTr (s : State) (t : Transport) : State := { s with tr := t }

/-- `x[rx_buf] <- b` (R25), nothing of a drain left outside it. -/
def State.withRxBuf (s : State) (b : Bytes) : State := { s with rxBuf := b, data := [] }

/-- `x[txq] <- q` (R26). -/
def State.withTxq (s : State) (q : List Bytes) : State := { s with txq := q }

/-- `pc <- target`: `x[phase] <- p` (R15, R27). -/
def State.withPhase (s : State) (p : Phase) : State := { s with phase := p }

/-- The streaming unstuffer's place, flag and output (R101). -/
def State.withUnstuffer (s : State) (u : Interior × Bool × Bytes) : State :=
  { s with uat := u.1, uesc := u.2.1, uout := u.2.2 }

/-- The moves still to come. -/
def State.withInputs (s : State) (is : List Input) : State := { s with inputs := is }

/-- A fault ends the worker (R187, R151): the first one is recorded and never cleared, `run` becomes `FAULTED`, and the rest
of a drain in progress goes with the worker. The one operation every fault is taken through. -/
def raiseFault (f : FaultName) (s : State) : State :=
  { s with fault := s.fault.or (some f), run := .faulted, ended := true, data := [] }

/-- `LINK.RX(frame)` inside the callback: decode, drop `none`, deliver a packet (R162). -/
def linkDeliver (f : Bytes) (s : State) : State := { s with got := s.got ++ (decodeFrame s.par.crcInit f).toList }

/-- `emit(frame)`: the receive event is entered (R152, R190). The frame is out of `rx_buf`, `in_cb` is 1 and the
callback runs on the worker; when the block is joined the callback is `LINK.RX`. That the event port shows the raw frame then
too, also one that `LINK.RX` drops as "no event" (R162), is the model's: DESIGN CHOICE, log 29. -/
def emitFrame (f : Bytes) (s : State) : State :=
  let s1 := { s with inCb := true, evt := some f, evtPut := 0, emits := s.emits ++ [f] }
  match s.cb with
  | some .linkRx => linkDeliver f s1
  | _ => s1

/-- The callback returns (R152, R193): `in_cb` is 0, `EXTRACT` goes on with the worker's next move. That `evt_ack` is the
return of `LINK.RX` in the joined block, where R38 has the host's callback, is the model's: DESIGN CHOICE, log 29. -/
def callbackReturn (s : State) : State := if s.inCb then { s with inCb := false, evt := none, evtPut := 0 } else s

/-- Host code runs inside the callback: its own callback, or its packet callback when `LINK.RX` delivered; for a frame that
does not decode `LINK.RX` runs none and returns (R162). -/
def hostInCallback (s : State) : Bool :=
  s.inCb && (s.cb != some .linkRx || ((s.evt.bind (decodeFrame s.par.crcInit)).isSome))

/-- The callback ends with an error instead of returning (R187, U4). -/
def callbackError (s : State) : State :=
  if hostInCallback s then raiseFault .callbackFault (callbackReturn s) else s

/-- The primitives may be used: `T` is bound and open (R33, R44). -/
def transportUsable (s : State) : Bool := s.tBound && s.tr.isOpen

/-- `MemAvail(RX)` (R41); `none` when it fails (R45). -/
def memAvail (s : State) : Option Nat :=
  if transportUsable s && !s.tr.fails.avail then some s.tr.inb.length else none

/-- What a primitive leaves: it worked, or it failed (R45). -/
inductive PrimResult where
  | done (s : State)
  | failed (s : State)
  deriving DecidableEq, Repr

/-- The first bytes of `b` that a bounded buffer holds. -/
def keepCap (cap : Option Nat) (b : Bytes) : Bytes :=
  match cap with
  | none => b
  | some c => b.take c

/-- The bytes of `b` that a bounded buffer does not hold. -/
def beyondCap (cap : Option Nat) (b : Bytes) : Bytes :=
  match cap with
  | none => []
  | some c => b.drop c

/-- What `EXTRACT` scans in order (R142, R155): `rx_buf` and the bytes of the drain that wait for room in it. -/
def scanned (s : State) : Bytes := s.rxBuf ++ s.data

/-- The bytes still to be scanned, in `rx_buf` as far as it holds them (R25, R46). That the rest of one drain waits outside
the buffer, and does not count against `RX_BUF_CAP`, also while a callback runs, is the model's: DESIGN CHOICE, log 12. -/
def State.withScanned (s : State) (b : Bytes) : State :=
  { s with rxBuf := keepCap s.par.rxBufCap b, data := beyondCap s.par.rxBufCap b }

/-- `MemRead(RX, n)` with the bytes appended to `rx_buf` (R42, R141); what a bounded `rx_buf` does not hold waits in `data`
(DESIGN CHOICE, log 12). -/
def readIntoBuffer (n : Nat) (s : State) : PrimResult :=
  match transportUsable s, s.tr.fails.read with
  | true, none =>
    .done ({ s with tr := { s.tr with inb := s.tr.inb.drop n }, rxRead := true }.withScanned
      (scanned s ++ s.tr.inb.take n))
  | true, some k => .failed (s.withTr { s.tr with inb := s.tr.inb.drop (min k n) })
  | false, _ => .failed s

/-- `MemWrite(TX, len(v), v)` (R43). -/
def memWrite (v : Bytes) (s : State) : PrimResult :=
  match transportUsable s, s.tr.fails.write with
  | true, none => .done (s.withTr { s.tr with outb := s.tr.outb ++ v })
  | true, some k => .failed (s.withTr { s.tr with outb := s.tr.outb ++ v.take k })
  | false, _ => .failed s

/-- The length `n` exceeds a bounded capacity. -/
def overCap (cap : Option Nat) (n : Nat) : Bool :=
  match cap with
  | none => false
  | some c => decide (c < n)

/-- `len(q) = TXQ_CAP` for a bounded capacity (R137). -/
def queueFull (cap : Option Nat) (n : Nat) : Bool :=
  match cap with
  | none => false
  | some c => decide (n = c)

/-- What one pass of `EXTRACT` finds in the bytes it scans. -/
inductive Cut where
  /-- no `STX` -/
  | noStx
  /-- an `STX` at the front, no `ETX` after it -/
  | unfinished (buf : Bytes)
  /-- the frame at the front outgrows a bounded buffer (R155) -/
  | overflow (buf : Bytes)
  /-- a candidate frame, and the bytes after it -/
  | frame (f rest : Bytes)
  deriving DecidableEq, Repr

/-- `rx_buf` from its first `STX` on (R142). -/
def fromStx (buf : Bytes) : Bytes := buf.dropWhile (· != Config.stx)

/-- The bytes before the first `ETX` (R142). -/
def uptoEtx (buf : Bytes) : Bytes := buf.takeWhile (· != Config.etx)

/-- The bytes from the first `ETX` on (R142). -/
def fromEtx (buf : Bytes) : Bytes := buf.dropWhile (· != Config.etx)

/-- One pass of the loop of `EXTRACT` (R142), with the scan of R155: from the frame's `STX`, more than `RX_BUF_CAP`
bytes are scanned before its `ETX` has been. DEDUCED from R218: the `ETX` counts, log 12. -/
def cut (cap : Option Nat) (buf : Bytes) : Cut :=
  match fromStx buf with
  | [] => .noStx
  | b :: rest =>
    match fromEtx (b :: rest) with
    | [] => if overCap cap (b :: rest).length then .overflow (keepCap cap (b :: rest)) else .unfinished (b :: rest)
    | e :: after =>
      if overCap cap ((uptoEtx (b :: rest)).length + 1) then .overflow (keepCap cap (b :: rest))
      else .frame (uptoEtx (b :: rest) ++ [e]) after

/-- `rx_buf` without an `STX` is kept whole (R142), unless it does not fit a bounded buffer: such bytes may be dropped
(R145, R218, D8), log 12. -/
def keepJunk (cap : Option Nat) (buf : Bytes) : Bytes := if overCap cap buf.length then [] else buf

/-- How a pass of `EXTRACT` ended: the loop was left, the callback was entered, or the worker faulted. -/
inductive Pass where
  | left (s : State)
  | emitted (s : State)
  | faulted (s : State)
  deriving DecidableEq, Repr

/-- One pass of `EXTRACT` on the state (R142, R152, R155). -/
def extractPass (s : State) : Pass :=
  match cut s.par.rxBufCap (scanned s) with
  | .noStx => .left (s.withRxBuf (keepJunk s.par.rxBufCap (scanned s)))
  | .unfinished b => .left (s.withRxBuf b)
  | .overflow b => .faulted (raiseFault .rxOverflow (s.withRxBuf b))
  | .frame f rest => .emitted (emitFrame f (s.withScanned rest))

/-- One wire byte at the streaming unstuffer. An `STX` outside every interior begins a candidate's, with `esc` 0 and nothing
output, so that nothing is carried from one candidate to the next (R23, R99); the first `ETX` after it ends it (R68, R142).
Inside an interior the byte is unstuffed (R63, R101); outside it is no data. That an `STX` outside discards what came before
and the other bytes there are not taken follows `EXTRACT` (R142), log 6. -/
def wireStep (u : Interior × Bool × Bytes) (c : Byte) : Interior × Bool × Bytes :=
  match u.1 with
  | .outside => if c = Config.stx then (.framed, false, []) else u
  | .framed => if c = Config.etx then (.outside, u.2) else (.framed, unstuffStep u.2 c)
  | .given => (.given, unstuffStep u.2 c)

/-- A wire byte comes in: the line puts it into `T.in` (R20 c, R33), and the streaming unstuffer sees it (R63, R101). That
one byte does both at once, and that the unstuffer takes the line's bytes in every state of the life cycle, unopened (R207)
and closed too, is the model's: DESIGN CHOICE, log 6. -/
def wireIn (c : Byte) (s : State) : State :=
  (s.withTr { s.tr with inb := s.tr.inb ++ [c] }).withUnstuffer (wireStep (s.uat, s.uesc, s.uout) c)

/-- An interior given by itself begins at the streaming unstuffer: `esc` is 0 and nothing is output yet (R99, R101). -/
def beginInterior (s : State) : State := s.withUnstuffer (.given, false, [])

/-- An interior given by itself is over; its result stays (R101). -/
def endInterior (s : State) : State := if s.uat = .given then { s with uat := .outside } else s

/-- The streaming unstuffer at the end of an interior: `esc = 1` means `fail` (R101). -/
def unstufferResult (s : State) : Option Bytes := if s.uesc then none else some s.uout

/-- The worker can perform a phase: it runs and is not inside the callback (R151, R152). -/
def workerReady (s : State) : Bool := s.run == .running && !s.ended && !s.inCb

end Sys2Proof.Machine
end

