-- ==== Sys2Proof/Machine/Crc.lean ====
section
/-! DEFINITION. The reserved command and the family `CRC8` (30_encoding.md R79, 40_crc8.md R86 to R89). -/

namespace Sys2Proof.Machine

/-- Code `0x0`: does nothing and returns `ok` (R79, U8). -/
def execNopReserved (s : State) : Host.Outcome State Fault Refusal := .next (s.withReply .ok .nothing)

/-- `CRC8.CLEAR` (R87): `x[acc] <- CRC_INIT`. -/
def execCrc8Clear (s : State) : Host.Outcome State Fault Refusal :=
  .next ((s.withAcc s.par.crcInit).withReply .ok .nothing)

/-- `CRC8.UPDATE(b)` (R88). -/
def execCrc8Update (b : Byte) (s : State) : Host.Outcome State Fault Refusal :=
  .next ((s.withAcc (crcUpdate s.acc b)).withReply .ok .nothing)

/-- `CRC8.CALC(s)`: it does not read or write `x[acc]` (R89). -/
def execCrc8Calc (m : Bytes) (s : State) : Host.Outcome State Fault Refusal :=
  .next (s.withReply .ok (.byte (crcCalc s.par.crcInit m)))

/-- `CRC8.BITSTEP(a)`, a step of `CRC8.UPDATE` (R86). -/
def execCrc8Bitstep (a : Byte) (s : State) : Host.Outcome State Fault Refusal :=
  .next (s.withReply .ok (.byte (bitStep a)))

end Sys2Proof.Machine
end

