-- ==== Sys2Proof/Machine/Framer.lean ====
section
/-! DEFINITION. The operations of `FRAMER` on packets and frames: stuffing (41_stuffing.md), encode (42) and decode
(43). They read only their operands and write only their result (10_state.md R23). -/

namespace Sys2Proof.Machine

/-- `STUFF(s)` (R96). -/
def execStuff (m : Bytes) (s : State) : Host.Outcome State Fault Refusal :=
  .next (s.withReply .ok (.bytes (stuffBytes m)))

/-- `UNSTUFF(w)`; `fail` is a result value (R98), a `FrameError` on the status port (R183, R188). -/
def execUnstuff (w : Bytes) (s : State) : Host.Outcome State Fault Refusal :=
  match unstuffBytes w with
  | none => .next (s.withReply .frameError .fail)
  | some u => .next (s.withReply .ok (.bytes u))

/-- `VALIDATE(dst, src, pid, payload)` (R104). -/
def execValidate (dst src pid : Int) (payload : Bytes) (s : State) : Host.Outcome State Fault Refusal :=
  .next (s.withReply .ok (.truth (validatePacket dst src pid payload)))

/-- `ASSEMBLE(dst, src, pid, payload)` (R105). -/
def execAssemble (dst src : Byte) (pid : Pid) (payload : Bytes) (s : State) : Host.Outcome State Fault Refusal :=
  .next (s.withReply .ok (.bytes (assembleFrame s.par.crcInit dst src pid payload)))

/-- `ENCODE(dst, src, pid, payload)` (R107); a refusal is the empty sequence, a `ValidationError` on the status port
(R184, R188). -/
def execEncode (dst src pid : Int) (payload : Bytes) (s : State) : Host.Outcome State Fault Refusal :=
  if validatePacket dst src pid payload then .next (s.withReply .ok (.bytes (encodePacket s.par.crcInit dst src pid payload)))
  else .next (s.withReply .validationError (.bytes []))

/-- `DECODE(f)` (R114); `none` is a `FrameError` on the status port (R183, R188). -/
def execDecode (f : Bytes) (s : State) : Host.Outcome State Fault Refusal :=
  match decodeFrame s.par.crcInit f with
  | none => .next (s.withReply .frameError .noPacket)
  | some p => .next (s.withReply .ok (.packet p))

end Sys2Proof.Machine
end

