-- ==== Sys2Proof/Machine/Helpers.lean ====
section
/-! DEFINITION. The payload helpers (44_payload_helpers.md). The bounds of the slice are tested before its width
(60_exceptions.md R194 g). -/

namespace Sys2Proof.Machine

/-- The slice as an integer operand: outside the payload refused (R126, U6), more than 8 bytes `WidthError` (R127),
empty refused (R129, U18). -/
def integerReply (payload : Bytes) (offset width : Option Int) (read : Bytes → Value) (s : State) :
    Host.Outcome State Fault Refusal :=
  match sliceOf payload offset width with
  | none => .refused .sliceOutsidePayload
  | some sl =>
    if maxIntegerBytes < sl.length then .next (s.withReply (.widthError sl.length) .nothing)
    else if sl = [] then .refused .emptySlice
    else .next (s.withReply .ok (read sl))

/-- `TO_UINT(payload, offset, width)` (R127). -/
def execToUint (payload : Bytes) (offset width : Option Int) (s : State) : Host.Outcome State Fault Refusal :=
  integerReply payload offset width (fun sl => .natural (unsignedOf sl)) s

/-- `TO_INT(payload, offset, width)` (R128). -/
def execToInt (payload : Bytes) (offset width : Option Int) (s : State) : Host.Outcome State Fault Refusal :=
  integerReply payload offset width (fun sl => .integer (signedOf sl)) s

/-- The character of a byte (R130, R131): `.` for a substituted one, ASCII for `0x20` to `0x7E`, else `CODEPAGE(b)`. -/
def textChar (substitute : Bool) (b : Byte) : TextChar :=
  if nonPrintable b then (if substitute then .ascii 0x2E#8 else .codePage b) else .ascii b

/-- `TO_TEXT(payload, offset, width, substitute)` (R130); an empty slice gives the empty text (R129). -/
def execToText (payload : Bytes) (offset width : Option Int) (substitute : Bool) (s : State) :
    Host.Outcome State Fault Refusal :=
  match sliceOf payload offset width with
  | none => .refused .sliceOutsidePayload
  | some sl => .next (s.withReply .ok (.text (sl.map (textChar substitute))))

end Sys2Proof.Machine
end

