-- ==== Sys2Proof/Machine/Worker.lean ====
section
/-! DEFINITION. The worker's phases (45_arbiter.md R138 to R144) and the end of a `CLOSE` that waited for it (R150). -/

namespace Sys2Proof.Machine

/-- Phase `CHECK` (R139): the stop signal first, then one reading of the count. -/
def phaseCheck (s : State) : State :=
  if s.stop then { s with ended := true }
  else match memAvail s with
    | none => raiseFault (.transportFault .avail) s
    | some n => { s with avail := n, phase := if 0 < n then .rx else .tx, rxRead := false }

/-- `EXTRACT` inside phase `RX` (R138): when it has run to its end the phase is over. -/
def extractInRx (s : State) : State :=
  match extractPass s with
  | .left t => { t with phase := .sleep, rxRead := false }
  | .emitted t => t
  | .faulted t => t

/-- Phase `RX` (R141): one `MemRead` of the count `CHECK` read, then `EXTRACT`; after a callback has returned, `EXTRACT`
goes on with its next pass (R193). -/
def phaseRx (s : State) : State :=
  if s.rxRead then extractInRx s
  else match readIntoBuffer s.avail s with
    | .failed t => raiseFault (.transportFault .read) t
    | .done t => extractInRx t

/-- Phase `TX` (R143): at most one entry, the whole of it, in one write. -/
def phaseTx (s : State) : State :=
  match s.txq with
  | [] => s.withPhase .sleep
  | e :: rest =>
    match memWrite e (s.withTxq rest) with
    | .failed t => raiseFault (.transportFault .write) t
    | .done t => t.withPhase .sleep

/-- Phase `SLEEP` (R144): after it `CHECK` is enabled. -/
def phaseSleep (s : State) : State := s.withPhase .check

/-- The worker's next phase (R138, R140). -/
def workerPhase (s : State) : State :=
  match s.phase with
  | .check => phaseCheck s
  | .rx => phaseRx s
  | .tx => phaseTx s
  | .sleep => phaseSleep s

/-- The worker goes through phases until the iteration is over, it stands in the callback, or it has ended; at most
`fuel` of them. -/
def iterationFrom : Nat → State → State
  | 0, s => s
  | fuel + 1, s =>
    if workerReady (workerPhase s) && (workerPhase s).phase != .check then iterationFrom fuel (workerPhase s)
    else workerPhase s

/-- The worker has ended, so a `CLOSE` goes on, line by line (R150): both buffers are emptied, the Transport is closed and
released, and `run` becomes `CLOSED`. When `T.close()` fails the caller gets a `TransportError` and nothing after it
happens (R15, R185). DEDUCED, log 11: the lines before it go before the summary of R195, by the order of trust of
90_conflicts.md. -/
def closeFinish (s : State) : State :=
  let t := { s with txq := [], rxBuf := [], data := [], closing := false }
  if s.tr.fails.close then t.withReply (.transportError .closeFailed) .nothing
  else ({ t with tr := { s.tr with isOpen := false }, tBound := false, run := .closed }).withReply .ok .nothing

/-- The next move inside the block: the worker's phase, or a waiting `CLOSE` once the worker has ended. While host code
runs in the callback there is none (R152); a `LINK.RX` that runs none, its frame dropped, returns (R162). -/
def internalMove (s : State) : State :=
  if s.inCb then (if hostInCallback s then s else callbackReturn s)
  else if workerReady s then workerPhase s
  else if s.closing && s.ended then closeFinish s
  else s

/-- What happens when no agent outside is to move: host code in the callback returns, unless it never does, which hangs the
instance for good (R215); else the block makes its next move (R151, R162, R224). DESIGN CHOICE, log 1. -/
def defaultMove (s : State) : State :=
  if hostInCallback s && !s.hangs then callbackReturn s else internalMove s

end Sys2Proof.Machine
end

