-- ==== Sys2Proof/Machine/Arbiter.lean ====
section
/-! DEFINITION. The operations of the family arbiter (45_arbiter.md R136 to R150). -/

namespace Sys2Proof.Machine

/-- `OPEN(T, cb)` (R136). `T` is the block's one Transport, which the host has opened (R209); bytes waiting in `T.in`
are not flushed. The worker starts in this step. Frames can reach the callback even before the call has returned to its
caller (R209): whether it returns in this step or later, at `openReturn`, is the environment's draw `lateOpen`. DESIGN CHOICE,
log 30. -/
def execOpenT (cb : Callback) (s : State) : Host.Outcome State Fault Refusal :=
  if s.run ≠ .unopened then .next (s.withReply (.transportError .alreadyOpened) .nothing)
  else
    let t := { s with
      tBound := true, cb := some cb, rxBuf := [], txq := [], stop := false, inCb := false, fault := none, evt := none,
      evtPut := 0, phase := .check, avail := 0, rxRead := false, data := [], ended := false, closing := false,
      opening := s.lateOpen, run := .running }
    .next (if s.lateOpen then { t with res := none, resPut := 0 } else t.withReply .ok .nothing)

/-- A call of `OPEN` that has taken effect returns (R136, R209), log 30. -/
def openReturn (s : State) : State := if s.opening then { s with opening := false }.withReply .ok .nothing else s

/-- The queue append of `SEND` (R137), shared with `LINK.TX` (R161). -/
def sendBytes (bytes : Bytes) (s : State) : State :=
  if s.run ≠ .running then s.withReply (.transportError .notRunning) .nothing
  else if queueFull s.par.txqCap s.txq.length then s.withReply .txQueueFull .nothing
  else (s.withTxq (s.txq ++ [bytes])).withReply .ok .nothing

/-- `SEND(bytes)` (R137): any byte sequence, never waits. -/
def execSend (bytes : Bytes) (s : State) : Host.Outcome State Fault Refusal := .next (sendBytes bytes s)

/-- `POLL`, one iteration of the loop (R138): the phases up to the next `CHECK`. Inside the callback, or without a live
worker, there is no phase to perform (R151, R152, R207). -/
def execPoll (s : State) : Host.Outcome State Fault Refusal :=
  if workerReady s then .next (iterationFrom 3 s) else .next s

/-- `EXTRACT` (R142): passes of its loop up to the next `emit`, where the callback holds it (R152), or to its end. While
the callback runs `EXTRACT` stands still. -/
def execExtract (s : State) : Host.Outcome State Fault Refusal :=
  if s.inCb then .next s
  else match extractPass s with
    | .left t => .next t
    | .emitted t => .next t
    | .faulted t => .next t

/-- `CLOSE` (R150). It sets `stop` and waits for the worker; the wait is over at once when the worker has ended
(`FAULTED` among the cases). From host code in the instance's own callback it would wait for the worker that is executing
it (R216, U5). -/
def execClose (s : State) : Host.Outcome State Fault Refusal :=
  if s.run = .closed then .next (s.withReply .ok .nothing)
  else if s.run = .unopened then .next (s.withReply .ok .nothing)
  else if s.ended then .next (closeFinish { s with stop := true })
  else if s.caller = .callback ∧ hostInCallback s = true then .fault .closeInsideCallback
  else .next { s with stop := true, closing := true, res := none, resPut := 0 }

end Sys2Proof.Machine
end

