-- ==== Sys2Proof/Machine/LinkTop.lean ====
section
/-! DEFINITION. The joined block (46_link_top.md): compositions of operations defined elsewhere. -/

namespace Sys2Proof.Machine

/-- `LINK.TX(dst, src, pid, payload)` (R161): an empty `ENCODE` result is refused and not enqueued. -/
def execLinkTx (dst src pid : Int) (payload : Bytes) (s : State) : Host.Outcome State Fault Refusal :=
  match encodePacket s.par.crcInit dst src pid payload with
  | [] => .next (s.withReply .validationError .nothing)
  | b :: rest => .next (sendBytes (b :: rest) s)

/-- `LINK.RX(frame)` (R162): `none` is dropped, a packet is delivered to the host's packet callback. -/
def execLinkRx (f : Bytes) (s : State) : Host.Outcome State Fault Refusal := .next (linkDeliver f s)

end Sys2Proof.Machine
end

