-- ==== Sys2Proof/Machine/Wire.lean ====
section
/-! DEFINITION. The wire forms (30_encoding.md R60 to R68): what a byte, a pair or a whole frame does when it comes in
from the wire. To `EXTRACT` they are bytes of the inbound stream. To the streaming unstuffer (41_stuffing.md R101) they are,
inside an interior, data or the escape prefix; an `STX` outside begins the interior of a candidate and the first `ETX` after
it ends it (R68, R142). -/

namespace Sys2Proof.Machine

/-- `STX`: the start of a frame, and raw in an interior data to the unstuffer; to `EXTRACT` the start of a frame when it is
the first in `rx_buf` (R63, R70 b). -/
def execStx (s : State) : Host.Outcome State Fault Refusal := .next (wireIn Config.stx s)

/-- `ETX`: the end of the frame; data to the unstuffer in an interior given by itself, the only one a raw `ETX` can stand in
(R63, R70 c). -/
def execEtx (s : State) : Host.Outcome State Fault Refusal := .next (wireIn Config.etx s)

/-- `DLE`: the escape prefix to the unstuffer, an ordinary byte to `EXTRACT` (R63, R66). -/
def execDle (s : State) : Host.Outcome State Fault Refusal := .next (wireIn Config.dle s)

/-- A literal: appended as it is (R63). -/
def execLiteral (v : Byte) (s : State) : Host.Outcome State Fault Refusal := .next (wireIn v s)

/-- The two bytes of a wire pair, in wire order (R48, R66). -/
def wirePairIn (xx : Byte) (s : State) : State := wireIn xx (wireIn Config.dle s)

/-- `20 FD`, body byte `0x02` (R65). -/
def execEscStx (s : State) : Host.Outcome State Fault Refusal := .next (wirePairIn 0xFD#8 s)

/-- `20 FB`, body byte `0x04` (R65). -/
def execEscEtx (s : State) : Host.Outcome State Fault Refusal := .next (wirePairIn 0xFB#8 s)

/-- `20 DF`, body byte `0x20` (R65). -/
def execEscDle (s : State) : Host.Outcome State Fault Refusal := .next (wirePairIn 0xDF#8 s)

/-- `20 xx`, body byte `~xx`, for every `xx` (R66, D5). On the line a prefix hides no `ETX` (R68), so there `20 04` ends the
candidate on an unpaired prefix. -/
def execEscAny (xx : Byte) (s : State) : Host.Outcome State Fault Refusal := .next (wirePairIn xx s)

/-- A whole frame comes in (R60), byte after byte: `STX`, the stuffed body, `ETX`. -/
def frameIn (dst src : Byte) (pid : Pid) (payload : Bytes) (s : State) : State :=
  (assembleFrame s.par.crcInit dst src pid payload).foldl (fun t c => wireIn c t) s

/-- The frame row (R60). -/
def execFrame (dst src : Byte) (pid : Pid) (payload : Bytes) (s : State) : Host.Outcome State Fault Refusal :=
  .next (frameIn dst src pid payload s)

end Sys2Proof.Machine
end

