-- ==== Sys2Proof/Machine/Dispatch.lean ====
section
/-! DEFINITION. One arm per row of spec/opcode_table.json. -/

namespace Sys2Proof.Machine

def exec (i : Instr) (s : State) : Host.Outcome State Fault Refusal :=
  match i with
  -- wire bytes, wire pairs, the frame (R60, R63, R65, R66)
  | .stx => Sys2Proof.Machine.execStx s
  | .etx => Sys2Proof.Machine.execEtx s
  | .dle => Sys2Proof.Machine.execDle s
  | .literal value => Sys2Proof.Machine.execLiteral value s
  | .escStx => Sys2Proof.Machine.execEscStx s
  | .escEtx => Sys2Proof.Machine.execEscEtx s
  | .escDle => Sys2Proof.Machine.execEscDle s
  | .escAny xx => Sys2Proof.Machine.execEscAny xx s
  | .frame dst src pid payload => Sys2Proof.Machine.execFrame dst src pid payload s
  -- host commands (R79)
  | .nopReserved => Sys2Proof.Machine.execNopReserved s
  | .crc8Clear => Sys2Proof.Machine.execCrc8Clear s
  | .crc8Update b => Sys2Proof.Machine.execCrc8Update b s
  | .crc8Calc m => Sys2Proof.Machine.execCrc8Calc m s
  | .stuff m => Sys2Proof.Machine.execStuff m s
  | .unstuff w => Sys2Proof.Machine.execUnstuff w s
  | .assemble dst src pid payload => Sys2Proof.Machine.execAssemble dst src pid payload s
  | .encode dst src pid payload => Sys2Proof.Machine.execEncode dst src pid payload s
  | .decode f => Sys2Proof.Machine.execDecode f s
  | .toUint payload offset width => Sys2Proof.Machine.execToUint payload offset width s
  | .toInt payload offset width => Sys2Proof.Machine.execToInt payload offset width s
  | .toText payload offset width substitute => Sys2Proof.Machine.execToText payload offset width substitute s
  | .openT cb => Sys2Proof.Machine.execOpenT cb s
  | .send bytes => Sys2Proof.Machine.execSend bytes s
  | .close => Sys2Proof.Machine.execClose s
  | .linkTx dst src pid payload => Sys2Proof.Machine.execLinkTx dst src pid payload s
  -- internal operations (R78)
  | .crc8Bitstep a => Sys2Proof.Machine.execCrc8Bitstep a s
  | .validate dst src pid payload => Sys2Proof.Machine.execValidate dst src pid payload s
  | .poll => Sys2Proof.Machine.execPoll s
  | .extract => Sys2Proof.Machine.execExtract s
  | .linkRx frame => Sys2Proof.Machine.execLinkRx frame s

end Sys2Proof.Machine
end

