-- ==== Sys2Proof/Machine/Ports.lean ====
section
/-! DEFINITION. The output pins of the signal-level binding (10_state.md R38) as functions of the state: `crc_out`, the
result stream, the event stream, the line side and `cmd_ready`. A data pin is `none` while its valid pin is 0. How a result
is laid out in bytes and when `cmd_ready` is 1 are the model's: DESIGN CHOICE, log 29. -/

namespace Sys2Proof.Machine

/-- `crc_out`, equal to `acc` (R38). -/
def crcOut (s : State) : Byte := s.acc

/-- `n` bytes of a number, the most significant first (R47). -/
def bigEndian (n v : Nat) : Bytes := (bytesOfNat n v).reverse

/-- The byte of a character: its code, or the byte the code page maps (R130, R131). -/
def textByte : TextChar → Byte
  | .ascii c => c
  | .codePage b => b

/-- A value as bytes of the result stream (R38). DESIGN CHOICE, log 29. -/
def valueBytes : Value → Bytes
  | .nothing => []
  | .byte b => [b]
  | .truth b => [if b then 1#8 else 0#8]
  | .bytes s => s
  | .fail => []
  | .packet p => putHeader p.dst p.src p.pid p.payload
  | .noPacket => []
  | .natural n => bigEndian 8 n
  | .integer z => bigEndian 8 (BitVec.ofInt 64 z).toNat
  | .text t => t.map textByte

/-- The value an error carries, as bytes (R188). -/
def carriedBytes : Status → Bytes
  | .widthError n => putNat n
  | .ok | .validationError | .frameError | .transportError _ | .timeoutError | .txQueueFull => []

/-- What an operation returns, as the byte stream of the result port: with `res_ok` = 1 the value, with `res_ok` = 0 the
cause byte and what it carries (R38, R188). -/
def replyBytes (r : Reply) : Bytes :=
  if resOk r then valueBytes r.value else BitVec.ofNat 8 (statusCode r.status) :: carriedBytes r.status

/-- The result stream, nothing while the port holds no result. -/
def resStream (s : State) : Bytes :=
  match s.res with
  | none => []
  | some r => replyBytes r

/-- `res_data`, with `res_valid` (R38). -/
def resData (s : State) : Option Byte := (resStream s)[s.resPut]?

/-- `res_valid` (R38). -/
def resValid (s : State) : Bool := (resData s).isSome

/-- `res_last` (R38). -/
def resLast (s : State) : Bool := s.resPut + 1 == (resStream s).length

/-- `res_ok` of the result the port holds (R38, R188). -/
def resOkPin (s : State) : Option Bool := s.res.map resOk

/-- The event stream: the frame the running callback was given (R38, R190). In the joined block that is the raw frame
`LINK.RX` was given, also one it drops (R162): DESIGN CHOICE, log 29. -/
def evtStream (s : State) : Bytes := s.evt.getD []

/-- `evt_data`, with `evt_valid` (R38). -/
def evtData (s : State) : Option Byte := (evtStream s)[s.evtPut]?

/-- `evt_valid` (R38). -/
def evtValid (s : State) : Bool := (evtData s).isSome

/-- `evt_last` (R38). -/
def evtLast (s : State) : Bool := s.evtPut + 1 == (evtStream s).length

/-- `tx_data`, with `tx_valid`: the next byte of `T.out` for the line (R38). -/
def txData (s : State) : Option Byte := s.tr.outb[s.tr.sent]?

/-- `tx_valid` (R38). -/
def txValid (s : State) : Bool := (txData s).isSome

/-- `cmd_ready` (R38): no call of `CLOSE` or `OPEN` waits for its return and the last result has gone out. DESIGN CHOICE,
log 29. -/
def cmdReady (s : State) : Bool := !s.closing && !s.opening && !resValid s

/-- A stream whose byte `put` is presented moves on at an edge of `clk`. -/
def putNext (stream : Bytes) (put : Nat) : Nat := if put < stream.length then put + 1 else put

end Sys2Proof.Machine
end

