-- ==== Sys2Proof/Machine/Fetch.lean ====
section
/-! DEFINITION. What the next step is: the move at the head of `State.inputs`, decoded where it is a command or a wire
symbol, and the moves that are no operation of the block: edges of the pins, the line, the Transport, reset. -/

namespace Sys2Proof.Machine

/-- An edge of the streaming CRC pins (R38): `crc_clear` wins over `crc_en`. -/
def crcPinEdge (clear en : Bool) (din : Byte) (s : State) : State :=
  if clear then s.withAcc s.par.crcInit else if en then s.withAcc (crcUpdate s.acc din) else s

/-- The Transport's writer puts up to `n` more bytes of `T.out` on the line; with an echo they come back into `T.in`
(R20 d, R164, R212), log 26. That an echo does not step the streaming unstuffer is the model's: DESIGN CHOICE, log 6. -/
def drainOut (n : Nat) (s : State) : State :=
  let moved := (s.tr.outb.drop s.tr.sent).take n
  s.withTr { s.tr with
    sent := s.tr.sent + moved.length, inb := if s.tr.echo then s.tr.inb ++ moved else s.tr.inb }

/-- The output streams at an edge of `clk` (R38): the result stream and the event stream each put out the byte they
present, and with `tx_ready` the line takes the byte of `T.out` that is presented. DESIGN CHOICE, log 29. -/
def clockEdge (txReady : Bool) (s : State) : State :=
  drainOut (if txReady then 1 else 0)
    { s with resPut := putNext (resStream s) s.resPut, evtPut := putNext (evtStream s) s.evtPut }

/-- The line side's input at an edge of `clk` (R38): with `rx_valid` the byte `rx_data` comes in from the wire. -/
def rxPinEdge (valid : Bool) (data : Byte) (s : State) : State := if valid then wireIn data s else s

/-- One edge of `clk` at every port but the command port (R38): the CRC port, the line side, the output streams, and
`evt_ack`, which is the callback's return. Each port reads what it held before the edge; that a byte coming in stands in
`T.in` before one echoed at the same edge is the model's: DESIGN CHOICE, log 29. -/
def portsEdge (p : Pins) (s : State) : State :=
  let t := clockEdge p.txReady (rxPinEdge p.rxValid p.rxData (crcPinEdge p.crcClear p.crcEn p.crcDin s))
  if p.evtAck then callbackReturn t else t

/-- The host opens a medium before `OPEN` (R40, R209): a new Transport, which holds what the environment says, inbound and
outbound (R39, N12). Nothing of an earlier Transport goes out or comes back on it: DESIGN CHOICE, log 4. The bytes it holds
already do not step the streaming unstuffer, which is in no interior of the new line (R23): DESIGN CHOICE, log 6. An
instance that has been opened keeps its Transport (R33). -/
def openMedium (waiting held : Bytes) (echo : Bool) (s : State) : State :=
  if s.run = .unopened then
    (s.withTr { s.tr with isOpen := true, inb := waiting, outb := held, sent := 0, echo := echo }).withUnstuffer
      (.outside, false, [])
  else s

/-- What a write in progress has put out when `rst` strikes inside a `TX` phase: the first `done` bytes of its entry
(R208, U13), log 15. -/
def writtenAtReset (done : Nat) (s : State) : Bytes :=
  if workerReady s && s.phase == .tx then (s.txq.headD []).take done else []

/-- How many bytes a read in progress has taken when `rst` strikes inside an `RX` phase before its first emit: `done` of
those counted; `rx_buf` loses them (R208). DESIGN CHOICE, log 15. -/
def takenAtReset (done : Nat) (s : State) : Nat :=
  if workerReady s && s.phase == .rx && !s.rxRead then min done s.avail else 0

/-- The Transport when `rst` strikes: a bound one is closed, and nothing is flushed (R208), log 15. It is closed also where
the environment lets `T.close()` fail (`fails.close`), a case R208 leaves open: DESIGN CHOICE, log 15. -/
def transportAtReset (done : Nat) (s : State) : Transport :=
  { s.tr with
    isOpen := s.tr.isOpen && !s.tBound, outb := s.tr.outb ++ writtenAtReset done s,
    inb := s.tr.inb.drop (takenAtReset done s) }

/-- `rst` (R206, R208): a `CLOSE` that does not wait, then the reset values, `acc` at the instance's `CRC_INIT` (R39); the
streams of the Transport, the parameters, the moves to come, the observer's records and the environment's draws stay. How far a phase has got when it strikes, `done`, is the move's: DESIGN CHOICE, log 15. A `CLOSE` that waits
for the worker, and an `OPEN` that has not returned, is forgotten, and that call never returns: DESIGN CHOICE, log 15. -/
def resetMove (done : Nat) (s : State) : State :=
  { State.reset with
    acc := s.par.crcInit, tr := transportAtReset done s, par := s.par, hangs := s.hangs, lateOpen := s.lateOpen,
    emits := s.emits, got := s.got, inputs := s.inputs }

/-- The bytes of a delivery that are still to come. -/
def pendingLine (more : Bytes) (s : State) : State :=
  match more with
  | [] => s
  | b :: rest => s.withInputs (.line (b :: rest) :: s.inputs)

/-- The next wire symbol of a delivery. -/
def fetchLine (bytes : Bytes) (s : State) : Fetched :=
  match firstSymbol bytes with
  | none => .event s
  | some (e, more) =>
    match decode s.par.crcInit e with
    | .ok i => .instr i (pendingLine more s)
    | .error err => .malformed err

/-- A whole frame, or, when the bytes are none, the same bytes symbol by symbol. -/
def fetchFrame (bytes : Bytes) (s : State) : Fetched :=
  match decode s.par.crcInit (.frame bytes) with
  | .ok i => .instr i s
  | .error _ => .event (s.withInputs (.line bytes :: s.inputs))

/-- A command at the host's port. -/
def fetchHost (who : Caller) (op : BitVec 4) (args : Bytes) (s : State) : Fetched :=
  match decode s.par.crcInit (.hostCmd op args) with
  | .ok i => .instr i { s with caller := who }
  | .error err => .malformed err

/-- The operand bytes of the command port, with the one on `arg_data` when `arg_valid` is 1 (R38), log 29. -/
def argsAt (p : Pins) (s : State) : Bytes := if p.argValid then s.argIn ++ [p.argData] else s.argIn

/-- An edge of `clk` (R38). While `cmd_valid` and `cmd_ready` are 1 the command port takes an operand byte an edge, and at
`arg_last` the command, `cmd_op`, with all of them; it is the host's and takes effect after the other ports of the edge:
DESIGN CHOICE, log 29. -/
def fetchClk (p : Pins) (s : State) : Fetched :=
  if p.cmdValid && cmdReady s then
    if p.argLast then fetchHost .host p.cmdOp (argsAt p s) { portsEdge p s with argIn := [] }
    else .event { portsEdge p s with argIn := argsAt p s }
  else .event (portsEdge p s)

/-- One move, with the moves after it in the state. -/
def fetchInput (m : Input) (s : State) : Fetched :=
  match m with
  | .host who op args => fetchHost who op args s
  | .line bytes => fetchLine bytes s
  | .frame bytes => fetchFrame bytes s
  | .interior => .event (beginInterior s)
  | .interiorEnd => .event (endInterior s)
  | .clk pins => fetchClk pins s
  | .tick => .event (internalMove s)
  | .cbReturn => .event (callbackReturn s)
  | .cbError => .event (callbackError s)
  | .drain n => .event (drainOut n s)
  | .cbHangs h => .event { s with hangs := h }
  | .openLate late => .event { s with lateOpen := late }
  | .openReturn => .event (openReturn s)
  | .openMedium waiting held echo => .event (openMedium waiting held echo s)
  | .health h => .event (s.withTr { s.tr with fails := h })
  | .rst done => .event (resetMove done s)

/-- What the next step is. -/
def fetch (s : State) : Fetched :=
  match s.inputs with
  | [] => .event (defaultMove s)
  | m :: rest => fetchInput m (s.withInputs rest)

/-- The move that presents an encoding at its port. -/
def inputOf : Encoding → Input
  | .wireByte b => .line [b]
  | .wirePair b0 b1 => .line [b0, b1]
  | .frame bytes => .frame bytes
  | .hostCmd op args => .host .host op args

/-- The state with an encoding as its next move. -/
def placeEncoding (e : Option Encoding) (s : State) : State :=
  match e with
  | none => s
  | some e => s.withInputs (inputOf e :: s.inputs)

end Sys2Proof.Machine
end

