-- ==== Sys2Proof/Machine/Step.lean ====
section
/-! DEFINITION. One step of the machine, and where the host places an instruction to be run next. -/

namespace Sys2Proof.Machine

/-- One step: the next move, and, where it is an operation, the operation (R58). -/
def step (s : State) : Host.Outcome State Fault Refusal :=
  match fetch s with
  | .instr i t => exec i t
  | .event t => .next t
  | .malformed e => .refused (.malformedOperands e)

/-- The state with the table word's encoding presented at its port as the next move (log 2). -/
def State.withFetchWord (s : State) (nbits w : Nat) : State := placeEncoding (tableEncoding nbits w) s

end Sys2Proof.Machine
end

