-- ==== Sys2Proof/Safety.lean ====
section
/-! DEFINITION. The terms claims use: the invariant of the machine, canonical interiors (30_encoding.md R67, R70), runs
of several operations, a command at the pins (10_state.md R38), and the two packets of 30_encoding.md R83. -/

namespace Sys2Proof.Safety

open Sys2Proof.Machine

/-- A candidate frame as `EXTRACT` cuts it: from an `STX` to the first `ETX` after it (R142). -/
def IsCandidate (f : Bytes) : Prop := ∃ m : Bytes, f = Config.stx :: (m ++ [Config.etx]) ∧ Config.etx ∉ m

/-- A canonical interior: every `DLE` starts a pair whose second byte is `FD`, `FB` or `DF`, and there is no raw `STX` or
`ETX` (R67, R100). -/
def canonical : Bytes → Bool
  | [] => true
  | [b] => !isSpecial b
  | b :: c :: rest =>
    if b = Config.dle then (c == 0xFD#8 || c == 0xFB#8 || c == 0xDF#8) && canonical rest
    else !isSpecial b && canonical (c :: rest)

/-- `rx_buf` as `EXTRACT` leaves it (R145): no `STX`, or an `STX` at the front and no `ETX`. -/
def Settled (b : Bytes) : Prop := Config.stx ∉ b ∨ (b.head? = some Config.stx ∧ Config.etx ∉ b)

/-- While the callback runs the worker stands in phase `RX` with the frame on the event port (R152, R190). -/
def CallbackInv (s : State) : Prop :=
  (s.inCb = true → s.run = .running ∧ s.ended = false ∧ s.phase = .rx ∧ s.rxRead = true ∧ s.evt.isSome = true)
    ∧ (s.inCb = false → s.evt = none)

/-- What each state of the life cycle goes with (R29, R30, R136, R150, R187). -/
def LifeInv (s : State) : Prop :=
  (s.run = .unopened → s.txq = [] ∧ s.rxBuf = [] ∧ s.phase = .check ∧ s.stop = false ∧ s.fault = none
      ∧ s.tBound = false ∧ s.ended = false ∧ s.closing = false ∧ s.opening = false ∧ s.cb = none)
    ∧ (s.run = .running → s.fault = none ∧ s.tBound = true ∧ s.cb.isSome = true)
    ∧ (s.run = .closed → s.txq = [] ∧ s.rxBuf = [] ∧ s.stop = true ∧ s.closing = false ∧ s.ended = true
      ∧ s.tBound = false ∧ s.tr.isOpen = false)
    ∧ (s.run = .faulted → s.fault.isSome = true ∧ s.ended = true)
    ∧ (s.run = .running → s.ended = true → s.stop = true)
    ∧ (s.closing = true → s.stop = true)

/-- The capacities, at every instant (R25, R26, R46), and the extraction rule (R145): bytes of a drain wait outside `rx_buf`
only while a live worker stands in its `RX` phase, and only for a full buffer. -/
def BufferInv (s : State) : Prop :=
  (∀ c, s.par.txqCap = some c → s.txq.length ≤ c)
    ∧ (∀ c, s.par.rxBufCap = some c → s.rxBuf.length ≤ c)
    ∧ ((s.phase = .rx ∧ s.rxRead = true) ∨ Settled s.rxBuf)
    ∧ (s.data ≠ [] → s.phase = .rx ∧ s.rxRead = true ∧ s.run = .running ∧ s.par.rxBufCap = some s.rxBuf.length)
    ∧ (s.rxRead = true → s.phase = .rx)

/-- The arbitration rule and the count (R139, R141, R42): phase `TX` only after a count of 0, phase `RX` only after
another, and the bytes counted are still there when they are read. -/
def CountInv (s : State) : Prop :=
  (s.phase = .tx → s.avail = 0)
    ∧ (s.phase = .rx → 0 < s.avail)
    ∧ (s.phase = .rx → s.rxRead = false → s.run = .running → s.avail ≤ s.tr.inb.length)

/-- The records: every emitted frame is a candidate (R146), and the writer is not ahead of `T.out` (R33). -/
def RecordInv (s : State) : Prop := (∀ f ∈ s.emits, IsCandidate f) ∧ s.tr.sent ≤ s.tr.outb.length

/-- The output streams: no more bytes have been put out than there are (R38). -/
def PortInv (s : State) : Prop := s.resPut ≤ (resStream s).length ∧ s.evtPut ≤ (evtStream s).length

/-- The invariant of the machine. -/
def LinkInv (s : State) : Prop := CallbackInv s ∧ LifeInv s ∧ BufferInv s ∧ CountInv s ∧ RecordInv s ∧ PortInv s

/-- The move is a reset. -/
def IsReset : Input → Prop
  | .rst _ => True
  | _ => False

/-- Operations run one after another; the first stop ends the run. -/
def runAll : List Instr → State → Host.Outcome State Fault Refusal
  | [], s => .next s
  | i :: rest, s =>
    match exec i s with
    | .next t => runAll rest t
    | .fault f => .fault f
    | .refused r => .refused r

/-- The command port's pins with a command and, on `arg_data`, an operand byte; every other pin at 0 (R38). -/
def argPins (op : BitVec 4) (b : Option Byte) (last : Bool) : Pins :=
  { Pins.idle with cmdValid := true, cmdOp := op, argValid := b.isSome, argData := b.getD 0#8, argLast := last }

/-- A command at the command port: one operand byte an edge, `arg_last` at the last of them; a command without operand bytes
is one edge without `arg_valid` (R38), log 29. -/
def argEdges (op : BitVec 4) : Bytes → List Input
  | [] => [.clk (argPins op none true)]
  | [b] => [.clk (argPins op (some b) true)]
  | b :: c :: rest => .clk (argPins op (some b) false) :: argEdges op (c :: rest)

/-- The bytes a list of moves has the line deliver, in order. -/
def delivered : List Input → Bytes
  | [] => []
  | .line b :: rest => b ++ delivered rest
  | _ :: rest => delivered rest

/-- A move of the line, of the block itself, or the return of the callback. -/
def IsTraffic : Input → Prop
  | .line _ => True
  | .tick => True
  | .cbReturn => True
  | _ => False

/-- A stream of frames with other bytes between them (46_link_top.md R163): each packet's frame after its gap. -/
def streamOf (init : Byte) : List (Bytes × Packet) → Bytes
  | [] => []
  | (gap, p) :: rest => gap ++ (encodePacket init p.dst.toNat p.src.toNat p.pid.toNat p.payload ++ streamOf init rest)

/-- `DISCOVERY(pid)` (R83): its packet's operands. -/
def discoveryFrame (init : Byte) (pid : Int) : Bytes := encodePacket init 255 0 pid [1#8]

/-- The frame of `RESPONSE(req, slot, bytes)` through `ASSEMBLE` (R83, R177). -/
def responseFrame (init : Byte) (req : Packet) (slot : Byte) (bytes : Bytes) : Bytes := assembleFrame init req.src slot req.pid bytes

end Sys2Proof.Safety
end

