-- ==== Sys2Proof/Certificates/Slice0/Obligations.lean ====
section
/-! DEFINITION. The statements for the provers. Each is read from the numbered rules of spec/ that its entry of
OBLIGATIONS.json cites. -/

open Sys2Proof Sys2Proof.Machine Sys2Proof.Safety

/-! ## Reset -/

/-- R206: the values after reset, of the fresh machine and after the move `rst` alike; `acc` is the instance's `CRC_INIT`,
whose default is 0. -/
def Obligations.ResetLeavesTheFreshValues : Prop :=
  let fresh : State → Prop := fun t =>
    t.acc = t.par.crcInit ∧ t.rxBuf = [] ∧ t.txq = [] ∧ t.phase = .check ∧ t.stop = false ∧ t.run = .unopened
      ∧ t.fault = none ∧ t.inCb = false ∧ t.tBound = false ∧ t.cb = none
  fresh State.reset ∧ State.reset.acc = 0x00#8
    ∧ ∀ (s : State) (k : Nat) (rest : List Input), s.inputs = .rst k :: rest → ∃ t, step s = .next t ∧ fresh t

/-- R207, R208: after reset the block does nothing until the host acts. A reset acts as a `CLOSE` that does not wait; the
streams are not flushed, but of an entry being written a first part may be out, and of a read in progress the first bytes
may be taken. How much that is, that the Transport closes also where `T.close()` fails, and what the observer's records, the
parameters and the environment's draws do, is the model's (log 15), and so is where the machine idles (log 1). -/
def Obligations.ResetIdlesAndKeepsTheStreams : Prop :=
  step State.reset = .next State.reset
    ∧ ∀ (s : State) (k : Nat) (rest : List Input), s.inputs = .rst k :: rest →
      ∃ t, step s = .next t ∧ (s.tBound = true → t.tr.isOpen = false) ∧ t.tr.sent = s.tr.sent
        ∧ t.par = s.par ∧ t.hangs = s.hangs ∧ t.lateOpen = s.lateOpen ∧ t.emits = s.emits ∧ t.got = s.got ∧ t.inputs = rest
        ∧ (t.tr.inb = s.tr.inb
          ∨ (s.phase = .rx ∧ s.rxRead = false ∧ s.run = .running ∧ t.tr.inb = s.tr.inb.drop (min k s.avail)))
        ∧ (t.tr.outb = s.tr.outb
          ∨ (s.phase = .tx ∧ s.run = .running ∧ ∃ e q, s.txq = e :: q ∧ t.tr.outb = s.tr.outb ++ e.take k))

/-! ## The invariant -/

/-- The invariant holds at reset. -/
def Obligations.InvariantHoldsAtReset : Prop := LinkInv State.reset

/-- Every step keeps the invariant. -/
def Obligations.EveryStepKeepsTheInvariant : Prop := ∀ s t : State, LinkInv s → step s = .next t → LinkInv t

/-! ## Encoding and fetching -/

/-- A step runs the decoded instruction: a command, the first symbol of a delivery, or a whole frame at the head of the
moves. Operand bytes that are none are refused by name. At an edge of `clk` with `cmd_valid` and `cmd_ready` the command
port takes an operand byte with `arg_valid`, and with `arg_last` the command with its operand bytes, which runs after the
other ports' edge; at any other edge the other ports alone move (R38). The list of moves, and when a command is taken, is
the model's (log 1, log 20, log 21, log 29). -/
def Obligations.StepRunsTheDecodedOperation : Prop :=
  (∀ (s : State) who op args rest i, s.inputs = .host who op args :: rest →
      decode s.par.crcInit (.hostCmd op args) = .ok i →
      step s = exec i { s with inputs := rest, caller := who })
    ∧ (∀ (s : State) who op args rest e, s.inputs = .host who op args :: rest →
      decode s.par.crcInit (.hostCmd op args) = .error e →
      step s = .refused (.malformedOperands e))
    ∧ (∀ (s : State) bytes rest e more i, s.inputs = .line bytes :: rest → firstSymbol bytes = some (e, more) →
      decode s.par.crcInit e = .ok i →
      step s = exec i { s with inputs := if more = [] then rest else .line more :: rest })
    ∧ (∀ (s : State) bytes rest i, s.inputs = .frame bytes :: rest → decode s.par.crcInit (.frame bytes) = .ok i →
      step s = exec i { s with inputs := rest })
    ∧ ∀ (s : State) p rest, s.inputs = .clk p :: rest →
      let edge := portsEdge p { s with inputs := rest }
      let args := s.argIn ++ (if p.argValid = true then [p.argData] else [])
      (p.cmdValid = false ∨ cmdReady s = false → step s = .next edge)
        ∧ (p.cmdValid = true → cmdReady s = true →
          (p.argLast = false → step s = .next { edge with argIn := args })
          ∧ (∀ i, p.argLast = true → decode s.par.crcInit (.hostCmd p.cmdOp args) = .ok i →
            step s = exec i { edge with argIn := [], caller := .host })
          ∧ ∀ e, p.argLast = true → decode s.par.crcInit (.hostCmd p.cmdOp args) = .error e →
            step s = .refused (.malformedOperands e))

/-- Decoding the encoding of a well-formed operation gives it back, every operand at every value. The operand bytes of a
command are the model's layout (log 8). It holds for every `CRC_INIT` of the instance. -/
def Obligations.DecodeEncodeRoundTrip : Prop :=
  ∀ (init : Byte) (i : Instr) (e : Encoding), i.wf = true → encode init i = some e → decode init e = .ok i

/-- The decoder gives an operation of the kind of row its encoding is, and never an internal one; exactly the internal
rows have no encoding (R79, R80). And a word of the opcode table is read by its row's format: an 8-bit wire byte, a wire
pair with the first wire byte in bits 15 to 8, a 4-bit command code. The operand bytes after a code are the model's
(log 8). -/
def Obligations.DecodingKeepsTheFormat : Prop :=
  (∀ init e i, decode init e = .ok i → i.format = e.format)
    ∧ (∀ init i, encode init i = none ↔ i.format = .internal)
    ∧ (∀ fmt n w e, rowEncoding fmt n w = some e → e.format = fmt)
    ∧ (∀ (n : Nat) (b : Byte), rowEncoding .wireByte n b.toNat = some (.wireByte b))
    ∧ (∀ (n : Nat) (b0 b1 : Byte), rowEncoding .wirePair n (256 * b0.toNat + b1.toNat) = some (.wirePair b0 b1))
    ∧ (∀ (n : Nat) (op : BitVec 4), ∃ args, rowEncoding .hostCmd n op.toNat = some (.hostCmd op args))
    ∧ ∀ n w, rowEncoding .internal n w = none

/-- R79: the sixteen codes, the reserved one doing nothing and returning `ok`, and the operations without a code. The
operand bytes after a code are the model's layout (log 8). -/
def Obligations.HostCommandCodes : Prop :=
  ∀ init : Byte, decode init (.hostCmd 0x0#4 []) = .ok .nopReserved
    ∧ decode init (.hostCmd 0x1#4 []) = .ok .crc8Clear
    ∧ (∀ b, decode init (.hostCmd 0x2#4 [b]) = .ok (.crc8Update b))
    ∧ (∀ m, decode init (.hostCmd 0x3#4 m) = .ok (.crc8Calc m))
    ∧ (∀ m, decode init (.hostCmd 0x4#4 m) = .ok (.stuff m))
    ∧ (∀ w, decode init (.hostCmd 0x5#4 w) = .ok (.unstuff w))
    ∧ (∀ d s p y, decode init (.hostCmd 0x6#4 (putHeader d s p y)) = .ok (.assemble d s p y))
    ∧ (∀ (d s : Byte) (p : Pid) y,
      decode init (.hostCmd 0x7#4 (putHeader d s p y)) = .ok (.encode d.toNat s.toNat p.toNat y))
    ∧ (∀ f, decode init (.hostCmd 0x8#4 f) = .ok (.decode f))
    ∧ (∀ y, decode init (.hostCmd 0x9#4 (0#8 :: y)) = .ok (.toUint y none none))
    ∧ (∀ y, decode init (.hostCmd 0xA#4 (0#8 :: y)) = .ok (.toInt y none none))
    ∧ (∀ y, decode init (.hostCmd 0xB#4 (0#8 :: y)) = .ok (.toText y none none false))
    ∧ decode init (.hostCmd 0xC#4 [0#8]) = .ok (.openT .host)
    ∧ (∀ m, decode init (.hostCmd 0xD#4 m) = .ok (.send m))
    ∧ decode init (.hostCmd 0xE#4 []) = .ok .close
    ∧ (∀ (d s : Byte) (p : Pid) y,
      decode init (.hostCmd 0xF#4 (putHeader d s p y)) = .ok (.linkTx d.toNat s.toNat p.toNat y))
    ∧ (∀ s : State, exec .nopReserved s = .next { s with resPut := 0, res := some ⟨.ok, .nothing⟩ })
    ∧ ∀ a d s p y f, encode init (.crc8Bitstep a) = none ∧ encode init (.validate d s p y) = none
      ∧ encode init .poll = none ∧ encode init .extract = none ∧ encode init (.linkRx f) = none

/-- Words written out from the encodings of R60, R63, R65, R66 and R79 decode to what they stand for; the frame with
the default `CRC_INIT`. -/
def Obligations.WrittenOutWordsDecode : Prop :=
  ∀ init : Byte, decode init (.wireByte 0b00000010#8) = .ok .stx
    ∧ decode init (.wireByte 0b00100000#8) = .ok .dle
    ∧ decode init (.wireByte 0b01000001#8) = .ok (.literal 0x41#8)
    ∧ decode init (.wirePair 0b00100000#8 0b11111101#8) = .ok .escStx
    ∧ decode init (.wirePair 0b00100000#8 0b10111110#8) = .ok (.escAny 0xBE#8)
    ∧ decode 0x00#8 (.frame [0x02#8, 0xFF#8, 0x00#8, 0xFC#8, 0x00#8, 0x01#8, 0xA8#8, 0x04#8])
      = .ok (.frame 255#8 0#8 0xFC00#16 [1#8])
    ∧ decode init (.hostCmd 0b1111#4 [0xFF#8, 0x00#8, 0xFC#8, 0x00#8, 0x01#8]) = .ok (.linkTx 255 0 0xFC00 [1#8])

/-! ## The wire -/

/-- R63, R101, R23: a wire byte of each class enters `T.in`. In an interior the streaming unstuffer takes it: after a prefix
its complement is data, a `DLE` sets the flag, any other byte is data as it is. Outside, an `STX` begins a candidate's
interior with the flag 0 and nothing output, and nothing else is taken; the first `ETX` ends it, and is data only in an
interior given by itself. Nothing else changes. That one byte steps both streams is the model's choice (log 6). -/
def Obligations.WireBytesEnterTheStreams : Prop :=
  ∀ s : State,
    let into : Byte → Interior → Bool → Bytes → State := fun b a e o =>
      { s with tr := { s.tr with inb := s.tr.inb ++ [b] }, uat := a, uesc := e, uout := o }
    (s.uat = .outside →
      exec .stx s = .next (into 0x02#8 .framed false [])
        ∧ exec .etx s = .next (into 0x04#8 .outside s.uesc s.uout)
        ∧ exec .dle s = .next (into 0x20#8 .outside s.uesc s.uout)
        ∧ ∀ v, isSpecial v = false → exec (.literal v) s = .next (into v .outside s.uesc s.uout))
    ∧ (s.uat ≠ .outside → s.uesc = false →
      exec .stx s = .next (into 0x02#8 s.uat false (s.uout ++ [0x02#8]))
        ∧ exec .dle s = .next (into 0x20#8 s.uat true s.uout)
        ∧ ∀ v, isSpecial v = false → exec (.literal v) s = .next (into v s.uat false (s.uout ++ [v])))
    ∧ (s.uat ≠ .outside → s.uesc = true →
      exec .stx s = .next (into 0x02#8 s.uat false (s.uout ++ [0xFD#8]))
        ∧ exec .dle s = .next (into 0x20#8 s.uat false (s.uout ++ [0xDF#8]))
        ∧ ∀ v, isSpecial v = false → exec (.literal v) s = .next (into v s.uat false (s.uout ++ [~~~v])))
    ∧ (s.uat = .framed → exec .etx s = .next (into 0x04#8 .outside s.uesc s.uout))
    ∧ (s.uat = .given → s.uesc = false → exec .etx s = .next (into 0x04#8 .given false (s.uout ++ [0x04#8])))
    ∧ (s.uat = .given → s.uesc = true → exec .etx s = .next (into 0x04#8 .given false (s.uout ++ [0xFB#8])))

/-- R66: in an interior a wire pair `20 xx` yields the one body byte `~xx`, for every `xx`, and the three stuffing pairs
yield `02`, `04` and `20`; both bytes enter `T.in`. After an unpaired prefix the `20` is the second byte of that pair. In a
candidate on the line a prefix hides no `ETX` (R68): `20 04` ends it there, on a flag left set unless the `20` was paired.
Outside an interior no pair is taken, and `20 02` begins a candidate. That the pair steps both streams is the model's choice
(log 6). -/
def Obligations.WirePairsYieldOneBodyByte : Prop :=
  ∀ s : State,
    let into : Byte → Interior → Bool → Bytes → State := fun xx a e o =>
      { s with tr := { s.tr with inb := s.tr.inb ++ [0x20#8, xx] }, uat := a, uesc := e, uout := o }
    (s.uat ≠ .outside → s.uesc = false →
      (∀ xx, s.uat = .given ∨ xx ≠ 0x04#8 → exec (.escAny xx) s = .next (into xx s.uat false (s.uout ++ [~~~xx])))
        ∧ exec .escStx s = .next (into 0xFD#8 s.uat false (s.uout ++ [0x02#8]))
        ∧ exec .escEtx s = .next (into 0xFB#8 s.uat false (s.uout ++ [0x04#8]))
        ∧ exec .escDle s = .next (into 0xDF#8 s.uat false (s.uout ++ [0x20#8])))
    ∧ (s.uat ≠ .outside → s.uesc = true →
      (∀ xx, s.uat = .given ∨ xx ≠ 0x04#8 → exec (.escAny xx) s
          = .next (if xx = 0x20#8 then into xx s.uat true (s.uout ++ [0xDF#8])
            else into xx s.uat false (s.uout ++ [0xDF#8, xx])))
        ∧ exec .escStx s = .next (into 0xFD#8 s.uat false (s.uout ++ [0xDF#8, 0xFD#8]))
        ∧ exec .escEtx s = .next (into 0xFB#8 s.uat false (s.uout ++ [0xDF#8, 0xFB#8]))
        ∧ exec .escDle s = .next (into 0xDF#8 s.uat false (s.uout ++ [0xDF#8, 0xDF#8])))
    ∧ (s.uat = .framed → exec (.escAny 0x04#8) s
        = .next (if s.uesc = true then into 0x04#8 .outside false (s.uout ++ [0xDF#8])
          else into 0x04#8 .outside true s.uout))
    ∧ (s.uat = .outside →
      (∀ xx, exec (.escAny xx) s
          = .next (if xx = 0x02#8 then into xx .framed false [] else into xx .outside s.uesc s.uout))
        ∧ exec .escStx s = .next (into 0xFD#8 .outside s.uesc s.uout)
        ∧ exec .escEtx s = .next (into 0xFB#8 .outside s.uesc s.uout)
        ∧ exec .escDle s = .next (into 0xDF#8 .outside s.uesc s.uout))

/-- R60, R101: a whole frame puts its wire bytes into `T.in`; on a line that is in no interior it leaves its body, CRC
included, in the unstuffer, whatever was there before (R23). After an unfinished candidate its `STX` is data and its `ETX`
ends that candidate (R70 b, R217); in an interior given by itself all its bytes are data. Nothing else changes. That a byte
steps both streams is the model's choice (log 6). -/
def Obligations.FrameRowCarriesItsBody : Prop :=
  ∀ (s : State) (d sr : Byte) (p : Pid) (y : Bytes),
    let body := [d, sr, BitVec.ofNat 8 (p.toNat / 256), BitVec.ofNat 8 (p.toNat % 256)] ++ y
    let f := assembleFrame s.par.crcInit d sr p y
    let into : Interior → Bool × Bytes → State := fun a u =>
      { s with tr := { s.tr with inb := s.tr.inb ++ f }, uat := a, uesc := u.1, uout := u.2 }
    (s.uat = .outside →
      exec (.frame d sr p y) s = .next (into .outside (false, body ++ [crcCalc s.par.crcInit body])))
    ∧ (s.uat = .framed →
      exec (.frame d sr p y) s = .next (into .outside (f.dropLast.foldl unstuffStep (s.uesc, s.uout))))
    ∧ (s.uat = .given → exec (.frame d sr p y) s = .next (into .given (f.foldl unstuffStep (s.uesc, s.uout))))

/-- R101, R23: the streaming unstuffer gives what `UNSTUFF` gives, `fail` for a flag left set: for any bytes given by
themselves, and on the line for a candidate frame, whatever the unstuffer held before, so nothing is carried from one
candidate to the next. The stuffer outputs one or two wire bytes per body byte. Which bytes of a line are a candidate's
interior (an `STX` outside begins it, the first `ETX` ends it), that the line's bytes step the unstuffer, and how an interior
given by itself begins, is the model's choice (log 6). -/
def Obligations.StreamingUnstufferAgreesWithUnstuff : Prop :=
  (∀ (w : Bytes) (s : State), unstufferResult (w.foldl (fun t c => wireIn c t) (beginInterior s)) = unstuffBytes w)
    ∧ (∀ (w : Bytes) (s : State), s.uat = .outside → 0x04#8 ∉ w →
      let t := ([0x02#8] ++ w ++ [0x04#8]).foldl (fun t c => wireIn c t) s
      t.uat = .outside ∧ unstufferResult t = unstuffBytes w)
    ∧ (∀ (s : State) (c : Byte), s.uat = .given ∨ (s.uat = .framed ∧ c ≠ 0x04#8) →
      (wireIn c s).uesc = (!s.uesc && c == 0x20#8)
      ∧ (wireIn c s).uout = s.uout ++ (if s.uesc = true then [~~~c] else if c = 0x20#8 then [] else [c]))
    ∧ (∀ s : State, (beginInterior s).uesc = false) ∧ State.reset.uat = .outside ∧ State.reset.uesc = false
    ∧ ∀ (b : Byte) (m : Bytes), stuffBytes (b :: m) = stuffBytes [b] ++ stuffBytes m
      ∧ ((stuffBytes [b]).length = 1 ∨ (stuffBytes [b]).length = 2)

/-- R20, R41: however many bytes the line delivers, they all enter `T.in` in order, and nothing but the unstuffer
changes besides, byte after byte. That a delivery is a move, and that its bytes step the unstuffer, is the model's choice
(log 1, log 6). -/
def Obligations.LineDeliversEveryByte : Prop :=
  ∀ (bytes : Bytes) (s : State) (rest : List Input), s.inputs = .line bytes :: rest →
    let u := bytes.foldl wireStep (s.uat, s.uesc, s.uout)
    ∃ k, Sys2Proof.core.run k s = .next { s with
      inputs := rest, tr := { s.tr with inb := s.tr.inb ++ bytes }, uat := u.1, uesc := u.2.1, uout := u.2.2 }

/-! ## CRC-8 -/

/-- R86: one bit step, in unbounded arithmetic narrowed to 8 bits; it has no code. -/
def Obligations.BitStepShiftsAndXors : Prop :=
  ∀ (a : Byte) (s : State), exec (.crc8Bitstep a) s = .next { s with resPut := 0, res := some ⟨.ok, .byte (BitVec.ofNat 8
    (if 128 ≤ a.toNat then ((a.toNat <<< 1) ^^^ 0x07) &&& 0xFF else (a.toNat <<< 1) &&& 0xFF))⟩ }
    ∧ encode s.par.crcInit (.crc8Bitstep a) = none

/-- R87: the accumulator is cleared to the instance's `CRC_INIT`, whose default is 0; clearing twice is clearing once. -/
def Obligations.ClearSetsTheAccumulator : Prop :=
  (∀ s : State, exec .crc8Clear s = .next { s with acc := s.par.crcInit, resPut := 0, res := some ⟨.ok, .nothing⟩ })
    ∧ State.reset.par.crcInit = 0x00#8
    ∧ ∀ s : State, runAll [.crc8Clear, .crc8Clear] s = exec .crc8Clear s

/-- R88: XOR the byte in, then eight bit steps; the new `acc` depends on `acc xor b` only. -/
def Obligations.UpdateRunsEightBitSteps : Prop :=
  (∀ (b : Byte) (s : State), exec (.crc8Update b) s
      = .next { s with acc := bitStep^[8] (s.acc ^^^ b), resPut := 0, res := some ⟨.ok, .nothing⟩ })
    ∧ (∀ init b : Byte, ∃ args, encode init (.crc8Update b) = some (.hostCmd 0x2#4 args))
    ∧ ∀ (p q : Byte) (s : State),
      exec (.crc8Update q) { s with acc := p } = exec (.crc8Update (p ^^^ q)) { s with acc := 0x00#8 }

/-- R89: `CRC8.CALC` returns what clearing and feeding the bytes leaves in `acc`, and does not touch `acc` itself. -/
def Obligations.CalcIsClearThenUpdates : Prop :=
  ∀ (m : Bytes) (s : State), (∃ args, encode s.par.crcInit (.crc8Calc m) = some (.hostCmd 0x3#4 args)) ∧ ∃ c : Byte,
    exec (.crc8Calc m) s = .next { s with resPut := 0, res := some ⟨.ok, .byte c⟩ }
      ∧ c = m.foldl (fun a b => bitStep^[8] (a ^^^ b)) s.par.crcInit
      ∧ ∀ u : State, u.par.crcInit = s.par.crcInit → runAll (.crc8Clear :: m.map .crc8Update) u
        = .next { u with acc := c, resPut := 0, res := some ⟨.ok, .nothing⟩ }

/-- R91: the table, row by row, that it is a bijection, and that it is linear. -/
def Obligations.UpdateFollowsTheTable : Prop :=
  let rows : List Nat :=
    [0x00070E091C1B1215383F363124232A2D, 0x70777E796C6B6265484F464154535A5D, 0xE0E7EEE9FCFBF2F5D8DFD6D1C4C3CACD,
      0x90979E998C8B8285A8AFA6A1B4B3BABD] ++
    [0xC7C0C9CEDBDCD5D2FFF8F1F6E3E4EDEA, 0xB7B0B9BEABACA5A28F88818693949D9A, 0x2720292E3B3C35321F18111603040D0A,
      0x5750595E4B4C45426F68616673747D7A] ++
    [0x898E878095929B9CB1B6BFB8ADAAA3A4, 0xF9FEF7F0E5E2EBECC1C6CFC8DDDAD3D4, 0x696E676075727B7C51565F584D4A4344,
      0x191E171005020B0C21262F283D3A3334] ++
    [0x4E49404752555C5B7671787F6A6D6463, 0x3E39303722252C2B0601080F1A1D1413, 0xAEA9A0A7B2B5BCBB9691989F8A8D8483,
      0xDED9D0D7C2C5CCCBE6E1E8EFFAFDF4F3]
  let T : Byte → Byte := fun i => BitVec.ofNat 8 (rows.getD (i.toNat / 16) 0 >>> (8 * (15 - i.toNat % 16)))
  (∀ (b : Byte) (s : State), exec (.crc8Update b) s
      = .next { s with acc := T (s.acc ^^^ b), resPut := 0, res := some ⟨.ok, .nothing⟩ })
    ∧ Function.Bijective T ∧ ∀ i j : Byte, T (i ^^^ j) = T i ^^^ T j

/-- R90 (a) to (d): linearity, zero prefix, residue, the all-zero sequence, with the default `CRC_INIT` of 0. -/
def Obligations.CrcIsLinearWithZeroResidue : Prop :=
  (∀ m n : Bytes, m.length = n.length →
      crcCalc 0x00#8 (List.zipWith (· ^^^ ·) m n) = crcCalc 0x00#8 m ^^^ crcCalc 0x00#8 n)
    ∧ (∀ (k : Nat) (m : Bytes), crcCalc 0x00#8 (List.replicate k 0x00#8 ++ m) = crcCalc 0x00#8 m)
    ∧ (∀ m : Bytes, crcCalc 0x00#8 (m ++ [crcCalc 0x00#8 m]) = 0x00#8)
    ∧ ∀ k : Nat, crcCalc 0x00#8 (List.replicate k 0x00#8) = 0x00#8

/-- R90 (e): a change confined to 8 consecutive bits changes the CRC: inside one byte, or across two neighbouring bytes,
where the window of 8 bits at bit offset `k` holds the change `x`. -/
def Obligations.CrcDetectsEveryShortBurst : Prop :=
  (∀ (init : Byte) (m n : Bytes) (a x : Byte), x ≠ 0#8 →
      crcCalc init (m ++ [a ^^^ x] ++ n) ≠ crcCalc init (m ++ [a] ++ n))
    ∧ ∀ (init : Byte) (m n : Bytes) (a b x : Byte) (k : Nat), x ≠ 0#8 → k ≤ 8 →
      let w : BitVec 16 := (x.setWidth 16) <<< k
      crcCalc init (m ++ [a ^^^ (w >>> 8).setWidth 8, b ^^^ w.setWidth 8] ++ n) ≠ crcCalc init (m ++ [a, b] ++ n)

/-- R38: the pins. An edge of `clk` drives every port at once. On the CRC port `crc_clear` wins over `crc_en`, and `crc_out`
is `acc`. With `rx_valid` a byte enters `T.in`, and the streaming unstuffer (log 6). The streams move on by a byte: the result,
the event's frame and, with `tx_ready`, `T.out` to the line. `evt_ack` is the callback's return. No other state changes. A
command comes as its operand bytes, one an edge up to `arg_last`, and then runs. A result comes out whole, its bytes in
order, `res_last` at the last of them and `res_ok` telling `ok` from an error, whose first byte is its cause. The moves, the
layout of operands and results and when `cmd_ready` is 1 are the model's (log 1, log 8, log 29). -/
def Obligations.PinsFollowTheBinding : Prop :=
  (∀ (s : State) (p : Pins),
      let returns := p.evtAck = true ∧ s.inCb = true
      let u := if p.rxValid = true then wireStep (s.uat, s.uesc, s.uout) p.rxData else (s.uat, s.uesc, s.uout)
      portsEdge p s = { s with
        acc := if p.crcClear = true then s.par.crcInit
          else if p.crcEn = true then bitStep^[8] (s.acc ^^^ p.crcDin) else s.acc,
        uat := u.1, uesc := u.2.1, uout := u.2.2,
        tr := { s.tr with
          inb := s.tr.inb ++ (if p.rxValid = true then [p.rxData] else [])
            ++ (if p.txReady = true ∧ s.tr.echo = true then (txData s).toList else []),
          sent := if p.txReady = true ∧ txValid s = true then s.tr.sent + 1 else s.tr.sent },
        resPut := if resValid s = true then s.resPut + 1 else s.resPut,
        evtPut := if returns then 0 else if evtValid s = true then s.evtPut + 1 else s.evtPut,
        inCb := if returns then false else s.inCb,
        evt := if returns then none else s.evt })
    ∧ (∀ (s : State) (p : Pins) (rest : List Input), s.inputs = .clk p :: rest → p.cmdValid = false ∨ cmdReady s = false →
      step s = .next (portsEdge p { s with inputs := rest }))
    ∧ (∀ s : State, crcOut s = s.acc)
    ∧ (∀ (s : State) (op : BitVec 4) (args : Bytes) (i : Instr) (rest : List Input),
      s.inputs = argEdges op args ++ rest → s.argIn = [] → cmdReady s = true → evtValid s = false →
      decode s.par.crcInit (.hostCmd op args) = .ok i →
      Sys2Proof.core.run (argEdges op args).length s = exec i { s with inputs := rest, caller := .host })
    ∧ (∀ (s : State) (r : Reply) (k : Nat), s.res = some r → s.resPut = 0 → k ≤ (replyBytes r).length →
      ∃ t, Sys2Proof.core.run k { s with inputs := List.replicate k (.clk Pins.idle) } = .next t ∧ t.res = some r
        ∧ resData t = (replyBytes r)[k]? ∧ (resLast t = true ↔ k + 1 = (replyBytes r).length)
        ∧ (resValid t = false ↔ k = (replyBytes r).length))
    ∧ (∀ (s : State) (v : Value), (s.res = some ⟨.ok, v⟩ → resOkPin s = some true)
      ∧ ∀ st, st ≠ .ok → s.res = some ⟨st, v⟩ → resOkPin s = some false
        ∧ (resStream s).head? = some (BitVec.ofNat 8 (statusCode st)))
    ∧ ∀ s : State, cmdReady s = true ↔ s.closing = false ∧ s.opening = false ∧ (resStream s).length ≤ s.resPut

/-! ## Stuffing -/

/-- R96: every special byte becomes `20` and its complement, every other byte itself. -/
def Obligations.StuffEscapesTheSpecialBytes : Prop :=
  ∀ (m : Bytes) (s : State), exec (.stuff m) s = .next { s with resPut := 0, res := some ⟨.ok, .bytes
    (m.flatMap fun b => if b = 0x02#8 ∨ b = 0x04#8 ∨ b = 0x20#8 then [0x20#8, ~~~b] else [b])⟩ }
    ∧ ∃ args, encode s.par.crcInit (.stuff m) = some (.hostCmd 0x4#4 args)

/-- R97: length, no delimiter in the output, what follows a `20`, the last byte, concatenation. -/
def Obligations.StuffedBytesAreCanonical : Prop :=
  ∀ m n : Bytes,
    (stuffBytes m).length = m.length + m.countP isSpecial
      ∧ m.length ≤ (stuffBytes m).length ∧ (stuffBytes m).length ≤ 2 * m.length
      ∧ 0x02#8 ∉ stuffBytes m ∧ 0x04#8 ∉ stuffBytes m
      ∧ (∀ a z : Bytes, stuffBytes m = a ++ 0x20#8 :: z →
        z.head? = some 0xFD#8 ∨ z.head? = some 0xFB#8 ∨ z.head? = some 0xDF#8)
      ∧ (stuffBytes m).getLast? ≠ some 0x20#8
      ∧ stuffBytes (m ++ n) = stuffBytes m ++ stuffBytes n

/-- R98: `UNSTUFF`, by the equations of its scan. `fail` is a result; nothing else changes. -/
def Obligations.UnstuffScansPairs : Prop :=
  ∃ r : Bytes → Option Bytes,
    r [] = some [] ∧ r [0x20#8] = none
      ∧ (∀ c w, r (0x20#8 :: c :: w) = (r w).map (fun o => ~~~c :: o))
      ∧ (∀ b w, b ≠ 0x20#8 → r (b :: w) = (r w).map (fun o => b :: o))
      ∧ ∀ (w : Bytes) (s : State),
        (∃ args, encode s.par.crcInit (.unstuff w) = some (.hostCmd 0x5#4 args))
          ∧ (r w = none → exec (.unstuff w) s = .next { s with resPut := 0, res := some ⟨.frameError, .fail⟩ })
          ∧ ∀ u, r w = some u → exec (.unstuff w) s = .next { s with resPut := 0, res := some ⟨.ok, .bytes u⟩ }

/-- R100: unstuffing undoes stuffing; stuffing undoes unstuffing exactly on canonical interiors; unstuffing is not
injective. And the bounds of R99 on the length of a result. -/
def Obligations.UnstuffInvertsStuff : Prop :=
  (∀ m : Bytes, unstuffBytes (stuffBytes m) = some m)
    ∧ (∀ w u : Bytes, unstuffBytes w = some u →
      (stuffBytes u = w ↔ canonical w = true) ∧ u.length ≤ w.length ∧ w.length ≤ 2 * u.length)
    ∧ unstuffBytes [0x41#8] = some [0x41#8] ∧ unstuffBytes [0x20#8, 0xBE#8] = some [0x41#8]

/-! ## Packet encode -/

/-- R104: the range tests; the operation has no code. -/
def Obligations.ValidateTestsTheRanges : Prop :=
  ∀ (d sr p : Int) (y : Bytes) (s : State), exec (.validate d sr p y) s = .next { s with resPut := 0, res := some ⟨.ok, .truth
    (decide (1 ≤ d ∧ d ≤ 255 ∧ 0 ≤ sr ∧ sr ≤ 255 ∧ d ≠ sr ∧ 1 ≤ p ∧ p ≤ 65535 ∧ 1 ≤ y.length ∧ y.length ≤ 35))⟩ }
    ∧ encode s.par.crcInit (.validate d sr p y) = none

/-- R105: body, CRC over the bytes assembled so far, stuffing of the whole, delimiters. -/
def Obligations.AssembleBuildsTheFrame : Prop :=
  ∀ (d sr : Byte) (p : Pid) (y : Bytes) (s : State),
    let head := [d, sr, BitVec.ofNat 8 ((p.toNat >>> 8) &&& 0xFF), BitVec.ofNat 8 (p.toNat &&& 0xFF)] ++ y
    let body := head ++ [head.foldl (fun a b => bitStep^[8] (a ^^^ b)) s.par.crcInit]
    exec (.assemble d sr p y) s = .next { s with resPut := 0, res := some ⟨.ok, .bytes ([0x02#8]
      ++ body.flatMap (fun b => if b = 0x02#8 ∨ b = 0x04#8 ∨ b = 0x20#8 then [0x20#8, ~~~b] else [b])
      ++ [0x04#8])⟩ }
      ∧ ∃ args, encode s.par.crcInit (.assemble d sr p y) = some (.hostCmd 0x6#4 args)

/-- R107: a valid packet gives the frame of `ASSEMBLE`, any other the empty sequence and nothing else. -/
def Obligations.EncodeRefusesOrAssembles : Prop :=
  (∀ (d sr : Byte) (p : Pid) (y : Bytes) (s : State),
      d ≠ 0#8 → d ≠ sr → p ≠ 0#16 → 1 ≤ y.length → y.length ≤ 35 →
      ∃ f : Bytes, exec (.assemble d sr p y) s = .next { s with resPut := 0, res := some ⟨.ok, .bytes f⟩ }
        ∧ exec (.encode d.toNat sr.toNat p.toNat y) s = .next { s with resPut := 0, res := some ⟨.ok, .bytes f⟩ })
    ∧ (∀ (init : Byte) (d sr p : Int) (y : Bytes), ∃ args, encode init (.encode d sr p y) = some (.hostCmd 0x7#4 args))
    ∧ ∀ (d sr p : Int) (y : Bytes) (s : State),
      ¬(1 ≤ d ∧ d ≤ 255 ∧ 0 ≤ sr ∧ sr ≤ 255 ∧ d ≠ sr ∧ 1 ≤ p ∧ p ≤ 65535 ∧ 1 ≤ y.length ∧ y.length ≤ 35) →
      exec (.encode d sr p y) s = .next { s with resPut := 0, res := some ⟨.validationError, .bytes []⟩ }

/-- R108, R109: the length of a successful result, its shape, and that the first `04` in it is its end. -/
def Obligations.EncodedFrameHasItsShape : Prop :=
  ∀ (init : Byte) (d sr p : Int) (y : Bytes), validatePacket d sr p y = true →
    let e := (frameBody init (BitVec.ofInt 8 d) (BitVec.ofInt 8 sr) (BitVec.ofInt 16 p) y).countP isSpecial
    (encodePacket init d sr p y).length = 7 + y.length + e
      ∧ 8 ≤ (encodePacket init d sr p y).length ∧ (encodePacket init d sr p y).length ≤ 82
      ∧ (e = 0 → (encodePacket init d sr p y).length ≤ 42)
      ∧ ∃ w : Bytes, encodePacket init d sr p y = 0x02#8 :: (w ++ [0x04#8]) ∧ 0x02#8 ∉ w ∧ 0x04#8 ∉ w
        ∧ ∀ a z : Bytes, w = a ++ 0x20#8 :: z →
          z.head? = some 0xFD#8 ∨ z.head? = some 0xFB#8 ∨ z.head? = some 0xDF#8

/-- R110, R112: decoding gives back every valid packet from `ENCODE`, and from `ASSEMBLE` every packet whose frame has 8
bytes (one of 7 bytes is refused); so two different valid packets give different frames. -/
def Obligations.EncodeDecodeRoundTrip : Prop :=
  ∀ init : Byte, (∀ (d sr p : Int) (y : Bytes), validatePacket d sr p y = true →
      ∃ q : Packet, decodeFrame init (encodePacket init d sr p y) = some q
        ∧ (q.dst.toNat : Int) = d ∧ (q.src.toNat : Int) = sr ∧ (q.pid.toNat : Int) = p ∧ q.payload = y)
    ∧ (∀ (d sr : Byte) (p : Pid) (y : Bytes), (1 ≤ y.length ∨ ∃ b ∈ frameBody init d sr p y, isSpecial b = true) →
      decodeFrame init (assembleFrame init d sr p y) = some ⟨d, sr, p, y⟩)
    ∧ (∀ (d sr : Byte) (p : Pid), (∀ b ∈ frameBody init d sr p [], isSpecial b = false) →
      decodeFrame init (assembleFrame init d sr p []) = none)
    ∧ ∀ (d sr p : Int) (y : Bytes) (d' sr' p' : Int) (y' : Bytes),
      validatePacket d sr p y = true → validatePacket d' sr' p' y' = true →
      encodePacket init d sr p y = encodePacket init d' sr' p' y' → d = d' ∧ sr = sr' ∧ p = p' ∧ y = y'

/-- R111: re-encoding a decoded valid packet decodes to it again; the bytes agree exactly for a canonical interior, and a
decoded packet that fails `VALIDATE` re-encodes to nothing. -/
def Obligations.ReencodingKeepsThePacket : Prop :=
  ∀ (init : Byte) (f : Bytes) (q : Packet), decodeFrame init f = some q →
    let again := encodePacket init q.dst.toNat q.src.toNat q.pid.toNat q.payload
    (validatePacket q.dst.toNat q.src.toNat q.pid.toNat q.payload = true →
      decodeFrame init again = some q ∧ (again = f ↔ canonical (interior f) = true))
    ∧ (validatePacket q.dst.toNat q.src.toNat q.pid.toNat q.payload = false → again = [])

/-- R220, C4: no frame to the controller leaves `ENCODE`; `ASSEMBLE` makes the response to a request of the controller,
and it decodes. A discovery request is encoded. -/
def Obligations.ResponsesNeedAssemble : Prop :=
  ∀ init : Byte, (∀ (sr p : Int) (y : Bytes), encodePacket init 0 sr p y = [])
    ∧ (∀ (req : Packet) (slot : Byte) (y : Bytes), req.src = 0#8 → 1 ≤ y.length →
      decodeFrame init (responseFrame init req slot y) = some ⟨0#8, slot, req.pid, y⟩)
    ∧ ∀ p : Int, 1 ≤ p → p ≤ 65535 →
      decodeFrame init (discoveryFrame init p) = some ⟨255#8, 0#8, BitVec.ofInt 16 p, [1#8]⟩

/-! ## Packet decode -/

/-- R114: the six checks and the split, and that a failure is the value `none` and nothing else. -/
def Obligations.DecodeChecksAndSplits : Prop :=
  ∀ init : Byte, ∃ r : Bytes → Option Packet,
    (∀ (f : Bytes) (q : Packet), r f = some q ↔
      8 ≤ f.length ∧ ∃ w u : Bytes, f = 0x02#8 :: (w ++ [0x04#8]) ∧ unstuffBytes w = some u
        ∧ ∃ hi lo c : Byte, u = [q.dst, q.src, hi, lo] ++ q.payload ++ [c]
          ∧ q.pid.toNat = hi.toNat * 256 + lo.toNat ∧ c = crcCalc init ([q.dst, q.src, hi, lo] ++ q.payload))
    ∧ ∀ (f : Bytes) (s : State), s.par.crcInit = init →
      (∃ args, encode init (.decode f) = some (.hostCmd 0x8#4 args))
        ∧ (r f = none → exec (.decode f) s = .next { s with resPut := 0, res := some ⟨.frameError, .noPacket⟩ })
        ∧ ∀ q, r f = some q → exec (.decode f) s = .next { s with resPut := 0, res := some ⟨.ok, .packet q⟩ }

/-- R122 (1) and (2): in a frame that decodes, a literal replaced by a byte other than `20`, or the second byte of a pair
replaced, is detected. -/
def Obligations.DecodeDetectsOneByteTampering : Prop :=
  ∀ (init : Byte) (a z : Bytes) (b c : Byte), b ≠ c →
    ((unstuffBytes a).isSome = true → b ≠ 0x20#8 → c ≠ 0x20#8 →
      (decodeFrame init (0x02#8 :: (a ++ b :: z ++ [0x04#8]))).isSome = true →
      decodeFrame init (0x02#8 :: (a ++ c :: z ++ [0x04#8])) = none)
    ∧ ((unstuffBytes a).isSome = true →
      (decodeFrame init (0x02#8 :: (a ++ 0x20#8 :: b :: z ++ [0x04#8]))).isSome = true →
      decodeFrame init (0x02#8 :: (a ++ 0x20#8 :: c :: z ++ [0x04#8])) = none)

/-! ## Payload helpers -/

/-- R127: the big-endian unsigned value of a slice of 1 to 8 bytes, each optional operand given or absent (R126). -/
def Obligations.ToUintReadsBigEndian : Prop :=
  ∀ (a sl z : Bytes) (s : State), 1 ≤ sl.length → sl.length ≤ 8 →
    ∃ v : Nat, v < 2 ^ (8 * sl.length) ∧ v = Nat.ofDigits 256 (sl.reverse.map BitVec.toNat)
      ∧ exec (.toUint (a ++ sl ++ z) (some a.length) (some sl.length)) s
        = .next { s with resPut := 0, res := some ⟨.ok, .natural v⟩ }
      ∧ exec (.toUint (a ++ sl) (some a.length) none) s = .next { s with resPut := 0, res := some ⟨.ok, .natural v⟩ }
      ∧ exec (.toUint (sl ++ z) none (some sl.length)) s = .next { s with resPut := 0, res := some ⟨.ok, .natural v⟩ }
      ∧ exec (.toUint sl none none) s = .next { s with resPut := 0, res := some ⟨.ok, .natural v⟩ }

/-- R128: the two's-complement value over exactly the slice's width, each optional operand given or absent (R126). -/
def Obligations.ToIntReadsTwosComplement : Prop :=
  ∀ (a sl z : Bytes) (s : State), 1 ≤ sl.length → sl.length ≤ 8 →
    ∃ v : Int, -(2 ^ (8 * sl.length - 1)) ≤ v ∧ v < 2 ^ (8 * sl.length - 1)
      ∧ v % 2 ^ (8 * sl.length) = (Nat.ofDigits 256 (sl.reverse.map BitVec.toNat) : Nat)
      ∧ (v < 0 ↔ ∃ b ∈ sl.head?, 128 ≤ b.toNat)
      ∧ exec (.toInt (a ++ sl ++ z) (some a.length) (some sl.length)) s
        = .next { s with resPut := 0, res := some ⟨.ok, .integer v⟩ }
      ∧ exec (.toInt (a ++ sl) (some a.length) none) s = .next { s with resPut := 0, res := some ⟨.ok, .integer v⟩ }
      ∧ exec (.toInt (sl ++ z) none (some sl.length)) s = .next { s with resPut := 0, res := some ⟨.ok, .integer v⟩ }
      ∧ exec (.toInt sl none none) s = .next { s with resPut := 0, res := some ⟨.ok, .integer v⟩ }

/-- R130, R131: one character per byte; `.` for a substituted byte, ASCII in `20` to `7E`, else the byte carried under
`CODEPAGE` (log 16). -/
def Obligations.ToTextMapsEveryByte : Prop :=
  ∀ (a sl z : Bytes) (sub : Bool) (s : State),
    let t : List TextChar := sl.map fun b =>
      if 0x20 ≤ b.toNat ∧ b.toNat ≤ 0x7E then .ascii b else if sub = true then .ascii 0x2E#8 else .codePage b
    exec (.toText (a ++ sl ++ z) (some a.length) (some sl.length) sub) s = .next { s with resPut := 0, res := some ⟨.ok, .text t⟩ }
      ∧ exec (.toText (a ++ sl) (some a.length) none sub) s = .next { s with resPut := 0, res := some ⟨.ok, .text t⟩ }
      ∧ exec (.toText (sl ++ z) none (some sl.length) sub) s = .next { s with resPut := 0, res := some ⟨.ok, .text t⟩ }
      ∧ exec (.toText sl none none sub) s = .next { s with resPut := 0, res := some ⟨.ok, .text t⟩ }

/-- R126, R127, R129: where the helpers stop or return an error, each optional operand given or absent. The bounds come
first, then the width, then the empty slice. And the numbers by which every status, and the fault record, is reported
(R188), and `res_ok` (R38). -/
def Obligations.HelpersRefuseBadSlices : Prop :=
  (∀ (y : Bytes) (o w : Option Int) (sub : Bool) (s : State),
      (o.getD 0 < 0 ∨ (∃ n, w = some n ∧ (n < 0 ∨ (y.length : Int) < o.getD 0 + n))
        ∨ (w = none ∧ (y.length : Int) < o.getD 0)) →
      exec (.toUint y o w) s = .refused .sliceOutsidePayload
        ∧ exec (.toInt y o w) s = .refused .sliceOutsidePayload
        ∧ exec (.toText y o w sub) s = .refused .sliceOutsidePayload)
    ∧ (∀ (a sl z : Bytes) (s : State), 8 < sl.length →
      let wide := Host.Outcome.next { s with resPut := 0, res := some ⟨.widthError sl.length, .nothing⟩ }
      exec (.toUint (a ++ sl ++ z) (some a.length) (some sl.length)) s = wide
        ∧ exec (.toUint (a ++ sl) (some a.length) none) s = wide
        ∧ exec (.toUint (sl ++ z) none (some sl.length)) s = wide
        ∧ exec (.toUint sl none none) s = wide
        ∧ exec (.toInt (a ++ sl ++ z) (some a.length) (some sl.length)) s = wide
        ∧ exec (.toInt (a ++ sl) (some a.length) none) s = wide
        ∧ exec (.toInt (sl ++ z) none (some sl.length)) s = wide
        ∧ exec (.toInt sl none none) s = wide)
    ∧ (∀ (a z : Bytes) (s : State),
      exec (.toUint (a ++ z) (some a.length) (some 0)) s = .refused .emptySlice
        ∧ exec (.toUint a (some a.length) none) s = .refused .emptySlice
        ∧ exec (.toUint z none (some 0)) s = .refused .emptySlice
        ∧ exec (.toUint [] none none) s = .refused .emptySlice
        ∧ exec (.toInt (a ++ z) (some a.length) (some 0)) s = .refused .emptySlice
        ∧ exec (.toInt a (some a.length) none) s = .refused .emptySlice
        ∧ exec (.toInt z none (some 0)) s = .refused .emptySlice
        ∧ exec (.toInt [] none none) s = .refused .emptySlice)
    ∧ (statusCode .ok = 0 ∧ statusCode .validationError = 1 ∧ statusCode .frameError = 2
      ∧ (∀ why, statusCode (.transportError why) = 3) ∧ statusCode .timeoutError = 4
      ∧ (∀ n, statusCode (.widthError n) = 5) ∧ statusCode .txQueueFull = 6)
    ∧ (∀ st v, resOk ⟨st, v⟩ = true ↔ st = .ok)
    ∧ ∀ s : State, (s.fault = none → faultCause s = 0)
      ∧ (∀ which, s.fault = some (.transportFault which) → faultCause s = 16)
      ∧ (s.fault = some .rxOverflow → faultCause s = 17) ∧ (s.fault = some .callbackFault → faultCause s = 18)

/-! ## The arbiter -/

/-- R136: `OPEN` of a fresh instance, and of any other. The fields of log 5 and the callback's name (log 9) are the model's,
and so is that `OPEN` runs as written while the Transport is closed, which its operand line excludes (log 14). The worker
starts with the call, so frames can reach the callback before the call has returned (R209): whether it returns at once or
at the move `openReturn` is a draw (log 30). -/
def Obligations.OpenStartsTheWorker : Prop :=
  ∀ (cb : Callback) (s : State),
    let opened : Bool → Option Reply → State := fun o r => { s with
      tBound := true, cb := some cb, rxBuf := [], txq := [], stop := false, inCb := false, fault := none, evtPut := 0, evt := none,
      phase := .check, avail := 0, rxRead := false, data := [], ended := false, closing := false, run := .running,
      opening := o, resPut := 0, res := r }
    (s.run = .unopened → s.lateOpen = false → exec (.openT cb) s = .next (opened false (some ⟨.ok, .nothing⟩)))
    ∧ (s.run = .unopened → s.lateOpen = true → exec (.openT cb) s = .next (opened true none))
    ∧ (s.run ≠ .unopened → exec (.openT cb) s
      = .next { s with resPut := 0, res := some ⟨.transportError .alreadyOpened, .nothing⟩ })
    ∧ ∀ rest, s.inputs = .openReturn :: rest →
      (s.opening = true → step s = .next { s with
        inputs := rest, opening := false, resPut := 0, res := some ⟨.ok, .nothing⟩ })
      ∧ (s.opening = false → step s = .next { s with inputs := rest })

/-- R137: `SEND` appends at the tail, or returns its error and enqueues nothing; the life-cycle test comes first. -/
def Obligations.SendEnqueuesOrReturnsItsError : Prop :=
  ∀ (m : Bytes) (s : State),
    (∃ args, encode s.par.crcInit (.send m) = some (.hostCmd 0xD#4 args))
    ∧ (s.run ≠ .running → exec (.send m) s = .next { s with resPut := 0, res := some ⟨.transportError .notRunning, .nothing⟩ })
    ∧ (s.run = .running → s.par.txqCap = some s.txq.length →
      exec (.send m) s = .next { s with resPut := 0, res := some ⟨.txQueueFull, .nothing⟩ })
    ∧ (s.run = .running → s.par.txqCap ≠ some s.txq.length →
      exec (.send m) s = .next { s with txq := s.txq ++ [m], resPut := 0, res := some ⟨.ok, .nothing⟩ })

/-- R161, R162: `LINK.TX` is `ENCODE` then `SEND`, and a refused packet enqueues nothing; `LINK.RX` delivers a packet that
decodes, whatever its `dst`, and drops any other frame. The record `got` is the model's (log 19). -/
def Obligations.JoinedBlockComposes : Prop :=
  (∀ (d sr p : Int) (y : Bytes) (s : State),
    (validatePacket d sr p y = true → exec (.linkTx d sr p y) s = exec (.send (encodePacket s.par.crcInit d sr p y)) s
      ∧ (s.run = .running → s.par.txqCap ≠ some s.txq.length → exec (.linkTx d sr p y) s
        = .next { s with txq := s.txq ++ [encodePacket s.par.crcInit d sr p y], resPut := 0, res := some ⟨.ok, .nothing⟩ }))
    ∧ (validatePacket d sr p y = false →
      exec (.linkTx d sr p y) s = .next { s with resPut := 0, res := some ⟨.validationError, .nothing⟩ }))
  ∧ ∀ (f : Bytes) (s : State),
    (∀ q, decodeFrame s.par.crcInit f = some q → exec (.linkRx f) s = .next { s with got := s.got ++ [q] })
    ∧ (decodeFrame s.par.crcInit f = none → exec (.linkRx f) s = .next s)

/-- R142, R145, R152: `EXTRACT` outside a callback and with an unbounded buffer, in its three cases: no `STX`; an `STX` and
no `ETX` after it; a candidate, which is cut out and emitted. While the callback runs it stands still. The records `evt`,
`emits`, `got` and the stop at an emit are the model's (log 18, log 19), and so is the field `data`, whose bytes come after
those of `rx_buf` (log 12); an unbounded buffer holds them all. -/
def Obligations.ExtractCutsTheFirstCandidate : Prop :=
  (∀ s : State, s.inCb = true → exec .extract s = .next s)
    ∧ ∀ s : State, s.inCb = false → s.par.rxBufCap = none →
      (0x02#8 ∉ s.rxBuf ++ s.data → exec .extract s = .next { s with rxBuf := s.rxBuf ++ s.data, data := [] })
      ∧ (∀ a m : Bytes, s.rxBuf ++ s.data = a ++ 0x02#8 :: m → 0x02#8 ∉ a → 0x04#8 ∉ m →
        exec .extract s = .next { s with rxBuf := 0x02#8 :: m, data := [] })
      ∧ (∀ a m r : Bytes, s.rxBuf ++ s.data = a ++ 0x02#8 :: m ++ 0x04#8 :: r → 0x02#8 ∉ a → 0x04#8 ∉ m →
        let f : Bytes := 0x02#8 :: m ++ [0x04#8]
        exec .extract s = .next { s with
          rxBuf := r, data := [], inCb := true, evtPut := 0, evt := some f, emits := s.emits ++ [f],
          got := if s.cb = some .linkRx then s.got ++ (decodeFrame s.par.crcInit f).toList else s.got })

/-- R155: with a bounded buffer a frame of more than `RX_BUF_CAP` bytes, its `ETX` counted or not yet there, faults the
worker; a frame within it is cut out as without a bound. What `rx_buf` holds after the fault, that the `ETX` counts, that
bytes without an `STX` over the bound are dropped, and that the rest of a drain waits in `data` where `rx_buf` is full, is
the model's (log 12). So is what `EXTRACT` does when run by itself, its stop at an emit and the records `evt`, `emits` and
`got` (log 18, log 19). -/
def Obligations.OverlongFrameRaisesRxOverflow : Prop :=
  ∀ (s : State) (c : Nat), s.inCb = false → s.par.rxBufCap = some c →
    let faulted : Bytes → State := fun b => { s with
      rxBuf := b.take c, data := [], fault := s.fault.or (some .rxOverflow), run := .faulted, ended := true }
    (∀ a m : Bytes, s.rxBuf ++ s.data = a ++ 0x02#8 :: m → 0x02#8 ∉ a → 0x04#8 ∉ m → c < m.length + 1 →
      exec .extract s = .next (faulted (0x02#8 :: m)))
    ∧ (∀ a m : Bytes, s.rxBuf ++ s.data = a ++ 0x02#8 :: m → 0x02#8 ∉ a → 0x04#8 ∉ m → m.length + 1 ≤ c →
      exec .extract s = .next { s with rxBuf := 0x02#8 :: m, data := [] })
    ∧ (∀ a m r : Bytes, s.rxBuf ++ s.data = a ++ 0x02#8 :: m ++ 0x04#8 :: r → 0x02#8 ∉ a → 0x04#8 ∉ m →
      c < m.length + 2 → exec .extract s = .next (faulted (0x02#8 :: m ++ 0x04#8 :: r)))
    ∧ (∀ a m r : Bytes, s.rxBuf ++ s.data = a ++ 0x02#8 :: m ++ 0x04#8 :: r → 0x02#8 ∉ a → 0x04#8 ∉ m →
      m.length + 2 ≤ c →
      let f : Bytes := 0x02#8 :: m ++ [0x04#8]
      exec .extract s = .next { s with
        rxBuf := r.take c, data := r.drop c, inCb := true, evtPut := 0, evt := some f, emits := s.emits ++ [f],
        got := if s.cb = some .linkRx then s.got ++ (decodeFrame s.par.crcInit f).toList else s.got })
    ∧ (0x02#8 ∉ s.rxBuf ++ s.data → exec .extract s = .next { s with
        rxBuf := if (s.rxBuf ++ s.data).length ≤ c then s.rxBuf ++ s.data else [], data := [] })

/-- R139: phase `CHECK`, at the worker's turn: the stop signal first, then the count, which alone selects the phase. The
fields `avail`, `rxRead`, `ended` and the move `tick` are the model's (log 1, log 5). -/
def Obligations.CheckSamplesStopThenTheCount : Prop :=
  ∀ (s : State) (rest : List Input), s.inputs = .tick :: rest → workerReady s = true → s.phase = .check →
    (s.stop = true → step s = .next { s with inputs := rest, ended := true })
    ∧ (s.stop = false → s.tBound = true → s.tr.isOpen = true → s.tr.fails.avail = false →
      step s = .next { s with
        inputs := rest, avail := s.tr.inb.length, rxRead := false,
        phase := if 0 < s.tr.inb.length then .rx else .tx })

/-- R141: phase `RX` takes exactly the bytes counted, in order, and leaves later ones in `T.in`; then `EXTRACT` runs. After
the callback has returned (R193) it takes none and `EXTRACT` goes on. With no complete frame left the phase ends, with one
it is emitted and the callback holds the phase; a frame longer than a bounded buffer faults the worker (R155). The fields
and records of log 5 and log 19, and how a bounded buffer is kept (log 12), are the model's. -/
def Obligations.RxDrainsTheCountedBytes : Prop :=
  ∀ (s : State) (rest : List Input), s.inputs = .tick :: rest → workerReady s = true → s.phase = .rx →
    (s.rxRead = false → s.tBound = true ∧ s.tr.isOpen = true ∧ s.tr.fails.read = none) →
    let buf := s.rxBuf ++ s.data ++ (if s.rxRead = true then [] else s.tr.inb.take s.avail)
    let read : State := { s with
      inputs := rest, data := [], rxRead := true,
      tr := { s.tr with inb := if s.rxRead = true then s.tr.inb else s.tr.inb.drop s.avail } }
    let fits : Nat → Prop := fun n => ∀ c, s.par.rxBufCap = some c → n ≤ c
    (0x02#8 ∉ buf →
      (fits buf.length → step s = .next { read with rxBuf := buf, phase := .sleep, rxRead := false })
      ∧ (¬fits buf.length → step s = .next { read with rxBuf := [], phase := .sleep, rxRead := false }))
    ∧ (∀ a m : Bytes, buf = a ++ 0x02#8 :: m → 0x02#8 ∉ a → 0x04#8 ∉ m → fits (m.length + 1) →
      step s = .next { read with rxBuf := 0x02#8 :: m, phase := .sleep, rxRead := false })
    ∧ (∀ a m r : Bytes, buf = a ++ 0x02#8 :: m ++ 0x04#8 :: r → 0x02#8 ∉ a → 0x04#8 ∉ m → fits (m.length + 2) →
      let f : Bytes := 0x02#8 :: m ++ [0x04#8]
      ∃ kept waiting : Bytes, kept ++ waiting = r ∧ fits kept.length
        ∧ (waiting ≠ [] → s.par.rxBufCap = some kept.length)
        ∧ step s = .next { read with
          rxBuf := kept, data := waiting, inCb := true, evtPut := 0, evt := some f, emits := s.emits ++ [f],
          got := if s.cb = some .linkRx then s.got ++ (decodeFrame s.par.crcInit f).toList else s.got })
    ∧ ∀ c, s.par.rxBufCap = some c → ∀ a m : Bytes, buf = a ++ 0x02#8 :: m → 0x02#8 ∉ a →
      (0x04#8 ∉ m.take (c - 1) ∧ c < m.length + 1) →
      step s = .next { read with
        rxBuf := (0x02#8 :: m).take c, fault := s.fault.or (some .rxOverflow), run := .faulted, ended := true }

/-- R143, R144: phase `TX` writes at most the head entry, whole; then `SLEEP`, then `CHECK`. The move `tick` is the model's
(log 1). -/
def Obligations.TxWritesOneWholeEntry : Prop :=
  ∀ (s : State) (rest : List Input), s.inputs = .tick :: rest → workerReady s = true →
    (s.phase = .tx → s.txq = [] → step s = .next { s with inputs := rest, phase := .sleep })
    ∧ (∀ e q, s.phase = .tx → s.txq = e :: q → s.tBound = true → s.tr.isOpen = true → s.tr.fails.write = none →
      step s = .next { s with
        inputs := rest, txq := q, tr := { s.tr with outb := s.tr.outb ++ e }, phase := .sleep })
    ∧ (s.phase = .sleep → step s = .next { s with inputs := rest, phase := .check })

/-- R45, R187: a primitive that fails inside the worker ends it with `TransportFault`, which names the primitive; an entry
already removed is lost. How much of it is out, and how many bytes a failing read has lost, are draws (log 13). -/
def Obligations.FailingPrimitiveFaultsTheWorker : Prop :=
  ∀ (s : State) (rest : List Input), s.inputs = .tick :: rest → workerReady s = true → s.fault = none →
    s.tBound = true → s.tr.isOpen = true →
    let faulted : State → Prim → State := fun t w =>
      { t with inputs := rest, data := [], fault := some (.transportFault w), run := .faulted, ended := true }
    (s.phase = .check → s.stop = false → s.tr.fails.avail = true → step s = .next (faulted s .avail))
    ∧ (∀ k, s.phase = .rx → s.rxRead = false → s.tr.fails.read = some k →
      step s = .next (faulted { s with tr := { s.tr with inb := s.tr.inb.drop (min k s.avail) } } .read))
    ∧ (∀ k e q, s.phase = .tx → s.txq = e :: q → s.tr.fails.write = some k →
      step s = .next (faulted { s with txq := q, tr := { s.tr with outb := s.tr.outb ++ e.take k } } .write))

/-- R138: `POLL` as one iteration, from `CHECK`. With no bytes it writes at most one entry; with bytes it only receives: the
iteration is over when there is no complete frame, and stands at the emit, inside phase `RX`, when there is one. Without a
live worker, or inside the callback, it performs nothing; it always completes. What the operation does when run by itself
is the model's choice (log 18), and so are the fields of log 5 and the records of log 19. -/
def Obligations.PollPerformsOneIteration : Prop :=
  (∀ s : State, ∃ t, exec .poll s = .next t)
    ∧ (∀ s : State, workerReady s = false → exec .poll s = .next s)
    ∧ ∀ s : State, workerReady s = true → s.phase = .check →
      (s.stop = true → exec .poll s = .next { s with ended := true })
      ∧ (s.stop = false → s.tBound = true → s.tr.isOpen = true → s.tr.fails.avail = false →
        (s.tr.inb = [] → s.txq = [] → exec .poll s = .next { s with avail := 0, rxRead := false })
        ∧ (∀ e q, s.tr.inb = [] → s.txq = e :: q → s.tr.fails.write = none →
          exec .poll s = .next { s with
            avail := 0, rxRead := false, txq := q, tr := { s.tr with outb := s.tr.outb ++ e } })
        ∧ (s.tr.inb ≠ [] → s.tr.fails.read = none → s.par.rxBufCap = none →
          let buf := s.rxBuf ++ s.data ++ s.tr.inb
          let read : State := { s with
            avail := s.tr.inb.length, rxRead := false, data := [], tr := { s.tr with inb := [] } }
          (0x02#8 ∉ buf → exec .poll s = .next { read with rxBuf := buf })
          ∧ (∀ a m : Bytes, buf = a ++ 0x02#8 :: m → 0x02#8 ∉ a → 0x04#8 ∉ m →
            exec .poll s = .next { read with rxBuf := 0x02#8 :: m })
          ∧ ∀ a m r : Bytes, buf = a ++ 0x02#8 :: m ++ 0x04#8 :: r → 0x02#8 ∉ a → 0x04#8 ∉ m →
            let f : Bytes := 0x02#8 :: m ++ [0x04#8]
            exec .poll s = .next { read with
              phase := .rx, rxRead := true, rxBuf := r, inCb := true, evtPut := 0, evt := some f, emits := s.emits ++ [f],
              got := if s.cb = some .linkRx then s.got ++ (decodeFrame s.par.crcInit f).toList else s.got }))

/-- R150: `CLOSE`: harmless on a closed or unopened instance; sets `stop` and waits while the worker lives; goes on at once
when it has ended. It waits for every caller but host code in the instance's own callback; a `LINK.RX` that drops its frame
runs none (R162, log 20). A `CLOSE` whose `T.close()` fails returns its error and does nothing after it (R15, R185), at once
or after the wait: `stop` is set and both buffers are empty, by the lines before it, and `run` and `T` are as they were.
That those lines go before the summary of R195 is read from the order of trust of 90_conflicts.md (log 11). That the call
and its return are two moves, the error's reason and the fields of log 5 are the model's (log 5, log 10, log 11, log 27). -/
def Obligations.CloseSignalsOrFinishes : Prop :=
  ∀ s : State,
    (s.run = .closed ∨ s.run = .unopened → exec .close s = .next { s with resPut := 0, res := some ⟨.ok, .nothing⟩ })
    ∧ (s.run = .running ∨ s.run = .faulted → s.ended = false →
      (s.caller = .callback → s.inCb = true → s.cb = some .linkRx ∧ ∀ f, s.evt = some f → decodeFrame s.par.crcInit f = none) →
      exec .close s = .next { s with stop := true, closing := true, resPut := 0, res := none })
    ∧ (s.run = .running ∨ s.run = .faulted → s.ended = true → s.tr.fails.close = false →
      exec .close s = .next { s with
        stop := true, closing := false, txq := [], rxBuf := [], data := [], tr := { s.tr with isOpen := false },
        tBound := false, run := .closed, resPut := 0, res := some ⟨.ok, .nothing⟩ })
    ∧ (s.run = .running ∨ s.run = .faulted → s.ended = true → s.tr.fails.close = true →
      exec .close s = .next { s with
        stop := true, closing := false, txq := [], rxBuf := [], data := [], resPut := 0,
        res := some ⟨.transportError .closeFailed, .nothing⟩ })
    ∧ ∀ rest, s.inputs = .tick :: rest → s.closing = true → s.ended = true → s.inCb = false → s.tr.fails.close = true →
      step s = .next { s with
        inputs := rest, closing := false, txq := [], rxBuf := [], data := [], resPut := 0,
        res := some ⟨.transportError .closeFailed, .nothing⟩ }

/-- R216, U5: `CLOSE` from the instance's own callback is stuck: from the host's own callback, and from its packet callback
when `LINK.RX` delivered (R162). Stuck is the model's fault by name (log 17). -/
def Obligations.CloseInsideTheCallbackIsStuck : Prop :=
  ∀ (s : State) (rest : List Input), LinkInv s → s.inCb = true →
    (s.cb ≠ some .linkRx ∨ ∃ f q, s.evt = some f ∧ decodeFrame s.par.crcInit f = some q) →
    s.inputs = .host .callback 0xE#4 [] :: rest → step s = .fault .closeInsideCallback

/-- R52, R150: a `CLOSE` that waits returns: left to itself the block gets to `CLOSED`, with both buffers empty and the
Transport closed, and no fault record is cleared. That `CLOSE` is a call and a return is the model's (log 11), and so is
what the block does when left to itself, a running callback returning among it unless it never does (R215, log 1). -/
def Obligations.WaitingCloseReturns : Prop :=
  ∀ s : State, LinkInv s → s.inputs = [] → s.closing = true → s.tr.fails.close = false → s.hangs = false →
    ∃ k t, Sys2Proof.core.run k s = .next t ∧ t.run = .closed ∧ t.closing = false ∧ t.txq = [] ∧ t.rxBuf = []
      ∧ t.tr.isOpen = false ∧ t.res = some ⟨.ok, .nothing⟩ ∧ (s.fault ≠ none → t.fault = s.fault)

/-- R52, R192: after `CLOSED` nothing is emitted, written or read any more, whatever moves come, until a reset. -/
def Obligations.NothingHappensAfterClose : Prop :=
  ∀ s t : State, LinkInv s → s.run = .closed → (∀ m ∈ s.inputs.head?, ¬IsReset m) → step s = .next t →
    t.run = .closed ∧ t.emits = s.emits ∧ t.got = s.got ∧ t.tr.outb = s.tr.outb ∧ t.rxBuf = [] ∧ t.txq = []
      ∧ ∃ more, t.tr.inb = s.tr.inb ++ more

/-- R153: every write happens in phase `TX` of an iteration whose count was 0, and is of the head entry: the whole of it
unless the write failed or a reset struck. How much is out then is a draw (log 13, log 15). What an instance not yet opened
finds in `T.out` of a new medium is no write (log 4). -/
def Obligations.WritesOnlyAfterAZeroCount : Prop :=
  ∀ s t : State, LinkInv s → step s = .next t → t.tr.outb ≠ s.tr.outb →
    (s.run = .unopened ∧ t.run = .unopened ∧ ∃ waiting held echo, s.inputs.head? = some (.openMedium waiting held echo)
        ∧ t.tr.outb = held)
      ∨ (s.run = .running ∧ s.phase = .tx ∧ s.avail = 0 ∧ s.inCb = false
        ∧ ∃ e q, s.txq = e :: q ∧ ∃ k, t.tr.outb = s.tr.outb ++ e.take k
          ∧ (t.run = .running → t.tr.outb = s.tr.outb ++ e ∧ t.txq = q))

/-- R26, R55 (b), R149: the queue is first-in first-out: a step appends one entry at the tail, takes the head, or empties
it at a close, an open or a reset. -/
def Obligations.QueueIsFirstInFirstOut : Prop :=
  ∀ s t : State, LinkInv s → step s = .next t →
    t.txq = s.txq ∨ (s.run = .running ∧ ∃ e, t.txq = s.txq ++ [e])
      ∨ (s.run = .running ∧ s.phase = .tx ∧ ∃ e, s.txq = e :: t.txq)
      ∨ (t.txq = [] ∧ (s.ended = true ∨ ∃ m ∈ s.inputs.head?, IsReset m))

/-- R29: the life cycle has no other transitions; a reset is outside it. -/
def Obligations.LifeCycleTransitions : Prop :=
  ∀ s t : State, LinkInv s → (∀ m ∈ s.inputs.head?, ¬IsReset m) → step s = .next t →
    t.run = s.run ∨ (s.run = .unopened ∧ t.run = .running) ∨ (s.run = .running ∧ t.run = .closed)
      ∨ (s.run = .running ∧ t.run = .faulted) ∨ (s.run = .faulted ∧ t.run = .closed)

/-- R140: the phase moves along the loop and nowhere else; a reset is outside it. -/
def Obligations.PhasesFollowTheLoop : Prop :=
  ∀ s t : State, LinkInv s → (∀ m ∈ s.inputs.head?, ¬IsReset m) → step s = .next t →
    t.phase = s.phase ∨ (s.phase = .check ∧ (t.phase = .rx ∨ t.phase = .tx))
      ∨ ((s.phase = .rx ∨ s.phase = .tx) ∧ t.phase = .sleep) ∨ (s.phase = .sleep ∧ t.phase = .check)

/-- R30, R187, R206: a fault record is never cleared short of a reset, which leaves `none`, and a step that sets it ends the
worker and leads `RUNNING` to `FAULTED`. -/
def Obligations.FaultRecordIsSticky : Prop :=
  State.reset.fault = none
    ∧ ∀ s t : State, LinkInv s → (∀ m ∈ s.inputs.head?, ¬IsReset m) → step s = .next t →
      (∀ f, s.fault = some f → t.fault = some f)
        ∧ (s.fault = none → t.fault ≠ none → s.run = .running ∧ t.run = .faulted ∧ t.ended = true)

/-- R152, R190, R193, R187: while host code runs in the callback, its own callback or its packet callback, the worker stands
still; the return lets it go on; an error of the host's code ends it with `CallbackFault`. A callback that never returns
leaves the instance as it is for good, when nothing outside moves (R215). A `LINK.RX` whose frame does not decode runs no
host code: it returns, whatever the callback would do (R162). The moves, what happens without one, and the callback's name
are the model's (log 1, log 9). -/
def Obligations.CallbackHoldsTheWorker : Prop :=
  ∀ (s : State) (rest : List Input), s.inCb = true →
    (s.inputs = .cbReturn :: rest → step s = .next { s with inputs := rest, inCb := false, evtPut := 0, evt := none })
    ∧ ((s.cb ≠ some .linkRx ∨ ∃ f q, s.evt = some f ∧ decodeFrame s.par.crcInit f = some q) →
      (s.inputs = .tick :: rest → step s = .next { s with inputs := rest })
      ∧ (s.inputs = .cbError :: rest → s.fault = none → step s = .next { s with
        inputs := rest, inCb := false, evtPut := 0, evt := none, data := [], fault := some .callbackFault, run := .faulted,
        ended := true })
      ∧ (s.inputs = [] → s.hangs = true → ∀ k, Sys2Proof.core.run k s = .next s)
      ∧ (s.inputs = [] → s.hangs = false → step s = .next { s with inCb := false, evtPut := 0, evt := none }))
    ∧ (s.cb = some .linkRx → (∀ f, s.evt = some f → decodeFrame s.par.crcInit f = none) →
      (s.inputs = .tick :: rest → step s = .next { s with inputs := rest, inCb := false, evtPut := 0, evt := none })
      ∧ (s.inputs = .cbError :: rest → step s = .next { s with inputs := rest })
      ∧ (s.inputs = [] → step s = .next { s with inCb := false, evtPut := 0, evt := none }))

/-- R163: frames of valid packets arriving with any bytes without an `STX` between them, split over the moves in any way,
are delivered exactly, in order. The block runs with `LINK.RX`, a sound Transport, room for a frame and a callback that
returns. The moves and the record `got` are the model's (log 1, log 19). With a bounded buffer (R155, R218) the `ETX` counts
among the bytes it must have room for, and the rest of a drain longer than it waits in `data` and does not count against it:
the model's choice (log 12). -/
def Obligations.LoopBackDeliversEveryPacket : Prop :=
  ∀ (s : State) (stream : List (Bytes × Packet)) (tail : Bytes),
    LinkInv s → s.run = .running → s.ended = false → s.stop = false → s.inCb = false → s.phase = .check →
    s.hangs = false → s.cb = some .linkRx → s.tr.isOpen = true → s.tr.fails = Health.good → s.tr.inb = [] →
    0x02#8 ∉ s.rxBuf →
    (∀ c, s.par.rxBufCap = some c → 82 ≤ c) →
    (∀ g ∈ stream, 0x02#8 ∉ g.1
      ∧ validatePacket g.2.dst.toNat g.2.src.toNat g.2.pid.toNat g.2.payload = true) →
    0x02#8 ∉ tail → (∀ m ∈ s.inputs, IsTraffic m) → delivered s.inputs = streamOf s.par.crcInit stream ++ tail →
    ∃ k t, Sys2Proof.core.run k s = .next t ∧ t.inputs = [] ∧ t.inCb = false ∧ t.tr.inb = [] ∧ t.fault = none
      ∧ t.got = s.got ++ stream.map (·.2) ∧ 0x02#8 ∉ t.rxBuf
end

