-- ==== Sys2Proof/Laws/Codec.lean ====
section
/-! SUPPORT. The small lemmas of the codec's definitions (Machine/Codec.lean): the equations of stuffing and unstuffing,
the CRC over concatenations, and the two halves of a packetId. -/

namespace Sys2Proof.Machine

@[simp] theorem stuffBytes_nil : stuffBytes [] = [] := rfl

theorem stuffBytes_cons_special {b : Byte} (h : isSpecial b = true) (m : Bytes) :
    stuffBytes (b :: m) = Config.dle :: (~~~b) :: stuffBytes m := by simp [stuffBytes, h]

theorem stuffBytes_cons_plain {b : Byte} (h : isSpecial b = false) (m : Bytes) :
    stuffBytes (b :: m) = b :: stuffBytes m := by simp [stuffBytes, h]

theorem isSpecial_iff (b : Byte) : isSpecial b = true ↔ b = 0x02#8 ∨ b = 0x04#8 ∨ b = 0x20#8 := by
  simp [isSpecial, Config.stx, Config.etx, Config.dle, or_assoc]

/-- The complements of the special bytes are `FD`, `FB` and `DF` (R67). -/
theorem complement_of_special {b : Byte} (h : isSpecial b = true) :
    ~~~b = 0xFD#8 ∨ ~~~b = 0xFB#8 ∨ ~~~b = 0xDF#8 := by
  rcases (isSpecial_iff b).1 h with rfl | rfl | rfl <;> decide

theorem stuffBytes_append (m n : Bytes) : stuffBytes (m ++ n) = stuffBytes m ++ stuffBytes n := by
  induction m with
  | nil => rfl
  | cons b m ih => by_cases h : isSpecial b = true <;> simp [stuffBytes, h, ih]

@[simp] theorem unstuffBytes_nil : unstuffBytes [] = some [] := rfl

@[simp] theorem unstuffBytes_dle : unstuffBytes [Config.dle] = none := rfl

@[simp] theorem unstuffBytes_pair (c : Byte) (w : Bytes) :
    unstuffBytes (Config.dle :: c :: w) = (unstuffBytes w).map ((~~~c) :: ·) := by simp [unstuffBytes]

theorem unstuffBytes_cons {b : Byte} (h : b ≠ Config.dle) (w : Bytes) :
    unstuffBytes (b :: w) = (unstuffBytes w).map (b :: ·) := by
  cases w <;> simp [unstuffBytes, h]

/-- A prefix that unstuffs is scanned by itself (R98). -/
theorem unstuffBytes_append : ∀ (a z u : Bytes), unstuffBytes a = some u →
    unstuffBytes (a ++ z) = (unstuffBytes z).map (u ++ ·)
  | [], z, u, h => by
    obtain rfl : u = [] := by simpa using h.symm
    simp
  | [b], z, u, h => by
    by_cases hb : b = Config.dle
    · subst hb; simp at h
    · obtain rfl : u = [b] := by simpa [unstuffBytes, hb] using h.symm
      simp [unstuffBytes_cons hb]
  | b :: c :: rest, z, u, h => by
    by_cases hb : b = Config.dle
    · subst hb
      obtain ⟨v, hv, rfl⟩ := Option.map_eq_some_iff.1 ((unstuffBytes_pair c rest).symm.trans h)
      simp [unstuffBytes_append rest z v hv, Function.comp_def]
    · obtain ⟨v, hv, rfl⟩ := Option.map_eq_some_iff.1 ((unstuffBytes_cons hb (c :: rest)).symm.trans h)
      have := unstuffBytes_append (c :: rest) z v hv
      simp only [List.cons_append] at this ⊢
      simp [unstuffBytes_cons hb, this, Function.comp_def]

@[simp] theorem crcCalc_nil (init : Byte) : crcCalc init [] = init := rfl

theorem crcCalc_append (init : Byte) (m n : Bytes) : crcCalc init (m ++ n) = n.foldl crcUpdate (crcCalc init m) := by
  simp [crcCalc, List.foldl_append]

/-- The bit step is linear (R90, R91). -/
theorem bitStep_xor (a b : Byte) : bitStep (a ^^^ b) = bitStep a ^^^ bitStep b := by
  have s : (a ^^^ b) <<< 1 = (a <<< 1) ^^^ (b <<< 1) := by
    apply BitVec.eq_of_getElem_eq
    intro i hi
    by_cases h : i < 1 <;> simp [h]
  have h : ∀ x y p : Byte, x ^^^ y = (x ^^^ p) ^^^ (y ^^^ p) := by
    intro x y p
    rw [BitVec.xor_comm y p, BitVec.xor_assoc, ← BitVec.xor_assoc p p, BitVec.xor_self, BitVec.zero_xor]
  unfold bitStep
  rw [s, BitVec.getLsbD_xor]
  cases ha : a.getLsbD 7 <;> cases hb : b.getLsbD 7 <;> simp only [Bool.xor_false, Bool.xor_true,
    Bool.not_true, Bool.not_false, if_true, if_false, Bool.false_eq_true]
  · rw [BitVec.xor_assoc]
  · rw [BitVec.xor_assoc, BitVec.xor_assoc, BitVec.xor_comm (b <<< 1)]
  · exact h _ _ _

/-- Eight bit steps are linear (R91). -/
theorem bitStep8_xor (a b : Byte) : bitStep8 (a ^^^ b) = bitStep8 a ^^^ bitStep8 b := by
  simp only [bitStep8, bitStep_xor]

@[simp] theorem bitStep8_zero : bitStep8 0#8 = 0#8 := by decide

/-- Eight bit steps of a byte are zero for the zero byte only: the table of R91 is a bijection. -/
theorem bitStep8_eq_zero (a : Byte) : bitStep8 a = 0#8 ↔ a = 0#8 := by revert a; decide

/-- The big-endian packetId as a number (R47, R69). -/
theorem pidOf_toNat (hi lo : Byte) : (pidOf hi lo).toNat = hi.toNat * 256 + lo.toNat := by
  have h1 := hi.isLt
  have h2 := lo.isLt
  have e : hi.toNat <<< 8 = hi.toNat * 256 := by simp [Nat.shiftLeft_eq]
  simp only [pidOf, BitVec.toNat_or, BitVec.toNat_shiftLeft, BitVec.toNat_setWidth]
  rw [Nat.mod_eq_of_lt (a := hi.toNat) (by omega), Nat.mod_eq_of_lt (a := lo.toNat) (by omega),
    Nat.mod_eq_of_lt (a := hi.toNat <<< 8) (by omega), ← Nat.shiftLeft_add_eq_or_of_lt (by omega), e]

theorem pidHi_toNat (p : Pid) : (pidHi p).toNat = p.toNat / 256 := by
  have := p.isLt
  simp [pidHi, Nat.shiftRight_eq_div_pow]; omega

theorem pidLo_toNat (p : Pid) : (pidLo p).toNat = p.toNat % 256 := by simp [pidLo]

/-- The two bytes of a packetId give it back (R69). -/
@[simp] theorem pidOf_halves (p : Pid) : pidOf (pidHi p) (pidLo p) = p := by
  apply BitVec.eq_of_toNat_eq
  rw [pidOf_toNat, pidHi_toNat, pidLo_toNat]
  omega

@[simp] theorem pidHi_pidOf (hi lo : Byte) : pidHi (pidOf hi lo) = hi := by
  apply BitVec.eq_of_toNat_eq
  have := lo.isLt
  rw [pidHi_toNat, pidOf_toNat]
  omega

@[simp] theorem pidLo_pidOf (hi lo : Byte) : pidLo (pidOf hi lo) = lo := by
  apply BitVec.eq_of_toNat_eq
  have := lo.isLt
  rw [pidLo_toNat, pidOf_toNat]
  omega

end Sys2Proof.Machine
end

