-- ==== Sys2Proof/Laws/Decode.lean ====
section
/-! SUPPORT. The operand bytes of the commands (Decode.lean): what is put is what is taken, one lemma for each layout. -/

namespace Sys2Proof

/-- The slot and packetId operands and the payload (P2). -/
@[simp] theorem takeHeader_putHeader (d s : Byte) (p : Pid) (y : Bytes) :
    takeHeader (putHeader d s p y) = .ok (d, s, p, y) := by simp [takeHeader, putHeader]

/-- A natural number of any size (log 8). -/
@[simp] theorem takeNat_putNat (n : Nat) (rest : Bytes) : takeNat (putNat n ++ rest) = some (n, rest) := by
  have last : ∀ r, r < 255 → takeNat (BitVec.ofNat 8 r :: rest) = some (r, rest) := by
    intro r h
    have e : (BitVec.ofNat 8 r).toNat = r := by simp; omega
    have ne : BitVec.ofNat 8 r ≠ 0xFF#8 := fun c => by rw [c] at e; simp at e; omega
    rw [takeNat, if_neg ne, e]
  have more : ∀ q r, r < 255 →
      takeNat (List.replicate q 0xFF#8 ++ BitVec.ofNat 8 r :: rest) = some (255 * q + r, rest) := by
    intro q r h
    induction q with
    | zero => simpa using last r h
    | succ q ih =>
      rw [List.replicate_succ, List.cons_append, takeNat, if_pos rfl, ih]
      simp; omega
  have := more (n / 255) (n % 255) (Nat.mod_lt _ (by omega))
  rw [Nat.div_add_mod] at this
  simpa [putNat] using this

/-- An optional operand (R126). -/
@[simp] theorem takeOperand_putOperand {o : Option Int} (h : fitsOperand o = true) (rest : Bytes) :
    takeOperand o.isSome (putOperand o ++ rest) = some (o, rest) := by
  cases o with
  | none => rfl
  | some v =>
    have : (v.toNat : Int) = v := by simp [fitsOperand] at h; omega
    simp [takeOperand, putOperand, this]

/-- The operands of the helpers after their selector (R126). -/
theorem takeSlice_putSlice {o w : Option Int} (ho : fitsOperand o = true) (hw : fitsOperand w = true) (sub : Bool)
    (y : Bytes) : takeSlice (sliceSelector o w sub) (putOperand o ++ putOperand w ++ y) = .ok (o, w, y) := by
  have b0 : (sliceSelector o w sub).getLsbD 0 = o.isSome := by
    cases o <;> cases w <;> cases sub <;> simp [sliceSelector]
  have b1 : (sliceSelector o w sub).getLsbD 1 = w.isSome := by
    cases o <;> cases w <;> cases sub <;> simp [sliceSelector]
  simp only [takeSlice, b0, b1, List.append_assoc, takeOperand_putOperand ho, takeOperand_putOperand hw]

end Sys2Proof
end

