-- ==== Sys2Proof/Laws/State.lean ====
section
/-! SUPPORT. Beside State: for each named update (Machine/Ops.lean) what it leaves in each field, one lemma a field. -/

namespace Sys2Proof.Machine

/-! `State.withReply` -/

section withReply

variable (s : State) (st : Status) (v : Value)

@[simp] theorem State.withReply_acc : (s.withReply st v).acc = s.acc := rfl
@[simp] theorem State.withReply_rxBuf : (s.withReply st v).rxBuf = s.rxBuf := rfl
@[simp] theorem State.withReply_txq : (s.withReply st v).txq = s.txq := rfl
@[simp] theorem State.withReply_phase : (s.withReply st v).phase = s.phase := rfl
@[simp] theorem State.withReply_stop : (s.withReply st v).stop = s.stop := rfl
@[simp] theorem State.withReply_run : (s.withReply st v).run = s.run := rfl
@[simp] theorem State.withReply_fault : (s.withReply st v).fault = s.fault := rfl
@[simp] theorem State.withReply_inCb : (s.withReply st v).inCb = s.inCb := rfl
@[simp] theorem State.withReply_cb : (s.withReply st v).cb = s.cb := rfl
@[simp] theorem State.withReply_tBound : (s.withReply st v).tBound = s.tBound := rfl
@[simp] theorem State.withReply_tr : (s.withReply st v).tr = s.tr := rfl
@[simp] theorem State.withReply_par : (s.withReply st v).par = s.par := rfl
@[simp] theorem State.withReply_avail : (s.withReply st v).avail = s.avail := rfl
@[simp] theorem State.withReply_rxRead : (s.withReply st v).rxRead = s.rxRead := rfl
@[simp] theorem State.withReply_data : (s.withReply st v).data = s.data := rfl
@[simp] theorem State.withReply_ended : (s.withReply st v).ended = s.ended := rfl
@[simp] theorem State.withReply_closing : (s.withReply st v).closing = s.closing := rfl
@[simp] theorem State.withReply_opening : (s.withReply st v).opening = s.opening := rfl
@[simp] theorem State.withReply_uat : (s.withReply st v).uat = s.uat := rfl
@[simp] theorem State.withReply_uesc : (s.withReply st v).uesc = s.uesc := rfl
@[simp] theorem State.withReply_uout : (s.withReply st v).uout = s.uout := rfl
@[simp] theorem State.withReply_argIn : (s.withReply st v).argIn = s.argIn := rfl
@[simp] theorem State.withReply_res : (s.withReply st v).res = some ⟨st, v⟩ := rfl
@[simp] theorem State.withReply_resPut : (s.withReply st v).resPut = 0 := rfl
@[simp] theorem State.withReply_evt : (s.withReply st v).evt = s.evt := rfl
@[simp] theorem State.withReply_evtPut : (s.withReply st v).evtPut = s.evtPut := rfl
@[simp] theorem State.withReply_hangs : (s.withReply st v).hangs = s.hangs := rfl
@[simp] theorem State.withReply_lateOpen : (s.withReply st v).lateOpen = s.lateOpen := rfl
@[simp] theorem State.withReply_emits : (s.withReply st v).emits = s.emits := rfl
@[simp] theorem State.withReply_got : (s.withReply st v).got = s.got := rfl
@[simp] theorem State.withReply_caller : (s.withReply st v).caller = s.caller := rfl
@[simp] theorem State.withReply_inputs : (s.withReply st v).inputs = s.inputs := rfl

end withReply

/-! `State.withAcc` -/

section withAcc

variable (s : State) (a : Byte)

@[simp] theorem State.withAcc_acc : (s.withAcc a).acc = a := rfl
@[simp] theorem State.withAcc_rxBuf : (s.withAcc a).rxBuf = s.rxBuf := rfl
@[simp] theorem State.withAcc_txq : (s.withAcc a).txq = s.txq := rfl
@[simp] theorem State.withAcc_phase : (s.withAcc a).phase = s.phase := rfl
@[simp] theorem State.withAcc_stop : (s.withAcc a).stop = s.stop := rfl
@[simp] theorem State.withAcc_run : (s.withAcc a).run = s.run := rfl
@[simp] theorem State.withAcc_fault : (s.withAcc a).fault = s.fault := rfl
@[simp] theorem State.withAcc_inCb : (s.withAcc a).inCb = s.inCb := rfl
@[simp] theorem State.withAcc_cb : (s.withAcc a).cb = s.cb := rfl
@[simp] theorem State.withAcc_tBound : (s.withAcc a).tBound = s.tBound := rfl
@[simp] theorem State.withAcc_tr : (s.withAcc a).tr = s.tr := rfl
@[simp] theorem State.withAcc_par : (s.withAcc a).par = s.par := rfl
@[simp] theorem State.withAcc_avail : (s.withAcc a).avail = s.avail := rfl
@[simp] theorem State.withAcc_rxRead : (s.withAcc a).rxRead = s.rxRead := rfl
@[simp] theorem State.withAcc_data : (s.withAcc a).data = s.data := rfl
@[simp] theorem State.withAcc_ended : (s.withAcc a).ended = s.ended := rfl
@[simp] theorem State.withAcc_closing : (s.withAcc a).closing = s.closing := rfl
@[simp] theorem State.withAcc_opening : (s.withAcc a).opening = s.opening := rfl
@[simp] theorem State.withAcc_uat : (s.withAcc a).uat = s.uat := rfl
@[simp] theorem State.withAcc_uesc : (s.withAcc a).uesc = s.uesc := rfl
@[simp] theorem State.withAcc_uout : (s.withAcc a).uout = s.uout := rfl
@[simp] theorem State.withAcc_argIn : (s.withAcc a).argIn = s.argIn := rfl
@[simp] theorem State.withAcc_res : (s.withAcc a).res = s.res := rfl
@[simp] theorem State.withAcc_resPut : (s.withAcc a).resPut = s.resPut := rfl
@[simp] theorem State.withAcc_evt : (s.withAcc a).evt = s.evt := rfl
@[simp] theorem State.withAcc_evtPut : (s.withAcc a).evtPut = s.evtPut := rfl
@[simp] theorem State.withAcc_hangs : (s.withAcc a).hangs = s.hangs := rfl
@[simp] theorem State.withAcc_lateOpen : (s.withAcc a).lateOpen = s.lateOpen := rfl
@[simp] theorem State.withAcc_emits : (s.withAcc a).emits = s.emits := rfl
@[simp] theorem State.withAcc_got : (s.withAcc a).got = s.got := rfl
@[simp] theorem State.withAcc_caller : (s.withAcc a).caller = s.caller := rfl
@[simp] theorem State.withAcc_inputs : (s.withAcc a).inputs = s.inputs := rfl

end withAcc

/-! `State.withTr` -/

section withTr

variable (s : State) (x : Transport)

@[simp] theorem State.withTr_acc : (s.withTr x).acc = s.acc := rfl
@[simp] theorem State.withTr_rxBuf : (s.withTr x).rxBuf = s.rxBuf := rfl
@[simp] theorem State.withTr_txq : (s.withTr x).txq = s.txq := rfl
@[simp] theorem State.withTr_phase : (s.withTr x).phase = s.phase := rfl
@[simp] theorem State.withTr_stop : (s.withTr x).stop = s.stop := rfl
@[simp] theorem State.withTr_run : (s.withTr x).run = s.run := rfl
@[simp] theorem State.withTr_fault : (s.withTr x).fault = s.fault := rfl
@[simp] theorem State.withTr_inCb : (s.withTr x).inCb = s.inCb := rfl
@[simp] theorem State.withTr_cb : (s.withTr x).cb = s.cb := rfl
@[simp] theorem State.withTr_tBound : (s.withTr x).tBound = s.tBound := rfl
@[simp] theorem State.withTr_tr : (s.withTr x).tr = x := rfl
@[simp] theorem State.withTr_par : (s.withTr x).par = s.par := rfl
@[simp] theorem State.withTr_avail : (s.withTr x).avail = s.avail := rfl
@[simp] theorem State.withTr_rxRead : (s.withTr x).rxRead = s.rxRead := rfl
@[simp] theorem State.withTr_data : (s.withTr x).data = s.data := rfl
@[simp] theorem State.withTr_ended : (s.withTr x).ended = s.ended := rfl
@[simp] theorem State.withTr_closing : (s.withTr x).closing = s.closing := rfl
@[simp] theorem State.withTr_opening : (s.withTr x).opening = s.opening := rfl
@[simp] theorem State.withTr_uat : (s.withTr x).uat = s.uat := rfl
@[simp] theorem State.withTr_uesc : (s.withTr x).uesc = s.uesc := rfl
@[simp] theorem State.withTr_uout : (s.withTr x).uout = s.uout := rfl
@[simp] theorem State.withTr_argIn : (s.withTr x).argIn = s.argIn := rfl
@[simp] theorem State.withTr_res : (s.withTr x).res = s.res := rfl
@[simp] theorem State.withTr_resPut : (s.withTr x).resPut = s.resPut := rfl
@[simp] theorem State.withTr_evt : (s.withTr x).evt = s.evt := rfl
@[simp] theorem State.withTr_evtPut : (s.withTr x).evtPut = s.evtPut := rfl
@[simp] theorem State.withTr_hangs : (s.withTr x).hangs = s.hangs := rfl
@[simp] theorem State.withTr_lateOpen : (s.withTr x).lateOpen = s.lateOpen := rfl
@[simp] theorem State.withTr_emits : (s.withTr x).emits = s.emits := rfl
@[simp] theorem State.withTr_got : (s.withTr x).got = s.got := rfl
@[simp] theorem State.withTr_caller : (s.withTr x).caller = s.caller := rfl
@[simp] theorem State.withTr_inputs : (s.withTr x).inputs = s.inputs := rfl

end withTr

/-! `State.withRxBuf` -/

section withRxBuf

variable (s : State) (b : Bytes)

@[simp] theorem State.withRxBuf_acc : (s.withRxBuf b).acc = s.acc := rfl
@[simp] theorem State.withRxBuf_rxBuf : (s.withRxBuf b).rxBuf = b := rfl
@[simp] theorem State.withRxBuf_txq : (s.withRxBuf b).txq = s.txq := rfl
@[simp] theorem State.withRxBuf_phase : (s.withRxBuf b).phase = s.phase := rfl
@[simp] theorem State.withRxBuf_stop : (s.withRxBuf b).stop = s.stop := rfl
@[simp] theorem State.withRxBuf_run : (s.withRxBuf b).run = s.run := rfl
@[simp] theorem State.withRxBuf_fault : (s.withRxBuf b).fault = s.fault := rfl
@[simp] theorem State.withRxBuf_inCb : (s.withRxBuf b).inCb = s.inCb := rfl
@[simp] theorem State.withRxBuf_cb : (s.withRxBuf b).cb = s.cb := rfl
@[simp] theorem State.withRxBuf_tBound : (s.withRxBuf b).tBound = s.tBound := rfl
@[simp] theorem State.withRxBuf_tr : (s.withRxBuf b).tr = s.tr := rfl
@[simp] theorem State.withRxBuf_par : (s.withRxBuf b).par = s.par := rfl
@[simp] theorem State.withRxBuf_avail : (s.withRxBuf b).avail = s.avail := rfl
@[simp] theorem State.withRxBuf_rxRead : (s.withRxBuf b).rxRead = s.rxRead := rfl
@[simp] theorem State.withRxBuf_data : (s.withRxBuf b).data = [] := rfl
@[simp] theorem State.withRxBuf_ended : (s.withRxBuf b).ended = s.ended := rfl
@[simp] theorem State.withRxBuf_closing : (s.withRxBuf b).closing = s.closing := rfl
@[simp] theorem State.withRxBuf_opening : (s.withRxBuf b).opening = s.opening := rfl
@[simp] theorem State.withRxBuf_uat : (s.withRxBuf b).uat = s.uat := rfl
@[simp] theorem State.withRxBuf_uesc : (s.withRxBuf b).uesc = s.uesc := rfl
@[simp] theorem State.withRxBuf_uout : (s.withRxBuf b).uout = s.uout := rfl
@[simp] theorem State.withRxBuf_argIn : (s.withRxBuf b).argIn = s.argIn := rfl
@[simp] theorem State.withRxBuf_res : (s.withRxBuf b).res = s.res := rfl
@[simp] theorem State.withRxBuf_resPut : (s.withRxBuf b).resPut = s.resPut := rfl
@[simp] theorem State.withRxBuf_evt : (s.withRxBuf b).evt = s.evt := rfl
@[simp] theorem State.withRxBuf_evtPut : (s.withRxBuf b).evtPut = s.evtPut := rfl
@[simp] theorem State.withRxBuf_hangs : (s.withRxBuf b).hangs = s.hangs := rfl
@[simp] theorem State.withRxBuf_lateOpen : (s.withRxBuf b).lateOpen = s.lateOpen := rfl
@[simp] theorem State.withRxBuf_emits : (s.withRxBuf b).emits = s.emits := rfl
@[simp] theorem State.withRxBuf_got : (s.withRxBuf b).got = s.got := rfl
@[simp] theorem State.withRxBuf_caller : (s.withRxBuf b).caller = s.caller := rfl
@[simp] theorem State.withRxBuf_inputs : (s.withRxBuf b).inputs = s.inputs := rfl

end withRxBuf

/-! `State.withScanned` -/

section withScanned

variable (s : State) (b : Bytes)

@[simp] theorem State.withScanned_acc : (s.withScanned b).acc = s.acc := rfl
@[simp] theorem State.withScanned_rxBuf : (s.withScanned b).rxBuf = keepCap s.par.rxBufCap b := rfl
@[simp] theorem State.withScanned_txq : (s.withScanned b).txq = s.txq := rfl
@[simp] theorem State.withScanned_phase : (s.withScanned b).phase = s.phase := rfl
@[simp] theorem State.withScanned_stop : (s.withScanned b).stop = s.stop := rfl
@[simp] theorem State.withScanned_run : (s.withScanned b).run = s.run := rfl
@[simp] theorem State.withScanned_fault : (s.withScanned b).fault = s.fault := rfl
@[simp] theorem State.withScanned_inCb : (s.withScanned b).inCb = s.inCb := rfl
@[simp] theorem State.withScanned_cb : (s.withScanned b).cb = s.cb := rfl
@[simp] theorem State.withScanned_tBound : (s.withScanned b).tBound = s.tBound := rfl
@[simp] theorem State.withScanned_tr : (s.withScanned b).tr = s.tr := rfl
@[simp] theorem State.withScanned_par : (s.withScanned b).par = s.par := rfl
@[simp] theorem State.withScanned_avail : (s.withScanned b).avail = s.avail := rfl
@[simp] theorem State.withScanned_rxRead : (s.withScanned b).rxRead = s.rxRead := rfl
@[simp] theorem State.withScanned_data : (s.withScanned b).data = beyondCap s.par.rxBufCap b := rfl
@[simp] theorem State.withScanned_ended : (s.withScanned b).ended = s.ended := rfl
@[simp] theorem State.withScanned_closing : (s.withScanned b).closing = s.closing := rfl
@[simp] theorem State.withScanned_opening : (s.withScanned b).opening = s.opening := rfl
@[simp] theorem State.withScanned_uat : (s.withScanned b).uat = s.uat := rfl
@[simp] theorem State.withScanned_uesc : (s.withScanned b).uesc = s.uesc := rfl
@[simp] theorem State.withScanned_uout : (s.withScanned b).uout = s.uout := rfl
@[simp] theorem State.withScanned_argIn : (s.withScanned b).argIn = s.argIn := rfl
@[simp] theorem State.withScanned_res : (s.withScanned b).res = s.res := rfl
@[simp] theorem State.withScanned_resPut : (s.withScanned b).resPut = s.resPut := rfl
@[simp] theorem State.withScanned_evt : (s.withScanned b).evt = s.evt := rfl
@[simp] theorem State.withScanned_evtPut : (s.withScanned b).evtPut = s.evtPut := rfl
@[simp] theorem State.withScanned_hangs : (s.withScanned b).hangs = s.hangs := rfl
@[simp] theorem State.withScanned_lateOpen : (s.withScanned b).lateOpen = s.lateOpen := rfl
@[simp] theorem State.withScanned_emits : (s.withScanned b).emits = s.emits := rfl
@[simp] theorem State.withScanned_got : (s.withScanned b).got = s.got := rfl
@[simp] theorem State.withScanned_caller : (s.withScanned b).caller = s.caller := rfl
@[simp] theorem State.withScanned_inputs : (s.withScanned b).inputs = s.inputs := rfl

end withScanned

/-! `State.withTxq` -/

section withTxq

variable (s : State) (q : List Bytes)

@[simp] theorem State.withTxq_acc : (s.withTxq q).acc = s.acc := rfl
@[simp] theorem State.withTxq_rxBuf : (s.withTxq q).rxBuf = s.rxBuf := rfl
@[simp] theorem State.withTxq_txq : (s.withTxq q).txq = q := rfl
@[simp] theorem State.withTxq_phase : (s.withTxq q).phase = s.phase := rfl
@[simp] theorem State.withTxq_stop : (s.withTxq q).stop = s.stop := rfl
@[simp] theorem State.withTxq_run : (s.withTxq q).run = s.run := rfl
@[simp] theorem State.withTxq_fault : (s.withTxq q).fault = s.fault := rfl
@[simp] theorem State.withTxq_inCb : (s.withTxq q).inCb = s.inCb := rfl
@[simp] theorem State.withTxq_cb : (s.withTxq q).cb = s.cb := rfl
@[simp] theorem State.withTxq_tBound : (s.withTxq q).tBound = s.tBound := rfl
@[simp] theorem State.withTxq_tr : (s.withTxq q).tr = s.tr := rfl
@[simp] theorem State.withTxq_par : (s.withTxq q).par = s.par := rfl
@[simp] theorem State.withTxq_avail : (s.withTxq q).avail = s.avail := rfl
@[simp] theorem State.withTxq_rxRead : (s.withTxq q).rxRead = s.rxRead := rfl
@[simp] theorem State.withTxq_data : (s.withTxq q).data = s.data := rfl
@[simp] theorem State.withTxq_ended : (s.withTxq q).ended = s.ended := rfl
@[simp] theorem State.withTxq_closing : (s.withTxq q).closing = s.closing := rfl
@[simp] theorem State.withTxq_opening : (s.withTxq q).opening = s.opening := rfl
@[simp] theorem State.withTxq_uat : (s.withTxq q).uat = s.uat := rfl
@[simp] theorem State.withTxq_uesc : (s.withTxq q).uesc = s.uesc := rfl
@[simp] theorem State.withTxq_uout : (s.withTxq q).uout = s.uout := rfl
@[simp] theorem State.withTxq_argIn : (s.withTxq q).argIn = s.argIn := rfl
@[simp] theorem State.withTxq_res : (s.withTxq q).res = s.res := rfl
@[simp] theorem State.withTxq_resPut : (s.withTxq q).resPut = s.resPut := rfl
@[simp] theorem State.withTxq_evt : (s.withTxq q).evt = s.evt := rfl
@[simp] theorem State.withTxq_evtPut : (s.withTxq q).evtPut = s.evtPut := rfl
@[simp] theorem State.withTxq_hangs : (s.withTxq q).hangs = s.hangs := rfl
@[simp] theorem State.withTxq_lateOpen : (s.withTxq q).lateOpen = s.lateOpen := rfl
@[simp] theorem State.withTxq_emits : (s.withTxq q).emits = s.emits := rfl
@[simp] theorem State.withTxq_got : (s.withTxq q).got = s.got := rfl
@[simp] theorem State.withTxq_caller : (s.withTxq q).caller = s.caller := rfl
@[simp] theorem State.withTxq_inputs : (s.withTxq q).inputs = s.inputs := rfl

end withTxq

/-! `State.withPhase` -/

section withPhase

variable (s : State) (p : Phase)

@[simp] theorem State.withPhase_acc : (s.withPhase p).acc = s.acc := rfl
@[simp] theorem State.withPhase_rxBuf : (s.withPhase p).rxBuf = s.rxBuf := rfl
@[simp] theorem State.withPhase_txq : (s.withPhase p).txq = s.txq := rfl
@[simp] theorem State.withPhase_phase : (s.withPhase p).phase = p := rfl
@[simp] theorem State.withPhase_stop : (s.withPhase p).stop = s.stop := rfl
@[simp] theorem State.withPhase_run : (s.withPhase p).run = s.run := rfl
@[simp] theorem State.withPhase_fault : (s.withPhase p).fault = s.fault := rfl
@[simp] theorem State.withPhase_inCb : (s.withPhase p).inCb = s.inCb := rfl
@[simp] theorem State.withPhase_cb : (s.withPhase p).cb = s.cb := rfl
@[simp] theorem State.withPhase_tBound : (s.withPhase p).tBound = s.tBound := rfl
@[simp] theorem State.withPhase_tr : (s.withPhase p).tr = s.tr := rfl
@[simp] theorem State.withPhase_par : (s.withPhase p).par = s.par := rfl
@[simp] theorem State.withPhase_avail : (s.withPhase p).avail = s.avail := rfl
@[simp] theorem State.withPhase_rxRead : (s.withPhase p).rxRead = s.rxRead := rfl
@[simp] theorem State.withPhase_data : (s.withPhase p).data = s.data := rfl
@[simp] theorem State.withPhase_ended : (s.withPhase p).ended = s.ended := rfl
@[simp] theorem State.withPhase_closing : (s.withPhase p).closing = s.closing := rfl
@[simp] theorem State.withPhase_opening : (s.withPhase p).opening = s.opening := rfl
@[simp] theorem State.withPhase_uat : (s.withPhase p).uat = s.uat := rfl
@[simp] theorem State.withPhase_uesc : (s.withPhase p).uesc = s.uesc := rfl
@[simp] theorem State.withPhase_uout : (s.withPhase p).uout = s.uout := rfl
@[simp] theorem State.withPhase_argIn : (s.withPhase p).argIn = s.argIn := rfl
@[simp] theorem State.withPhase_res : (s.withPhase p).res = s.res := rfl
@[simp] theorem State.withPhase_resPut : (s.withPhase p).resPut = s.resPut := rfl
@[simp] theorem State.withPhase_evt : (s.withPhase p).evt = s.evt := rfl
@[simp] theorem State.withPhase_evtPut : (s.withPhase p).evtPut = s.evtPut := rfl
@[simp] theorem State.withPhase_hangs : (s.withPhase p).hangs = s.hangs := rfl
@[simp] theorem State.withPhase_lateOpen : (s.withPhase p).lateOpen = s.lateOpen := rfl
@[simp] theorem State.withPhase_emits : (s.withPhase p).emits = s.emits := rfl
@[simp] theorem State.withPhase_got : (s.withPhase p).got = s.got := rfl
@[simp] theorem State.withPhase_caller : (s.withPhase p).caller = s.caller := rfl
@[simp] theorem State.withPhase_inputs : (s.withPhase p).inputs = s.inputs := rfl

end withPhase

/-! `State.withUnstuffer` -/

section withUnstuffer

variable (s : State) (u : Interior × Bool × Bytes)

@[simp] theorem State.withUnstuffer_acc : (s.withUnstuffer u).acc = s.acc := rfl
@[simp] theorem State.withUnstuffer_rxBuf : (s.withUnstuffer u).rxBuf = s.rxBuf := rfl
@[simp] theorem State.withUnstuffer_txq : (s.withUnstuffer u).txq = s.txq := rfl
@[simp] theorem State.withUnstuffer_phase : (s.withUnstuffer u).phase = s.phase := rfl
@[simp] theorem State.withUnstuffer_stop : (s.withUnstuffer u).stop = s.stop := rfl
@[simp] theorem State.withUnstuffer_run : (s.withUnstuffer u).run = s.run := rfl
@[simp] theorem State.withUnstuffer_fault : (s.withUnstuffer u).fault = s.fault := rfl
@[simp] theorem State.withUnstuffer_inCb : (s.withUnstuffer u).inCb = s.inCb := rfl
@[simp] theorem State.withUnstuffer_cb : (s.withUnstuffer u).cb = s.cb := rfl
@[simp] theorem State.withUnstuffer_tBound : (s.withUnstuffer u).tBound = s.tBound := rfl
@[simp] theorem State.withUnstuffer_tr : (s.withUnstuffer u).tr = s.tr := rfl
@[simp] theorem State.withUnstuffer_par : (s.withUnstuffer u).par = s.par := rfl
@[simp] theorem State.withUnstuffer_avail : (s.withUnstuffer u).avail = s.avail := rfl
@[simp] theorem State.withUnstuffer_rxRead : (s.withUnstuffer u).rxRead = s.rxRead := rfl
@[simp] theorem State.withUnstuffer_data : (s.withUnstuffer u).data = s.data := rfl
@[simp] theorem State.withUnstuffer_ended : (s.withUnstuffer u).ended = s.ended := rfl
@[simp] theorem State.withUnstuffer_closing : (s.withUnstuffer u).closing = s.closing := rfl
@[simp] theorem State.withUnstuffer_opening : (s.withUnstuffer u).opening = s.opening := rfl
@[simp] theorem State.withUnstuffer_uat : (s.withUnstuffer u).uat = u.1 := rfl
@[simp] theorem State.withUnstuffer_uesc : (s.withUnstuffer u).uesc = u.2.1 := rfl
@[simp] theorem State.withUnstuffer_uout : (s.withUnstuffer u).uout = u.2.2 := rfl
@[simp] theorem State.withUnstuffer_argIn : (s.withUnstuffer u).argIn = s.argIn := rfl
@[simp] theorem State.withUnstuffer_res : (s.withUnstuffer u).res = s.res := rfl
@[simp] theorem State.withUnstuffer_resPut : (s.withUnstuffer u).resPut = s.resPut := rfl
@[simp] theorem State.withUnstuffer_evt : (s.withUnstuffer u).evt = s.evt := rfl
@[simp] theorem State.withUnstuffer_evtPut : (s.withUnstuffer u).evtPut = s.evtPut := rfl
@[simp] theorem State.withUnstuffer_hangs : (s.withUnstuffer u).hangs = s.hangs := rfl
@[simp] theorem State.withUnstuffer_lateOpen : (s.withUnstuffer u).lateOpen = s.lateOpen := rfl
@[simp] theorem State.withUnstuffer_emits : (s.withUnstuffer u).emits = s.emits := rfl
@[simp] theorem State.withUnstuffer_got : (s.withUnstuffer u).got = s.got := rfl
@[simp] theorem State.withUnstuffer_caller : (s.withUnstuffer u).caller = s.caller := rfl
@[simp] theorem State.withUnstuffer_inputs : (s.withUnstuffer u).inputs = s.inputs := rfl

end withUnstuffer

/-! `State.withInputs` -/

section withInputs

variable (s : State) (is : List Input)

@[simp] theorem State.withInputs_acc : (s.withInputs is).acc = s.acc := rfl
@[simp] theorem State.withInputs_rxBuf : (s.withInputs is).rxBuf = s.rxBuf := rfl
@[simp] theorem State.withInputs_txq : (s.withInputs is).txq = s.txq := rfl
@[simp] theorem State.withInputs_phase : (s.withInputs is).phase = s.phase := rfl
@[simp] theorem State.withInputs_stop : (s.withInputs is).stop = s.stop := rfl
@[simp] theorem State.withInputs_run : (s.withInputs is).run = s.run := rfl
@[simp] theorem State.withInputs_fault : (s.withInputs is).fault = s.fault := rfl
@[simp] theorem State.withInputs_inCb : (s.withInputs is).inCb = s.inCb := rfl
@[simp] theorem State.withInputs_cb : (s.withInputs is).cb = s.cb := rfl
@[simp] theorem State.withInputs_tBound : (s.withInputs is).tBound = s.tBound := rfl
@[simp] theorem State.withInputs_tr : (s.withInputs is).tr = s.tr := rfl
@[simp] theorem State.withInputs_par : (s.withInputs is).par = s.par := rfl
@[simp] theorem State.withInputs_avail : (s.withInputs is).avail = s.avail := rfl
@[simp] theorem State.withInputs_rxRead : (s.withInputs is).rxRead = s.rxRead := rfl
@[simp] theorem State.withInputs_data : (s.withInputs is).data = s.data := rfl
@[simp] theorem State.withInputs_ended : (s.withInputs is).ended = s.ended := rfl
@[simp] theorem State.withInputs_closing : (s.withInputs is).closing = s.closing := rfl
@[simp] theorem State.withInputs_opening : (s.withInputs is).opening = s.opening := rfl
@[simp] theorem State.withInputs_uat : (s.withInputs is).uat = s.uat := rfl
@[simp] theorem State.withInputs_uesc : (s.withInputs is).uesc = s.uesc := rfl
@[simp] theorem State.withInputs_uout : (s.withInputs is).uout = s.uout := rfl
@[simp] theorem State.withInputs_argIn : (s.withInputs is).argIn = s.argIn := rfl
@[simp] theorem State.withInputs_res : (s.withInputs is).res = s.res := rfl
@[simp] theorem State.withInputs_resPut : (s.withInputs is).resPut = s.resPut := rfl
@[simp] theorem State.withInputs_evt : (s.withInputs is).evt = s.evt := rfl
@[simp] theorem State.withInputs_evtPut : (s.withInputs is).evtPut = s.evtPut := rfl
@[simp] theorem State.withInputs_hangs : (s.withInputs is).hangs = s.hangs := rfl
@[simp] theorem State.withInputs_lateOpen : (s.withInputs is).lateOpen = s.lateOpen := rfl
@[simp] theorem State.withInputs_emits : (s.withInputs is).emits = s.emits := rfl
@[simp] theorem State.withInputs_got : (s.withInputs is).got = s.got := rfl
@[simp] theorem State.withInputs_caller : (s.withInputs is).caller = s.caller := rfl
@[simp] theorem State.withInputs_inputs : (s.withInputs is).inputs = is := rfl

end withInputs

/-! `raiseFault` -/

section raiseFault

variable (f : FaultName) (s : State)

@[simp] theorem raiseFault_acc : (raiseFault f s).acc = s.acc := rfl
@[simp] theorem raiseFault_rxBuf : (raiseFault f s).rxBuf = s.rxBuf := rfl
@[simp] theorem raiseFault_txq : (raiseFault f s).txq = s.txq := rfl
@[simp] theorem raiseFault_phase : (raiseFault f s).phase = s.phase := rfl
@[simp] theorem raiseFault_stop : (raiseFault f s).stop = s.stop := rfl
@[simp] theorem raiseFault_run : (raiseFault f s).run = .faulted := rfl
@[simp] theorem raiseFault_fault : (raiseFault f s).fault = s.fault.or (some f) := rfl
@[simp] theorem raiseFault_inCb : (raiseFault f s).inCb = s.inCb := rfl
@[simp] theorem raiseFault_cb : (raiseFault f s).cb = s.cb := rfl
@[simp] theorem raiseFault_tBound : (raiseFault f s).tBound = s.tBound := rfl
@[simp] theorem raiseFault_tr : (raiseFault f s).tr = s.tr := rfl
@[simp] theorem raiseFault_par : (raiseFault f s).par = s.par := rfl
@[simp] theorem raiseFault_avail : (raiseFault f s).avail = s.avail := rfl
@[simp] theorem raiseFault_rxRead : (raiseFault f s).rxRead = s.rxRead := rfl
@[simp] theorem raiseFault_data : (raiseFault f s).data = [] := rfl
@[simp] theorem raiseFault_ended : (raiseFault f s).ended = true := rfl
@[simp] theorem raiseFault_closing : (raiseFault f s).closing = s.closing := rfl
@[simp] theorem raiseFault_opening : (raiseFault f s).opening = s.opening := rfl
@[simp] theorem raiseFault_uat : (raiseFault f s).uat = s.uat := rfl
@[simp] theorem raiseFault_uesc : (raiseFault f s).uesc = s.uesc := rfl
@[simp] theorem raiseFault_uout : (raiseFault f s).uout = s.uout := rfl
@[simp] theorem raiseFault_argIn : (raiseFault f s).argIn = s.argIn := rfl
@[simp] theorem raiseFault_res : (raiseFault f s).res = s.res := rfl
@[simp] theorem raiseFault_resPut : (raiseFault f s).resPut = s.resPut := rfl
@[simp] theorem raiseFault_evt : (raiseFault f s).evt = s.evt := rfl
@[simp] theorem raiseFault_evtPut : (raiseFault f s).evtPut = s.evtPut := rfl
@[simp] theorem raiseFault_hangs : (raiseFault f s).hangs = s.hangs := rfl
@[simp] theorem raiseFault_lateOpen : (raiseFault f s).lateOpen = s.lateOpen := rfl
@[simp] theorem raiseFault_emits : (raiseFault f s).emits = s.emits := rfl
@[simp] theorem raiseFault_got : (raiseFault f s).got = s.got := rfl
@[simp] theorem raiseFault_caller : (raiseFault f s).caller = s.caller := rfl
@[simp] theorem raiseFault_inputs : (raiseFault f s).inputs = s.inputs := rfl

end raiseFault

end Sys2Proof.Machine
end

