-- ==== Sys2Proof/Laws/Ops.lean ====
section
/-! SUPPORT. One lemma per shared operation (Machine/Ops.lean, Worker.lean, Arbiter.lean, Helpers.lean, Wire.lean) that
says everything it can do; proofs cite it and do not unfold the operation. -/

namespace Sys2Proof.Machine

/-! ## What a bounded buffer holds -/

@[simp] theorem keepCap_none (b : Bytes) : keepCap none b = b := rfl
@[simp] theorem keepCap_some (c : Nat) (b : Bytes) : keepCap (some c) b = b.take c := rfl
@[simp] theorem beyondCap_none (b : Bytes) : beyondCap none b = [] := rfl
@[simp] theorem beyondCap_some (c : Nat) (b : Bytes) : beyondCap (some c) b = b.drop c := rfl
@[simp] theorem overCap_none (n : Nat) : overCap none n = false := rfl
@[simp] theorem overCap_some (c n : Nat) : overCap (some c) n = decide (c < n) := rfl

/-- The bytes kept and the bytes that wait are all of them, in order. -/
@[simp] theorem keepCap_append_beyondCap (cap : Option Nat) (b : Bytes) : keepCap cap b ++ beyondCap cap b = b := by
  cases cap <;> simp

/-- The bytes kept fit. -/
theorem length_keepCap_le {cap : Option Nat} {c : Nat} (h : cap = some c) (b : Bytes) : (keepCap cap b).length ≤ c := by
  subst h; simp

/-- Bytes wait only where the buffer is full. -/
theorem cap_of_beyondCap_ne_nil {cap : Option Nat} {b : Bytes} (h : beyondCap cap b ≠ []) :
    cap = some (keepCap cap b).length := by
  cases cap with
  | none => exact absurd rfl h
  | some c => simp at h ⊢; omega

/-- What is written back to be scanned is what is scanned next. -/
@[simp] theorem scanned_withScanned (s : State) (b : Bytes) : scanned (s.withScanned b) = b := by
  simp [scanned, State.withScanned]

/-! ## The Transport primitives -/

/-- When the worker can use `T`. -/
theorem transportUsable_iff (s : State) : transportUsable s = true ↔ s.tBound = true ∧ s.tr.isOpen = true := by
  simp [transportUsable]

/-- `MemAvail` (R41, R45). -/
theorem memAvail_cases (s : State) :
    (memAvail s = none ∧ (transportUsable s = false ∨ s.tr.fails.avail = true))
      ∨ (memAvail s = some s.tr.inb.length ∧ transportUsable s = true ∧ s.tr.fails.avail = false) := by
  unfold memAvail
  cases transportUsable s <;> cases s.tr.fails.avail <;> simp

/-- `MemRead` (R42, R45). -/
theorem readIntoBuffer_cases (n : Nat) (s : State) :
    (transportUsable s = true ∧ s.tr.fails.read = none ∧ readIntoBuffer n s = .done
        ({ s with tr := { s.tr with inb := s.tr.inb.drop n }, rxRead := true }.withScanned
          (scanned s ++ s.tr.inb.take n)))
      ∨ (∃ k, transportUsable s = true ∧ s.tr.fails.read = some k
        ∧ readIntoBuffer n s = .failed { s with tr := { s.tr with inb := s.tr.inb.drop (min k n) } })
      ∨ (transportUsable s = false ∧ readIntoBuffer n s = .failed s) := by
  unfold readIntoBuffer
  cases transportUsable s <;> cases s.tr.fails.read <;> simp [State.withTr]

/-- `MemWrite` (R43, R45). -/
theorem memWrite_cases (v : Bytes) (s : State) :
    (transportUsable s = true ∧ s.tr.fails.write = none
        ∧ memWrite v s = .done { s with tr := { s.tr with outb := s.tr.outb ++ v } })
      ∨ (∃ k, transportUsable s = true ∧ s.tr.fails.write = some k
        ∧ memWrite v s = .failed { s with tr := { s.tr with outb := s.tr.outb ++ v.take k } })
      ∨ (transportUsable s = false ∧ memWrite v s = .failed s) := by
  unfold memWrite
  cases transportUsable s <;> cases s.tr.fails.write <;> simp [State.withTr]

/-! ## `EXTRACT` -/

/-- A buffer is without `STX`, or splits at its first one. -/
theorem stx_split (b : Bytes) :
    Config.stx ∉ b ∨ ∃ a m, b = a ++ Config.stx :: m ∧ Config.stx ∉ a := by
  by_cases h : Config.stx ∈ b
  · obtain ⟨a, m, e, n⟩ := List.eq_append_cons_of_mem h
    exact .inr ⟨a, m, e, n⟩
  · exact .inl h

/-- Bytes are without `ETX`, or split at the first one. -/
theorem etx_split (b : Bytes) :
    Config.etx ∉ b ∨ ∃ a m, b = a ++ Config.etx :: m ∧ Config.etx ∉ a := by
  by_cases h : Config.etx ∈ b
  · obtain ⟨a, m, e, n⟩ := List.eq_append_cons_of_mem h
    exact .inr ⟨a, m, e, n⟩
  · exact .inl h

theorem dropWhile_ne_of_not_mem {c : Byte} {b : Bytes} (h : c ∉ b) : b.dropWhile (· != c) = [] := by
  rw [List.dropWhile_eq_nil_iff]
  intro x hx
  exact bne_iff_ne.2 (ne_of_mem_of_not_mem hx h)

theorem takeWhile_ne_of_not_mem {c : Byte} {b : Bytes} (h : c ∉ b) : b.takeWhile (· != c) = b := by
  rw [List.takeWhile_eq_self_iff]
  intro x hx
  exact bne_iff_ne.2 (ne_of_mem_of_not_mem hx h)

theorem dropWhile_ne_append {c : Byte} {a : Bytes} (m : Bytes) (h : c ∉ a) :
    (a ++ c :: m).dropWhile (· != c) = c :: m := by
  rw [List.dropWhile_append_of_pos (by intro x hx; exact bne_iff_ne.2 (ne_of_mem_of_not_mem hx h))]
  simp

theorem takeWhile_ne_append {c : Byte} {a : Bytes} (m : Bytes) (h : c ∉ a) :
    (a ++ c :: m).takeWhile (· != c) = a := by
  rw [List.takeWhile_append_of_pos (by intro x hx; exact bne_iff_ne.2 (ne_of_mem_of_not_mem hx h))]
  simp

theorem cut_noStx (cap : Option Nat) {b : Bytes} (h : Config.stx ∉ b) : cut cap b = .noStx := by
  simp [cut, fromStx, dropWhile_ne_of_not_mem h]

theorem cut_unfinished (cap : Option Nat) {a m : Bytes} (ha : Config.stx ∉ a) (hm : Config.etx ∉ m) :
    cut cap (a ++ Config.stx :: m) = if overCap cap (m.length + 1) = true then
      .overflow (keepCap cap (Config.stx :: m)) else .unfinished (Config.stx :: m) := by
  have e : Config.etx ∉ Config.stx :: m := by rw [List.mem_cons]; exact not_or.2 ⟨by decide, hm⟩
  simp [cut, fromStx, fromEtx, dropWhile_ne_append m ha, dropWhile_ne_of_not_mem e]

theorem cut_frame (cap : Option Nat) {a m : Bytes} (r : Bytes) (ha : Config.stx ∉ a) (hm : Config.etx ∉ m) :
    cut cap (a ++ Config.stx :: (m ++ Config.etx :: r)) = if overCap cap (m.length + 2) = true then
      .overflow (keepCap cap (Config.stx :: (m ++ Config.etx :: r)))
      else .frame (Config.stx :: (m ++ [Config.etx])) r := by
  have e : Config.etx ∉ Config.stx :: m := by rw [List.mem_cons]; exact not_or.2 ⟨by decide, hm⟩
  have d := dropWhile_ne_append (a := Config.stx :: m) r e
  have t := takeWhile_ne_append (a := Config.stx :: m) r e
  simp only [List.cons_append] at d t
  simp [cut, fromStx, fromEtx, uptoEtx, dropWhile_ne_append (m ++ Config.etx :: r) ha, d, t]

/-- Everything one pass of `EXTRACT` can do (R142, R145, R155). -/
theorem extractPass_cases (s : State) :
    (Config.stx ∉ scanned s
        ∧ extractPass s = .left { s with rxBuf := keepJunk s.par.rxBufCap (scanned s), data := [] })
      ∨ (∃ a m, scanned s = a ++ Config.stx :: m ∧ Config.stx ∉ a ∧ Config.etx ∉ m
        ∧ overCap s.par.rxBufCap (m.length + 1) = false
        ∧ extractPass s = .left { s with rxBuf := Config.stx :: m, data := [] })
      ∨ (∃ a m r, scanned s = a ++ Config.stx :: (m ++ Config.etx :: r) ∧ Config.stx ∉ a ∧ Config.etx ∉ m
        ∧ overCap s.par.rxBufCap (m.length + 2) = false
        ∧ extractPass s = .emitted (emitFrame (Config.stx :: (m ++ [Config.etx])) (s.withScanned r)))
      ∨ (∃ a m, scanned s = a ++ Config.stx :: m ∧ Config.stx ∉ a ∧ overCap s.par.rxBufCap (m.length + 1) = true
        ∧ extractPass s = .faulted (raiseFault .rxOverflow
          { s with rxBuf := keepCap s.par.rxBufCap (Config.stx :: m), data := [] })) := by
  rcases stx_split (scanned s) with h | ⟨a, m, e, ha⟩
  · exact .inl ⟨h, by simp [extractPass, cut_noStx _ h, State.withRxBuf]⟩
  · rcases etx_split m with hm | ⟨m, r, rfl, hm⟩
    · cases hc : overCap s.par.rxBufCap (m.length + 1)
      · exact .inr (.inl ⟨a, m, e, ha, hm, hc, by simp [extractPass, e, cut_unfinished _ ha hm, hc, State.withRxBuf]⟩)
      · exact .inr (.inr (.inr ⟨a, m, e, ha, hc, by
          simp [extractPass, e, cut_unfinished _ ha hm, hc, State.withRxBuf]⟩))
    · cases hc : overCap s.par.rxBufCap (m.length + 2)
      · exact .inr (.inr (.inl ⟨a, m, r, e, ha, hm, hc, by
          simp [extractPass, e, cut_frame _ r ha hm, hc]⟩))
      · refine .inr (.inr (.inr ⟨a, _, e, ha, ?_, by simp [extractPass, e, cut_frame _ r ha hm, hc, State.withRxBuf]⟩))
        cases hp : s.par.rxBufCap
        · simp [hp, overCap] at hc
        · simp [hp, overCap] at hc ⊢; omega

/-- `emit` (R152, R190, R162). -/
theorem emitFrame_eq (f : Bytes) (s : State) : emitFrame f s = { s with
    inCb := true, evtPut := 0, evt := some f, emits := s.emits ++ [f],
    got := if s.cb = some .linkRx then s.got ++ (decodeFrame s.par.crcInit f).toList else s.got } := by
  unfold emitFrame
  cases hc : s.cb with
  | none => simp
  | some c => cases c <;> simp [linkDeliver]

/-! ## The worker's phases -/

/-- Everything phase `CHECK` can do (R139). -/
theorem phaseCheck_cases (s : State) :
    (s.stop = true ∧ phaseCheck s = { s with ended := true })
      ∨ (s.stop = false ∧ (transportUsable s = false ∨ s.tr.fails.avail = true)
        ∧ phaseCheck s = raiseFault (.transportFault .avail) s)
      ∨ (s.stop = false ∧ transportUsable s = true ∧ s.tr.fails.avail = false ∧ phaseCheck s = { s with
        avail := s.tr.inb.length, phase := if 0 < s.tr.inb.length then .rx else .tx, rxRead := false }) := by
  unfold phaseCheck
  cases s.stop
  · rcases memAvail_cases s with ⟨e, h⟩ | ⟨e, h⟩ <;> simp [e, h]
  · simp

/-- Everything phase `TX` can do (R143). -/
theorem phaseTx_cases (s : State) :
    (s.txq = [] ∧ phaseTx s = { s with phase := .sleep })
      ∨ (∃ e q, s.txq = e :: q ∧ transportUsable s = true ∧ s.tr.fails.write = none ∧ phaseTx s = { s with
        txq := q, tr := { s.tr with outb := s.tr.outb ++ e }, phase := .sleep })
      ∨ (∃ e q k, s.txq = e :: q ∧ transportUsable s = true ∧ s.tr.fails.write = some k
        ∧ phaseTx s = raiseFault (.transportFault .write) { s with
          txq := q, tr := { s.tr with outb := s.tr.outb ++ e.take k } })
      ∨ (∃ e q, s.txq = e :: q ∧ transportUsable s = false
        ∧ phaseTx s = raiseFault (.transportFault .write) { s with txq := q }) := by
  unfold phaseTx
  cases h : s.txq with
  | nil => simpa [State.withPhase] using h
  | cons e q =>
    rcases memWrite_cases e (s.withTxq q) with ⟨hu, hw, e⟩ | ⟨k, hu, hw, e⟩ | ⟨hu, e⟩ <;>
      simp_all [transportUsable, State.withTxq, State.withPhase]

/-- Everything phase `RX` can do (R141): `EXTRACT` goes on, or first the one `MemRead`. -/
theorem phaseRx_cases (s : State) :
    (s.rxRead = true ∧ phaseRx s = extractInRx s)
      ∨ (s.rxRead = false ∧ transportUsable s = true ∧ s.tr.fails.read = none ∧ phaseRx s = extractInRx
        ({ s with tr := { s.tr with inb := s.tr.inb.drop s.avail }, rxRead := true }.withScanned
          (scanned s ++ s.tr.inb.take s.avail)))
      ∨ (∃ k, s.rxRead = false ∧ transportUsable s = true ∧ s.tr.fails.read = some k
        ∧ phaseRx s = raiseFault (.transportFault .read)
          { s with tr := { s.tr with inb := s.tr.inb.drop (min k s.avail) } })
      ∨ (s.rxRead = false ∧ transportUsable s = false ∧ phaseRx s = raiseFault (.transportFault .read) s) := by
  unfold phaseRx
  cases h : s.rxRead
  · rcases readIntoBuffer_cases s.avail s with ⟨hu, hf, e⟩ | ⟨k, hu, hf, e⟩ | ⟨hu, e⟩ <;> simp [*]
  · simp

/-- The end of a `CLOSE` (R150). -/
theorem closeFinish_cases (s : State) :
    (s.tr.fails.close = true ∧ closeFinish s = { s with
        txq := [], rxBuf := [], data := [], closing := false, resPut := 0, res := some ⟨.transportError .closeFailed, .nothing⟩ })
      ∨ (s.tr.fails.close = false ∧ closeFinish s = { s with
        txq := [], rxBuf := [], data := [], closing := false, tr := { s.tr with isOpen := false }, tBound := false,
        run := .closed, resPut := 0, res := some ⟨.ok, .nothing⟩ }) := by
  unfold closeFinish
  cases s.tr.fails.close <;> simp [State.withReply]

/-- The worker's turn. -/
theorem workerReady_iff (s : State) : workerReady s = true ↔ s.run = .running ∧ s.ended = false ∧ s.inCb = false := by
  simp [workerReady, and_assoc]

/-- Host code in the callback is in a running callback. -/
theorem inCb_of_hostInCallback {s : State} (h : hostInCallback s = true) : s.inCb = true := by
  simp [hostInCallback] at h; exact h.1

/-- When host code runs in the callback (R162). -/
theorem hostInCallback_iff (s : State) : hostInCallback s = true ↔
    s.inCb = true ∧ (s.cb ≠ some .linkRx ∨ ∃ f p, s.evt = some f ∧ decodeFrame s.par.crcInit f = some p) := by
  cases he : s.evt <;> simp [hostInCallback, he, Option.isSome_iff_exists]

/-- Everything the block does of itself. -/
theorem internalMove_cases (s : State) :
    (internalMove s = s ∧ (hostInCallback s = true ∨ (s.inCb = false ∧ workerReady s = false
        ∧ (s.closing && s.ended) = false)))
      ∨ (s.inCb = true ∧ hostInCallback s = false ∧ internalMove s = { s with inCb := false, evtPut := 0, evt := none })
      ∨ (workerReady s = true ∧ internalMove s = workerPhase s)
      ∨ (workerReady s = false ∧ s.inCb = false ∧ s.closing = true ∧ s.ended = true
        ∧ internalMove s = closeFinish s) := by
  unfold internalMove callbackReturn
  cases s.inCb <;> cases hostInCallback s <;> cases workerReady s <;> cases s.closing <;> cases s.ended <;> simp

/-- The step without a move of the environment (R151, R193, R215). -/
theorem defaultMove_cases (s : State) :
    (hostInCallback s = true ∧ s.hangs = true ∧ defaultMove s = s)
      ∨ (hostInCallback s = true ∧ s.hangs = false ∧ defaultMove s = { s with inCb := false, evtPut := 0, evt := none })
      ∨ (hostInCallback s = false ∧ defaultMove s = internalMove s) := by
  cases h : hostInCallback s
  · simp [defaultMove, h]
  · cases hh : s.hangs <;> simp [defaultMove, internalMove, callbackReturn, h, hh, inCb_of_hostInCallback h]

/-- The callback's return (R193). -/
theorem callbackReturn_cases (s : State) :
    (s.inCb = true ∧ callbackReturn s = { s with inCb := false, evtPut := 0, evt := none })
      ∨ (s.inCb = false ∧ callbackReturn s = s) := by
  unfold callbackReturn
  cases s.inCb <;> simp

/-- The callback's error (R187, U4). -/
theorem callbackError_cases (s : State) :
    (s.inCb = true ∧ callbackError s = raiseFault .callbackFault { s with inCb := false, evtPut := 0, evt := none })
      ∨ callbackError s = s := by
  unfold callbackError hostInCallback
  cases h : s.inCb
  · simp
  · rcases callbackReturn_cases s with ⟨_, e⟩ | ⟨e, _⟩
    · by_cases c : (true && (s.cb != some .linkRx || (s.evt.bind (decodeFrame s.par.crcInit)).isSome)) = true
      · simp only [c, if_true, e]; simp
      · simp only [c]; simp
    · rw [h] at e; cases e

/-! ## Commands -/

/-- The queue append of `SEND` (R137). -/
theorem sendBytes_cases (m : Bytes) (s : State) :
    (s.run ≠ .running ∧ sendBytes m s = { s with resPut := 0, res := some ⟨.transportError .notRunning, .nothing⟩ })
      ∨ (s.run = .running ∧ s.par.txqCap = some s.txq.length
        ∧ sendBytes m s = { s with resPut := 0, res := some ⟨.txQueueFull, .nothing⟩ })
      ∨ (s.run = .running ∧ s.par.txqCap ≠ some s.txq.length
        ∧ sendBytes m s = { s with txq := s.txq ++ [m], resPut := 0, res := some ⟨.ok, .nothing⟩ }) := by
  unfold sendBytes queueFull
  by_cases h : s.run = .running
  · cases hp : s.par.txqCap with
    | none => simp [h, State.withReply, State.withTxq]
    | some c =>
      by_cases hc : s.txq.length = c
      · simp [h, hc, State.withReply]
      · simp [h, hc, State.withReply, State.withTxq, Ne.symm hc]
  · simp [h, State.withReply]

/-- `OPEN` (R136, R209). -/
theorem execOpenT_cases (cb : Callback) (s : State) :
    (s.run ≠ .unopened ∧ execOpenT cb s
        = .next { s with resPut := 0, res := some ⟨.transportError .alreadyOpened, .nothing⟩ })
      ∨ (s.run = .unopened ∧ execOpenT cb s = .next { s with
        tBound := true, cb := some cb, rxBuf := [], txq := [], stop := false, inCb := false, fault := none, evt := none,
        evtPut := 0, phase := .check, avail := 0, rxRead := false, data := [], ended := false, closing := false,
        opening := s.lateOpen, run := .running, resPut := 0,
        res := if s.lateOpen = true then none else some ⟨.ok, .nothing⟩ }) := by
  unfold execOpenT
  by_cases h : s.run = .unopened
  · cases hl : s.lateOpen <;> simp [h, State.withReply]
  · simp [h, State.withReply]

/-- The return of `OPEN` (R209). -/
theorem openReturn_cases (s : State) :
    (s.opening = true ∧ openReturn s = { s with opening := false, resPut := 0, res := some ⟨.ok, .nothing⟩ })
      ∨ (s.opening = false ∧ openReturn s = s) := by
  unfold openReturn
  cases s.opening <;> simp [State.withReply]

/-- `CLOSE` (R150, U5). -/
theorem execClose_cases (s : State) :
    ((s.run = .closed ∨ s.run = .unopened) ∧ execClose s = .next { s with resPut := 0, res := some ⟨.ok, .nothing⟩ })
      ∨ (s.run ≠ .closed ∧ s.run ≠ .unopened ∧ s.ended = true ∧ execClose s = .next (closeFinish { s with stop := true }))
      ∨ (s.run ≠ .closed ∧ s.run ≠ .unopened ∧ s.ended = false ∧ s.caller = .callback ∧ hostInCallback s = true
        ∧ execClose s = .fault .closeInsideCallback)
      ∨ (s.run ≠ .closed ∧ s.run ≠ .unopened ∧ s.ended = false ∧ ¬(s.caller = .callback ∧ hostInCallback s = true)
        ∧ execClose s = .next { s with stop := true, closing := true, resPut := 0, res := none }) := by
  unfold execClose
  by_cases h1 : s.run = .closed
  · simp [h1, State.withReply]
  · by_cases h2 : s.run = .unopened
    · simp [h2, State.withReply]
    · cases h3 : s.ended
      · by_cases h4 : s.caller = .callback ∧ hostInCallback s = true <;> simp [h1, h2, h4]
      · simp [h1, h2]

/-- The integer helpers (R126 to R129). -/
theorem integerReply_cases (y : Bytes) (o w : Option Int) (read : Bytes → Value) (s : State) :
    (sliceOf y o w = none ∧ integerReply y o w read s = .refused .sliceOutsidePayload)
      ∨ (∃ sl, sliceOf y o w = some sl ∧ 8 < sl.length
        ∧ integerReply y o w read s = .next { s with resPut := 0, res := some ⟨.widthError sl.length, .nothing⟩ })
      ∨ (sliceOf y o w = some [] ∧ integerReply y o w read s = .refused .emptySlice)
      ∨ (∃ sl, sliceOf y o w = some sl ∧ 1 ≤ sl.length ∧ sl.length ≤ 8
        ∧ integerReply y o w read s = .next { s with resPut := 0, res := some ⟨.ok, read sl⟩ }) := by
  unfold integerReply
  cases h : sliceOf y o w with
  | none => simp
  | some sl =>
    by_cases h8 : 8 < sl.length
    · exact .inr (.inl ⟨sl, rfl, h8, by simp [maxIntegerBytes, h8, State.withReply]⟩)
    · by_cases h0 : sl = []
      · subst h0; exact .inr (.inr (.inl ⟨rfl, by simp [maxIntegerBytes]⟩))
      · exact .inr (.inr (.inr ⟨sl, rfl, by
          have := List.length_pos_of_ne_nil h0; omega, by omega, by simp [maxIntegerBytes, h8, h0, State.withReply]⟩))

/-! ## The wire -/

/-- A wire byte (R20 c, R101). -/
theorem wireIn_eq (c : Byte) (s : State) : wireIn c s = { s with
    tr := { s.tr with inb := s.tr.inb ++ [c] }, uat := (wireStep (s.uat, s.uesc, s.uout) c).1,
    uesc := (wireStep (s.uat, s.uesc, s.uout) c).2.1, uout := (wireStep (s.uat, s.uesc, s.uout) c).2.2 } := rfl

/-- Wire bytes one after another. -/
theorem foldl_wireIn (w : Bytes) (s : State) : w.foldl (fun t c => wireIn c t) s = { s with
    tr := { s.tr with inb := s.tr.inb ++ w }, uat := (w.foldl wireStep (s.uat, s.uesc, s.uout)).1,
    uesc := (w.foldl wireStep (s.uat, s.uesc, s.uout)).2.1, uout := (w.foldl wireStep (s.uat, s.uesc, s.uout)).2.2 } := by
  induction w generalizing s with
  | nil => simp
  | cons c w ih => rw [List.foldl_cons, ih]; simp [wireIn_eq]

/-- An `STX` outside begins an interior with nothing carried into it (R23). -/
theorem wireStep_begins (u : Bool × Bytes) : wireStep (.outside, u) Config.stx = (.framed, false, []) := rfl

/-- Outside, nothing but an `STX` is taken (R142). -/
theorem wireStep_outside (u : Bool × Bytes) {c : Byte} (h : c ≠ Config.stx) : wireStep (.outside, u) c = (.outside, u) := by
  simp [wireStep, h]

/-- The first `ETX` ends a candidate's interior (R68). -/
theorem wireStep_ends (u : Bool × Bytes) : wireStep (.framed, u) Config.etx = (.outside, u) := rfl

/-- In a candidate's interior a byte is unstuffed (R63, R101). -/
theorem wireStep_framed (u : Bool × Bytes) {c : Byte} (h : c ≠ Config.etx) :
    wireStep (.framed, u) c = (.framed, unstuffStep u c) := by
  simp [wireStep, h]

/-- In an interior given by itself every byte is unstuffed (R70 c). -/
theorem wireStep_given (u : Bool × Bytes) (c : Byte) : wireStep (.given, u) c = (.given, unstuffStep u c) := rfl

/-- Bytes without an `ETX` in a candidate's interior. -/
theorem foldl_wireStep_framed {w : Bytes} (h : Config.etx ∉ w) (u : Bool × Bytes) :
    w.foldl wireStep (.framed, u) = (.framed, w.foldl unstuffStep u) := by
  induction w generalizing u with
  | nil => rfl
  | cons c w ih =>
    rw [List.mem_cons, not_or] at h
    rw [List.foldl_cons, wireStep_framed u (Ne.symm h.1), ih h.2, List.foldl_cons]

/-- Any bytes in an interior given by itself. -/
theorem foldl_wireStep_given (w : Bytes) (u : Bool × Bytes) :
    w.foldl wireStep (.given, u) = (.given, w.foldl unstuffStep u) := by
  induction w generalizing u with
  | nil => rfl
  | cons c w ih => rw [List.foldl_cons, wireStep_given, ih, List.foldl_cons]

/-- A whole candidate on the line: whatever the unstuffer held before, it ends with what the interior alone gives (R23). -/
theorem foldl_wireStep_candidate {w : Bytes} (h : Config.etx ∉ w) (u : Bool × Bytes) :
    (Config.stx :: (w ++ [Config.etx])).foldl wireStep (.outside, u) = (.outside, w.foldl unstuffStep (false, [])) := by
  rw [List.foldl_cons, wireStep_begins, List.foldl_append, foldl_wireStep_framed h]
  rfl

end Sys2Proof.Machine
end

