-- ==== Sys2Proof/Laws/PerInstr.lean ====
section
/-! SUPPORT. Per constructor of `Instr`: the encoder lays an operation out as the kind of row the table gives it, or not at
all when the row carries no code (30_encoding.md R79, R80). -/

namespace Sys2Proof.Laws.EncodeFormat

/-- The encoding of an operation, where it has one, whatever `CRC_INIT`, is of the table's format. -/
def Statement (i : Instr) : Prop := ∀ init, ∀ e ∈ Sys2Proof.encode init i, e.format = i.format

theorem stx : Statement .stx := fun _ _ h => by cases h; rfl
theorem etx : Statement .etx := fun _ _ h => by cases h; rfl
theorem dle : Statement .dle := fun _ _ h => by cases h; rfl
theorem literal (v : Byte) : Statement (.literal v) := fun _ _ h => by cases h; rfl
theorem escStx : Statement .escStx := fun _ _ h => by cases h; rfl
theorem escEtx : Statement .escEtx := fun _ _ h => by cases h; rfl
theorem escDle : Statement .escDle := fun _ _ h => by cases h; rfl
theorem escAny (xx : Byte) : Statement (.escAny xx) := fun _ _ h => by cases h; rfl
theorem frame (d s : Byte) (p : Pid) (y : Bytes) : Statement (.frame d s p y) := fun _ _ h => by cases h; rfl
theorem nopReserved : Statement .nopReserved := fun _ _ h => by cases h; rfl
theorem crc8Clear : Statement .crc8Clear := fun _ _ h => by cases h; rfl
theorem crc8Update (b : Byte) : Statement (.crc8Update b) := fun _ _ h => by cases h; rfl
theorem crc8Calc (m : Bytes) : Statement (.crc8Calc m) := fun _ _ h => by cases h; rfl
theorem stuff (m : Bytes) : Statement (.stuff m) := fun _ _ h => by cases h; rfl
theorem unstuff (w : Bytes) : Statement (.unstuff w) := fun _ _ h => by cases h; rfl
theorem assemble (d s : Byte) (p : Pid) (y : Bytes) : Statement (.assemble d s p y) := fun _ _ h => by cases h; rfl
theorem encode (d s p : Int) (y : Bytes) : Statement (.encode d s p y) := fun _ _ h => by cases h; rfl
theorem decode (f : Bytes) : Statement (.decode f) := fun _ _ h => by cases h; rfl
theorem toUint (y : Bytes) (o w : Option Int) : Statement (.toUint y o w) := fun _ _ h => by cases h; rfl
theorem toInt (y : Bytes) (o w : Option Int) : Statement (.toInt y o w) := fun _ _ h => by cases h; rfl
theorem toText (y : Bytes) (o w : Option Int) (b : Bool) : Statement (.toText y o w b) := fun _ _ h => by cases h; rfl
theorem openT (cb : Callback) : Statement (.openT cb) := fun _ _ h => by cases h; rfl
theorem send (m : Bytes) : Statement (.send m) := fun _ _ h => by cases h; rfl
theorem close : Statement .close := fun _ _ h => by cases h; rfl
theorem linkTx (d s p : Int) (y : Bytes) : Statement (.linkTx d s p y) := fun _ _ h => by cases h; rfl
theorem crc8Bitstep (a : Byte) : Statement (.crc8Bitstep a) := fun _ _ h => by cases h
theorem validate (d s p : Int) (y : Bytes) : Statement (.validate d s p y) := fun _ _ h => by cases h
theorem poll : Statement .poll := fun _ _ h => by cases h
theorem extract : Statement .extract := fun _ _ h => by cases h
theorem linkRx (f : Bytes) : Statement (.linkRx f) := fun _ _ h => by cases h

end Sys2Proof.Laws.EncodeFormat
end

