-- ==== Sys2Proof/Laws/Step.lean ====
section
/-! SUPPORT. Everything a step can do, said once (`step_cases`); invariants follow from it by cases. -/

namespace Sys2Proof.Machine

/-- `t` is `s` but for the CRC accumulator, the streaming unstuffer, the result port, a call of `OPEN` that may have
returned, the issuer of the command, the moves to come, and more bytes at the end of `T.in`; the result port holds the result
it held, or none of its stream is out. -/
def Quiet (s t : State) : Prop :=
  ∃ (a : Byte) (u : Interior × Bool × Bytes) (r : Option Reply) (k : Nat) (w : Caller) (is : List Input) (more : Bytes)
      (o : Bool), t = { s with
      opening := o, acc := a, uat := u.1, uesc := u.2.1, uout := u.2.2, res := r, resPut := k, caller := w, inputs := is,
      tr := { s.tr with inb := s.tr.inb ++ more } }
      ∧ (k = 0 ∨ (r = s.res ∧ k = s.resPut)) ∧ (o = true → s.opening = true)

theorem Quiet.of_reply (s : State) (a : Byte) (r : Option Reply) : Quiet s { s with acc := a, res := r, resPut := 0 } :=
  ⟨a, (s.uat, s.uesc, s.uout), r, 0, s.caller, s.inputs, [], s.opening, by simp, .inl rfl, id⟩

theorem Quiet.of_openReturn (s : State) : Quiet s (openReturn s) := by
  rcases openReturn_cases s with ⟨_, e⟩ | ⟨_, e⟩ <;> rw [e]
  · exact ⟨s.acc, (s.uat, s.uesc, s.uout), some ⟨.ok, .nothing⟩, 0, s.caller, s.inputs, [], false, by simp, .inl rfl, nofun⟩
  · exact ⟨s.acc, (s.uat, s.uesc, s.uout), s.res, s.resPut, s.caller, s.inputs, [], s.opening, by simp, .inr ⟨rfl, rfl⟩, id⟩

theorem Quiet.of_acc (s : State) (a : Byte) (is : List Input) : Quiet s { s with acc := a, inputs := is } :=
  ⟨a, (s.uat, s.uesc, s.uout), s.res, s.resPut, s.caller, is, [], s.opening, by simp, .inr ⟨rfl, rfl⟩, id⟩

theorem Quiet.of_inputs (s : State) (is : List Input) : Quiet s { s with inputs := is } := Quiet.of_acc s s.acc is

theorem Quiet.of_wire (s : State) (u : Interior × Bool × Bytes) (is : List Input) (more : Bytes) : Quiet s { s with
    uat := u.1, uesc := u.2.1, uout := u.2.2, inputs := is, tr := { s.tr with inb := s.tr.inb ++ more } } :=
  ⟨s.acc, u, s.res, s.resPut, s.caller, is, more, s.opening, rfl, .inr ⟨rfl, rfl⟩, id⟩

/-- A whole frame (R60). -/
theorem frameIn_eq (d sr : Byte) (p : Pid) (y : Bytes) (s : State) : frameIn d sr p y s =
    let u := (assembleFrame s.par.crcInit d sr p y).foldl wireStep (s.uat, s.uesc, s.uout)
    { s with
      tr := { s.tr with inb := s.tr.inb ++ assembleFrame s.par.crcInit d sr p y }, uat := u.1, uesc := u.2.1,
      uout := u.2.2 } := foldl_wireIn _ s

/-! ## The pins (R38) -/

/-- `v` is `s` but for what the ports take in and put out: the CRC accumulator, the streaming unstuffer, more bytes at the
end of `T.in`, `T.out` further on the line, the result and event streams further out, the operand bytes of the command
port, the issuer and the moves to come. No stream puts out more than it holds. -/
def Streamed (s v : State) : Prop :=
  ∃ (a : Byte) (u : Interior × Bool × Bytes) (more : Bytes) (n kr ke : Nat) (args : Bytes) (w : Caller) (is : List Input),
    v = { s with
      acc := a, uat := u.1, uesc := u.2.1, uout := u.2.2, resPut := kr, evtPut := ke, argIn := args, caller := w, inputs := is,
      tr := { s.tr with inb := s.tr.inb ++ more, sent := s.tr.sent + n } }
      ∧ (kr = s.resPut ∨ kr ≤ (resStream s).length) ∧ (ke = s.evtPut ∨ ke ≤ (evtStream s).length)
      ∧ (n = 0 ∨ s.tr.sent + n ≤ s.tr.outb.length)

/-- The ports move, and then the callback may return, `evt_ack` (R38). -/
def Edge (s u : State) : Prop := ∃ v, Streamed s v ∧ (u = v ∨ u = callbackReturn v)

theorem Streamed.of_port (s : State) (w : Caller) (is : List Input) : Streamed s { s with inputs := is, caller := w } :=
  ⟨s.acc, (s.uat, s.uesc, s.uout), [], 0, s.resPut, s.evtPut, s.argIn, w, is, by simp, .inl rfl, .inl rfl, .inl rfl⟩

theorem Edge.of_unstuffer (s : State) (u : Interior × Bool × Bytes) (is : List Input) :
    Edge s { s with uat := u.1, uesc := u.2.1, uout := u.2.2, inputs := is } :=
  ⟨_, ⟨s.acc, u, [], 0, s.resPut, s.evtPut, s.argIn, s.caller, is, by simp, .inl rfl, .inl rfl, .inl rfl⟩, .inl rfl⟩

/-- Whatever follows a change of the moves to come. -/
theorem Streamed.of_inputs {s v : State} {is : List Input} (h : Streamed { s with inputs := is } v) : Streamed s v := h

theorem Edge.of_port (s : State) (w : Caller) (is : List Input) : Edge s { s with inputs := is, caller := w } :=
  ⟨_, Streamed.of_port s w is, .inl rfl⟩

theorem Edge.of_return (s : State) (is : List Input) : Edge s (callbackReturn { s with inputs := is }) :=
  ⟨_, Streamed.of_port s s.caller is, .inr rfl⟩

/-- A stream moves on by a byte it holds, or stands. -/
theorem putNext_cases (stream : Bytes) (put : Nat) : putNext stream put = put ∨ putNext stream put ≤ stream.length := by
  unfold putNext; split <;> omega

/-- What the writer puts on the line: no more than `T.out` holds, and with an echo it comes back (R164). -/
theorem drainOut_eq (n : Nat) (s : State) : ∃ (m : Nat) (more : Bytes),
    drainOut n s = { s with tr := { s.tr with sent := s.tr.sent + m, inb := s.tr.inb ++ more } }
      ∧ (m = 0 ∨ s.tr.sent + m ≤ s.tr.outb.length) := by
  refine ⟨((s.tr.outb.drop s.tr.sent).take n).length, if s.tr.echo then (s.tr.outb.drop s.tr.sent).take n else [], ?_, ?_⟩
  · unfold drainOut State.withTr
    cases s.tr.echo <;> simp
  · simp; omega

theorem drainOut_streamed (n : Nat) (s : State) : Streamed s (drainOut n s) := by
  obtain ⟨m, more, e, h⟩ := drainOut_eq n s
  exact ⟨s.acc, (s.uat, s.uesc, s.uout), more, m, s.resPut, s.evtPut, s.argIn, s.caller, s.inputs, e, .inl rfl, .inl rfl, h⟩

/-- Everything an edge of `clk` does at the ports but the command port. -/
theorem portsEdge_edge (p : Pins) (s : State) : Edge s (portsEdge p s) := by
  have ha : ∃ a, crcPinEdge p.crcClear p.crcEn p.crcDin s = { s with acc := a } := by
    unfold crcPinEdge; split_ifs <;> exact ⟨_, rfl⟩
  obtain ⟨a, ea⟩ := ha
  have hw : ∃ (u : Interior × Bool × Bytes) (more : Bytes), rxPinEdge p.rxValid p.rxData { s with acc := a } = { s with
      acc := a, uat := u.1, uesc := u.2.1, uout := u.2.2, tr := { s.tr with inb := s.tr.inb ++ more } } := by
    unfold rxPinEdge
    split_ifs
    · exact ⟨_, [p.rxData], rfl⟩
    · exact ⟨(s.uat, s.uesc, s.uout), [], by simp⟩
  obtain ⟨u, more, ew⟩ := hw
  refine ⟨clockEdge p.txReady (rxPinEdge p.rxValid p.rxData (crcPinEdge p.crcClear p.crcEn p.crcDin s)), ?_, ?_⟩
  · rw [ea, ew]
    unfold clockEdge
    obtain ⟨m, more', e, h⟩ := drainOut_eq (if p.txReady then 1 else 0) { s with
      acc := a, uat := u.1, uesc := u.2.1, uout := u.2.2, tr := { s.tr with inb := s.tr.inb ++ more },
      resPut := putNext (resStream s) s.resPut, evtPut := putNext (evtStream s) s.evtPut }
    exact ⟨a, u, more ++ more', m, _, _, s.argIn, s.caller, s.inputs, e.trans (by simp), putNext_cases _ _,
      putNext_cases _ _, h⟩
  · unfold portsEdge; split_ifs <;> simp

/-- The command port's operand bytes and the issuer may change besides (R38). -/
theorem Edge.of_args {s u : State} (h : Edge s u) (args : Bytes) (w : Caller) : Edge s { u with argIn := args, caller := w } := by
  obtain ⟨v, ⟨a, x, more, n, kr, ke, args', w', is, rfl, hr, he, hn⟩, rfl | rfl⟩ := h
  · exact ⟨_, ⟨a, x, more, n, kr, ke, args, w, is, rfl, hr, he, hn⟩, .inl rfl⟩
  · refine ⟨_, ⟨a, x, more, n, kr, ke, args, w, is, rfl, hr, he, hn⟩, .inr ?_⟩
    unfold callbackReturn
    cases s.inCb <;> rfl

/-- Whatever follows a change of the moves to come. -/
theorem Edge.of_inputs {s u : State} {is : List Input} (h : Edge { s with inputs := is } u) : Edge s u := h

/-- The instructions that do more to the arbiter than let bytes in. -/
def Instr.actsOnArbiter : Instr → Bool
  | .openT _ | .send _ | .close | .linkTx _ _ _ _ | .poll | .extract | .linkRx _ => true
  | .stx | .etx | .dle | .literal _ | .escStx | .escEtx | .escDle | .escAny _ | .frame _ _ _ _ | .nopReserved
  | .crc8Clear | .crc8Update _ | .crc8Calc _ | .stuff _ | .unstuff _ | .assemble _ _ _ _ | .encode _ _ _ _
  | .decode _ | .toUint _ _ _ | .toInt _ _ _ | .toText _ _ _ _ | .crc8Bitstep _ | .validate _ _ _ _ => false

/-- `CRC8`, `FRAMER`, the helpers and the wire forms leave the arbiter alone (R22, R23, R202). -/
theorem exec_quiet {i : Instr} (hi : Instr.actsOnArbiter i = false) {s t : State} (h : exec i s = .next t) :
    Quiet s t := by
  have wire : ∀ c, Quiet s (wireIn c s) := fun c => wireIn_eq c s ▸ Quiet.of_wire s _ s.inputs [c]
  have pair : ∀ c, Quiet s (wirePairIn c s) := fun c => by
    simpa [wirePairIn, wireIn_eq] using
      Quiet.of_wire s (wireStep (wireStep (s.uat, s.uesc, s.uout) Config.dle) c) s.inputs [Config.dle, c]
  have reply : ∀ a r, Quiet s { s with acc := a, res := r, resPut := 0 } := Quiet.of_reply s
  have same : ∀ r, Quiet s { s with res := r, resPut := 0 } := fun r => Quiet.of_reply s s.acc r
  have integer : ∀ y o w rd, integerReply y o w rd s = .next t → Quiet s t := by
    intro y o w rd e
    rcases integerReply_cases y o w rd s with ⟨_, e'⟩ | ⟨_, _, _, e'⟩ | ⟨_, e'⟩ | ⟨_, _, _, _, e'⟩ <;> rw [e'] at e <;>
      cases e <;> exact same _
  cases i <;> simp only [Instr.actsOnArbiter, Bool.true_eq_false] at hi <;> simp only [exec] at h
  case stx => cases h; exact wire _
  case etx => cases h; exact wire _
  case dle => cases h; exact wire _
  case literal v => cases h; exact wire _
  case escStx => cases h; exact pair _
  case escEtx => cases h; exact pair _
  case escDle => cases h; exact pair _
  case escAny => cases h; exact pair _
  case frame d sr p y =>
    cases h
    rw [frameIn_eq]
    exact Quiet.of_wire s _ s.inputs _
  case nopReserved => cases h; exact same _
  case crc8Clear => cases h; exact reply _ _
  case crc8Update => cases h; exact reply _ _
  case crc8Calc => cases h; exact same _
  case stuff => cases h; exact same _
  case unstuff => unfold execUnstuff at h; split at h <;> cases h <;> exact same _
  case assemble => cases h; exact same _
  case encode => unfold execEncode at h; split at h <;> cases h <;> exact same _
  case decode => unfold execDecode at h; split at h <;> cases h <;> exact same _
  case toUint => exact integer _ _ _ _ h
  case toInt => exact integer _ _ _ _ h
  case toText => unfold execToText at h; split at h <;> cases h; exact same _
  case crc8Bitstep => cases h; exact same _
  case validate => cases h; exact same _

/-- `LINK.TX` is a refused `ENCODE` or a `SEND` (R161). -/
theorem execLinkTx_cases (d sr p : Int) (y : Bytes) (s : State) :
    (encodePacket s.par.crcInit d sr p y = [] ∧ execLinkTx d sr p y s
        = .next { s with resPut := 0, res := some ⟨.validationError, .nothing⟩ })
      ∨ (encodePacket s.par.crcInit d sr p y ≠ [] ∧ execLinkTx d sr p y s = .next (sendBytes (encodePacket s.par.crcInit d sr p y) s)) := by
  unfold execLinkTx
  cases h : encodePacket s.par.crcInit d sr p y with
  | nil => simp [State.withReply]
  | cons b m => simp

/-- The decoder gives no internal operation (R79, R80). -/
theorem decode_external {init : Byte} {e : Encoding} {i : Instr} (h : decode init e = .ok i) :
    i ≠ .poll ∧ i ≠ .extract ∧ ∀ f, i ≠ .linkRx f := by
  have key : i.format ≠ .internal := by
    cases e with
    | wireByte b => simp only [decode, decodeWireByte] at h; cases h; split_ifs <;> simp [Instr.format]
    | wirePair b c =>
      simp only [decode, decodeWirePair] at h
      split at h <;> cases h
      split_ifs <;> simp [Instr.format]
    | frame f =>
      simp only [decode, decodeWholeFrame] at h
      repeat' split at h
      all_goals cases h
      simp [Instr.format]
    | hostCmd op args =>
      simp only [decode, decodeHostCmd] at h
      split at h <;>
        try simp only [noOperands, decodeUpdate, decodeAssemble, decodeEncode, decodeToUint, decodeToInt, decodeToText,
          decodeOpen, decodeLinkTx] at h
      all_goals (repeat' split at h)
      all_goals cases h
      all_goals simp [Instr.format]
  refine ⟨?_, ?_, ?_⟩ <;> [skip; skip; intro f] <;> rintro rfl <;> exact key rfl

/-- What a decoded operation does: nothing to the arbiter, or what `OPEN`, `SEND` or `CLOSE` does. -/
def Commanded (u t : State) : Prop :=
  Quiet u t ∨ (∃ cb, execOpenT cb u = .next t) ∨ (∃ m, t = sendBytes m u) ∨ execClose u = .next t

/-- No decoded operation does anything else. -/
theorem exec_decoded_cases {init : Byte} {e : Encoding} {i : Instr} (hd : decode init e = .ok i) {s t : State} (h : exec i s = .next t) :
    Commanded s t := by
  obtain ⟨hp, hx, hl⟩ := decode_external hd
  cases hi : Instr.actsOnArbiter i with
  | false => exact .inl (exec_quiet hi h)
  | true =>
    cases i <;> simp only [Instr.actsOnArbiter, Bool.false_eq_true] at hi <;> simp only [exec] at h
    case openT cb => exact .inr (.inl ⟨cb, h⟩)
    case send m => cases h; exact .inr (.inr (.inl ⟨m, rfl⟩))
    case close => exact .inr (.inr (.inr h))
    case linkTx d sr p y =>
      rcases execLinkTx_cases d sr p y s with ⟨_, e'⟩ | ⟨_, e'⟩ <;> rw [e'] at h <;> cases h
      · exact .inl (Quiet.of_reply s s.acc _)
      · exact .inr (.inr (.inl ⟨_, rfl⟩))
    case poll => exact absurd rfl hp
    case extract => exact absurd rfl hx
    case linkRx f => exact absurd rfl (hl f)

/-- Everything a step can do (R20, R38, R58, R206, R208): the ports move, the callback returns, and a command is run; or
the block, or another agent, makes a move of its own. -/
theorem step_cases {s t : State} (h : step s = .next t) :
    (∃ u, Edge s u ∧ Commanded u t)
      ∨ (∃ is, t = internalMove { s with inputs := is })
      ∨ (∃ is, t = callbackError { s with inputs := is })
      ∨ (∃ is b o e, s.inputs = .openMedium b o e :: is ∧ t = openMedium b o e { s with inputs := is })
      ∨ (∃ is f, t = { s with inputs := is, tr := { s.tr with fails := f } })
      ∨ (∃ is h l, t = { s with inputs := is, hangs := h, lateOpen := l })
      ∨ (∃ is k, s.inputs = .rst k :: is ∧ t = resetMove k { s with inputs := is }) := by
  have port : ∀ {w is}, Commanded { s with inputs := is, caller := w } t → ∃ u, Edge s u ∧ Commanded u t :=
    fun hc => ⟨_, Edge.of_port s _ _, hc⟩
  have quiet : ∀ {u}, Edge s u → t = u → ∃ u, Edge s u ∧ Commanded u t :=
    fun {u} he ht => ⟨u, he, .inl (ht ▸ Quiet.of_inputs u u.inputs)⟩
  unfold step fetch at h
  cases hin : s.inputs with
  | nil =>
    simp only [hin] at h
    cases h
    rcases defaultMove_cases s with ⟨_, _, e⟩ | ⟨hc, _, e⟩ | ⟨hc, e⟩
    · exact .inl (quiet (Edge.of_port s s.caller s.inputs) e)
    · rcases callbackReturn_cases s with ⟨_, e'⟩ | ⟨e', _⟩
      · exact .inl (quiet (Edge.of_return s s.inputs) (by rw [e, e']))
      · rw [inCb_of_hostInCallback hc] at e'; cases e'
    · exact .inr (.inl ⟨s.inputs, e⟩)
  | cons m rest =>
    simp only [hin] at h
    cases m <;> simp only [fetchInput] at h
    case host w op args =>
      unfold fetchHost at h
      cases hd : decode s.par.crcInit (.hostCmd op args) with
      | error e => simp [hd] at h
      | ok i => exact .inl (port (exec_decoded_cases hd (by simpa [hd, State.withInputs] using h)))
    case line bytes =>
      unfold fetchLine at h
      cases hf : firstSymbol bytes with
      | none =>
        simp only [hf] at h
        cases h
        exact .inl (quiet (Edge.of_port s s.caller rest) rfl)
      | some p =>
        obtain ⟨e, more⟩ := p
        simp only [hf] at h
        cases hd : decode s.par.crcInit e with
        | error e => simp [hd] at h
        | ok i =>
          simp only [State.withInputs_par, hd] at h
          refine .inl (port (w := s.caller) (is := (pendingLine more (s.withInputs rest)).inputs)
            (exec_decoded_cases hd ?_))
          rw [← h]
          cases more <;> rfl
    case frame bytes =>
      unfold fetchFrame at h
      cases hd : decode s.par.crcInit (.frame bytes) with
      | error e =>
        simp only [State.withInputs_par, hd] at h
        cases h
        exact .inl (quiet (Edge.of_port s s.caller _) rfl)
      | ok i =>
        exact .inl (port (w := s.caller) (is := rest) (exec_decoded_cases hd (by simpa [hd, State.withInputs] using h)))
    case interior => cases h; exact .inl (quiet (Edge.of_unstuffer s (.given, false, []) rest) rfl)
    case interiorEnd =>
      cases h
      refine .inl (quiet ?_ rfl)
      unfold endInterior
      split
      · exact Edge.of_unstuffer s (.outside, s.uesc, s.uout) rest
      · exact Edge.of_port s s.caller rest
    case clk p =>
      have hedge : Edge s (portsEdge p (s.withInputs rest)) := (portsEdge_edge p (s.withInputs rest)).of_inputs
      unfold fetchClk fetchHost at h
      split_ifs at h
      · cases hd : decode { portsEdge p (s.withInputs rest) with argIn := [] }.par.crcInit
          (.hostCmd p.cmdOp (argsAt p (s.withInputs rest))) with
        | error e => simp [hd] at h
        | ok i =>
          simp only [hd] at h
          exact .inl ⟨_, hedge.of_args [] .host, exec_decoded_cases hd h⟩
      · cases h; exact .inl (quiet (hedge.of_args (argsAt p (s.withInputs rest)) (portsEdge p (s.withInputs rest)).caller) rfl)
      · cases h; exact .inl (quiet hedge rfl)
    case tick => cases h; exact .inr (.inl ⟨rest, rfl⟩)
    case cbReturn => cases h; exact .inl (quiet (Edge.of_return s rest) rfl)
    case cbError => cases h; exact .inr (.inr (.inl ⟨rest, rfl⟩))
    case drain n => cases h; exact .inl (quiet ⟨_, (drainOut_streamed n (s.withInputs rest)).of_inputs, .inl rfl⟩ rfl)
    case openMedium b o e => cases h; exact .inr (.inr (.inr (.inl ⟨rest, b, o, e, rfl, rfl⟩)))
    case health f => cases h; exact .inr (.inr (.inr (.inr (.inl ⟨rest, f, rfl⟩))))
    case cbHangs b => cases h; exact .inr (.inr (.inr (.inr (.inr (.inl ⟨rest, b, s.lateOpen, rfl⟩)))))
    case openLate b => cases h; exact .inr (.inr (.inr (.inr (.inr (.inl ⟨rest, s.hangs, b, rfl⟩)))))
    case openReturn => cases h; exact .inl (port (w := s.caller) (is := rest) (.inl (Quiet.of_openReturn _)))
    case rst k => cases h; exact .inr (.inr (.inr (.inr (.inr (.inr ⟨rest, k, rfl, rfl⟩)))))

end Sys2Proof.Machine
end

