-- ==== Sys2Proof/Tests/Slice0.lean ====
section
/-! SUPPORT. The model's own tests: ill-formed terms, words written out from the encodings of 30_encoding.md, the values of
95_test_vectors.md, and for every obligation with hypotheses a state and operands that meet them. -/

namespace Sys2Proof.Tests

open Sys2Proof Sys2Proof.Machine Sys2Proof.Safety

/-! ## Helpers -/

/-- The next state of an outcome. -/
def after (o : Host.Outcome State Fault Refusal) : Option State :=
  match o with
  | .next s => some s
  | .fault _ => none
  | .refused _ => none

/-- The result port after an operation on the reset state. -/
def resultOf (i : Instr) : Option Reply := (after (exec i State.reset)).bind (·.res)

/-- A running instance with the host's own callback. -/
def up : State := { State.reset with run := .running, tBound := true, cb := some .host }

/-- Bytes waiting in `T.in`. -/
def withLine (b : Bytes) (s : State) : State := { s with tr := { s.tr with inb := b } }

/-- The moves to come. -/
def moves (is : List Input) (s : State) : State := { s with inputs := is }

/-- A closed instance. -/
def closed : State := { State.reset with
  run := .closed, stop := true, ended := true, cb := some .host, tr := { Transport.fresh with isOpen := false } }

/-- Frame E1 of 95_test_vectors.md. -/
def e1 : Bytes := [0x02#8, 0xFF#8, 0x00#8, 0xFC#8, 0x00#8, 0x01#8, 0xA8#8, 0x04#8]

/-- Frame A1. -/
def a1 : Bytes :=
  [0x02#8, 0x00#8, 0x01#8, 0xFC#8, 0x00#8, 0x20#8, 0xFB#8, 0x7C#8, 0x00#8, 0x01#8, 0xC9#8, 0x04#8]

/-- The payload of 1.7. -/
def p17 : Bytes := [0xD4#8, 0x70#8, 0x22#8, 0x8D#8, 0x83#8, 0x8A#8, 0xCA#8, 0x04#8]

/-- A worker in phase `RX` inside the callback. -/
def inCallback : State :=
  { up with phase := .rx, avail := 1, rxRead := true, inCb := true, evt := some [0x02#8, 0x04#8], emits := [[0x02#8, 0x04#8]] }

/-- A worker that waits in phase `TX` with E1 queued. -/
def sending : State := { up with phase := .tx, txq := [e1] }

/-! ## Well-formedness: one ill-formed term for each check -/

theorem test_wf_literal : (Instr.literal 0x02#8).wf = false ∧ (Instr.literal 0x41#8).wf = true := by decide
theorem test_wf_literal_etx : (Instr.literal 0x04#8).wf = false := by decide
theorem test_wf_literal_dle : (Instr.literal 0x20#8).wf = false := by decide
theorem test_wf_escAny : (Instr.escAny 0xFD#8).wf = false ∧ (Instr.escAny 0xFB#8).wf = false
    ∧ (Instr.escAny 0xDF#8).wf = false ∧ (Instr.escAny 0xBE#8).wf = true := by decide
theorem test_wf_frame_empty : (Instr.frame 1#8 0#8 1#16 []).wf = false := by decide
theorem test_wf_frame_long : (Instr.frame 1#8 0#8 1#16 (List.replicate 36 0x55#8)).wf = false := by decide
theorem test_wf_encode : (Instr.encode 256 0 1 [1#8]).wf = false ∧ (Instr.encode 1 (-1) 1 [1#8]).wf = false
    ∧ (Instr.encode 1 0 65536 [1#8]).wf = false ∧ (Instr.encode 255 255 65535 []).wf = true := by decide
theorem test_wf_linkTx : (Instr.linkTx (-1) 0 1 [1#8]).wf = false ∧ (Instr.linkTx 1 256 1 []).wf = false := by decide
theorem test_wf_toUint : (Instr.toUint p17 (some (-1)) none).wf = false ∧ (Instr.toUint p17 (some 0) none).wf = true := by decide
theorem test_wf_toInt : (Instr.toInt p17 none (some (-1))).wf = false
    ∧ (Instr.toInt p17 none (some 65536)).wf = true := by decide
theorem test_wf_toText : (Instr.toText p17 (some (-1)) (some 0) true).wf = false := by decide

/-! ## Decoding: the words of R60, R63, R65, R66 and R79, every row -/

theorem test_decode_stx : decode 0x00#8 (.wireByte 0b00000010#8) = .ok .stx := by rfl
theorem test_decode_etx : decode 0x00#8 (.wireByte 0b00000100#8) = .ok .etx := by rfl
theorem test_decode_dle : decode 0x00#8 (.wireByte 0b00100000#8) = .ok .dle := by rfl
theorem test_decode_literal : decode 0x00#8 (.wireByte 0b00000011#8) = .ok (.literal 3#8) := by rfl
theorem test_decode_escStx : decode 0x00#8 (.wirePair 0b00100000#8 0b11111101#8) = .ok .escStx := by rfl
theorem test_decode_escEtx : decode 0x00#8 (.wirePair 0b00100000#8 0b11111011#8) = .ok .escEtx := by rfl
theorem test_decode_escDle : decode 0x00#8 (.wirePair 0b00100000#8 0b11011111#8) = .ok .escDle := by rfl
theorem test_decode_escAny : decode 0x00#8 (.wirePair 0b00100000#8 0b00100000#8) = .ok (.escAny 0x20#8) := by rfl
theorem test_decode_pair_refused : decode 0x00#8 (.wirePair 0x21#8 0xFD#8) = .error .notAnEscape := by rfl
theorem test_decode_frame : decode 0x00#8 (.frame e1) = .ok (.frame 0xFF#8 0x00#8 0xFC00#16 [1#8]) := by decide +kernel
theorem test_decode_frame_refused :
    decode 0x00#8 (.frame [0x02#8, 0x01#8, 0x00#8, 0x00#8, 0x20#8, 0xDF#8, 0xF6#8, 0x04#8]) = .error .notAFrame := by decide +kernel
theorem test_decode_nop : decode 0x00#8 (.hostCmd 0b0000#4 []) = .ok .nopReserved := by rfl
theorem test_decode_clear : decode 0x00#8 (.hostCmd 0b0001#4 []) = .ok .crc8Clear := by rfl
theorem test_decode_clear_refused : decode 0x00#8 (.hostCmd 0b0001#4 [0#8]) = .error .extraOperand := by rfl
theorem test_decode_update : decode 0x00#8 (.hostCmd 0b0010#4 [0x4C#8]) = .ok (.crc8Update 0x4C#8) := by rfl
theorem test_decode_update_refused : decode 0x00#8 (.hostCmd 0b0010#4 []) = .error .missingOperand := by rfl
theorem test_decode_calc : decode 0x00#8 (.hostCmd 0b0011#4 [0x4C#8, 0x69#8]) = .ok (.crc8Calc [0x4C#8, 0x69#8]) := by rfl
theorem test_decode_stuff : decode 0x00#8 (.hostCmd 0b0100#4 [0x41#8]) = .ok (.stuff [0x41#8]) := by rfl
theorem test_decode_unstuff : decode 0x00#8 (.hostCmd 0b0101#4 [0x20#8]) = .ok (.unstuff [0x20#8]) := by rfl
theorem test_decode_assemble : decode 0x00#8 (.hostCmd 0b0110#4 [0#8, 1#8, 0xFC#8, 0x01#8, 9#8])
    = .ok (.assemble 0#8 1#8 0xFC01#16 [9#8]) := by rfl
theorem test_decode_encode : decode 0x00#8 (.hostCmd 0b0111#4 [0xFF#8, 0x01#8, 0x80#8, 0x02#8]) = .ok (.encode 255 1 0x8002 []) := by rfl
theorem test_decode_decode : decode 0x00#8 (.hostCmd 0b1000#4 [0x02#8]) = .ok (.decode [0x02#8]) := by rfl
theorem test_decode_toUint : decode 0x00#8 (.hostCmd 0b1001#4 [3#8, 1#8, 2#8, 0xAA#8]) = .ok (.toUint [0xAA#8] (some 1) (some 2)) := by rfl
theorem test_decode_toUint_refused : decode 0x00#8 (.hostCmd 0b1001#4 [4#8]) = .error .badSelector := by rfl
theorem test_decode_toInt : decode 0x00#8 (.hostCmd 0b1010#4 [2#8, 8#8, 0xAA#8]) = .ok (.toInt [0xAA#8] none (some 8)) := by rfl
theorem test_decode_toText : decode 0x00#8 (.hostCmd 0b1011#4 [5#8, 6#8, 0x41#8]) = .ok (.toText [0x41#8] (some 6) none true) := by rfl
/-- An offset of 300 = 255 + 45 and a width of 255 = 255 + 0 (log 8). -/
theorem test_decode_toUint_long : decode 0x00#8 (.hostCmd 0b1001#4 [3#8, 0xFF#8, 45#8, 0xFF#8, 0#8, 0xAA#8])
    = .ok (.toUint [0xAA#8] (some 300) (some 255)) := by rfl
theorem test_decode_toText_refused : decode 0x00#8 (.hostCmd 0b1011#4 [1#8, 0xFF#8]) = .error .missingOperand := by rfl
theorem test_decode_open : decode 0x00#8 (.hostCmd 0b1100#4 [1#8]) = .ok (.openT .linkRx) := by rfl
theorem test_decode_open_refused : decode 0x00#8 (.hostCmd 0b1100#4 [2#8]) = .error .badSelector := by rfl
theorem test_decode_send : decode 0x00#8 (.hostCmd 0b1101#4 []) = .ok (.send []) := by rfl
theorem test_decode_close : decode 0x00#8 (.hostCmd 0b1110#4 []) = .ok .close := by rfl
theorem test_decode_linkTx : decode 0x00#8 (.hostCmd 0b1111#4 [0xFF#8, 0x00#8, 0xFC#8, 0x00#8, 0x01#8])
    = .ok (.linkTx 255 0 0xFC00 [1#8]) := by rfl

/-- The numbers of the opcode table, by the format of their row (R80): the 8-bit words 02 and 04 of the wire bytes and the
4-bit words 2 and 4 of the commands. -/
theorem test_row_words : rowEncoding .wireByte 1 0x02 = some (.wireByte 0x02#8)
    ∧ rowEncoding .wireByte 1 0x0F = some (.wireByte 0x0F#8) ∧ rowEncoding .hostCmd 1 0x2 = some (.hostCmd 0x2#4 [0#8])
    ∧ rowEncoding .hostCmd 1 0x4 = some (.hostCmd 0x4#4 []) ∧ rowEncoding .hostCmd 1 0x10 = none
    ∧ rowEncoding .wirePair 2 0x20FD = some (.wirePair 0x20#8 0xFD#8) := by decide

theorem test_table_words : decodeTableWord 8 0x20 = some .dle ∧ decodeTableWord 16 0x20FB = some .escEtx
    ∧ decodeTableWord 8 0xE = some .close ∧ decodeTableWord 4 0xF = some (.linkTx 0 0 0 []) := by decide

/-- A placed word is what the next step runs. -/
theorem test_withFetchWord : after (step (State.reset.withFetchWord 4 1))
    = after (exec .crc8Clear State.reset) := by rfl

/-! ## CRC8 (95_test_vectors.md 2.1, P1) -/

theorem test_bitstep : resultOf (.crc8Bitstep 0xFF#8) = some ⟨.ok, .byte 0xF9#8⟩
    ∧ resultOf (.crc8Bitstep 0x7F#8) = some ⟨.ok, .byte 0xFE#8⟩ := by decide
theorem test_clear : (after (exec .crc8Clear { State.reset with acc := 0xE3#8 })).map (·.acc) = some 0x00#8 := by decide
theorem test_update : (after (exec (.crc8Update 0x69#8) { State.reset with acc := 0xE3#8 })).map (·.acc) = some 0xBF#8 := by decide
theorem test_update_table : (after (exec (.crc8Update 0x4C#8) { State.reset with acc := 0xE3#8 })).map (·.acc) = some 0x44#8 := by decide
theorem test_calc : resultOf (.crc8Calc [0x31#8, 0x32#8, 0x33#8, 0x34#8, 0x35#8, 0x36#8, 0x37#8, 0x38#8, 0x39#8])
    = some ⟨.ok, .byte 0xF4#8⟩ := by decide +kernel
theorem test_calc_lilytronics : crcCalc 0x00#8 [0x4C#8, 0x69#8, 0x6C#8, 0x79#8, 0x54#8, 0x72#8, 0x6F#8, 0x6E#8, 0x69#8, 0x63#8, 0x73#8]
    = 0x2A#8 := by decide +kernel
/-- Another `CRC_INIT` of the instance (R10): the CRC of no bytes, and the cleared accumulator. -/
theorem test_crcInit : (after (exec (.crc8Calc []) { up with par := ⟨0xFF#8, none, none⟩ })).map (·.res)
      = some (some ⟨.ok, .byte 0xFF#8⟩)
    ∧ (after (exec .crc8Clear { up with par := ⟨0xFF#8, none, none⟩ })).map (·.acc) = some 0xFF#8 := by decide
theorem test_nop : resultOf .nopReserved = some ⟨.ok, .nothing⟩ := by decide

/-! ## Stuffing (2.2) -/

theorem test_stuff : resultOf (.stuff [0x02#8, 0x04#8, 0x20#8, 0xFD#8])
    = some ⟨.ok, .bytes [0x20#8, 0xFD#8, 0x20#8, 0xFB#8, 0x20#8, 0xDF#8, 0xFD#8]⟩ := by decide
theorem test_unstuff : resultOf (.unstuff [0x20#8, 0x20#8, 0x20#8, 0xBE#8, 0x02#8])
    = some ⟨.ok, .bytes [0xDF#8, 0x41#8, 0x02#8]⟩ := by rfl
theorem test_unstuff_fail : resultOf (.unstuff [0x20#8, 0x20#8, 0x20#8]) = some ⟨.frameError, .fail⟩ := by rfl

/-! ## Packets (2.3, 2.4) -/

theorem test_validate : resultOf (.validate 1 255 1 [0#8]) = some ⟨.ok, .truth true⟩
    ∧ resultOf (.validate 5 5 1 [1#8]) = some ⟨.ok, .truth false⟩ := by decide
theorem test_assemble : resultOf (.assemble 0#8 1#8 0xFC00#16 [4#8, 0x7C#8, 0#8, 1#8]) = some ⟨.ok, .bytes a1⟩ := by decide +kernel
theorem test_assemble_empty : resultOf (.assemble 1#8 0#8 1#16 [])
    = some ⟨.ok, .bytes [0x02#8, 0x01#8, 0x00#8, 0x00#8, 0x01#8, 0x11#8, 0x04#8]⟩ := by decide +kernel
theorem test_encode : resultOf (.encode 3 0 0x1234 [2#8])
    = some ⟨.ok, .bytes [0x02#8, 0x03#8, 0x00#8, 0x12#8, 0x34#8, 0x20#8, 0xFD#8, 0x71#8, 0x04#8]⟩ := by decide +kernel
theorem test_encode_refused : resultOf (.encode 0 1 0xFC00 [4#8]) = some ⟨.validationError, .bytes []⟩ := by rfl
theorem test_decode_packet : resultOf (.decode a1)
    = some ⟨.ok, .packet ⟨0#8, 1#8, 0xFC00#16, [4#8, 0x7C#8, 0#8, 1#8]⟩⟩ := by decide +kernel
theorem test_decode_crc : resultOf (.decode [0x02#8, 0xFF#8, 0x00#8, 0xFC#8, 0x00#8, 0x01#8, 0xA9#8, 0x04#8])
    = some ⟨.frameError, .noPacket⟩ := by decide +kernel

/-! ## Helpers (1.7, 2.5) -/

theorem test_toUint : resultOf (.toUint p17 (some 0) (some 8)) = some ⟨.ok, .natural 15307773124624960004⟩ := by rfl
theorem test_toUint_width : resultOf (.toUint (p17 ++ [0#8]) (some 0) (some 9)) = some ⟨.widthError 9, .nothing⟩ := by rfl
/-- A slice that begins at byte 300 of a payload (R24, R126). -/
theorem test_toUint_far : resultOf (.toUint (List.replicate 300 0#8 ++ [0x12#8, 0x34#8]) (some 300) none)
    = some ⟨.ok, .natural 0x1234⟩ := by decide +kernel
theorem test_toInt : resultOf (.toInt p17 (some 0) (some 8)) = some ⟨.ok, .integer (-3138970949084591612)⟩ := by decide +kernel
theorem test_toInt_low : resultOf (.toInt [0x00#8, 0x80#8] none none) = some ⟨.ok, .integer 128⟩ := by decide +kernel
theorem test_toText : resultOf (.toText [0x1F#8, 0x20#8, 0x7E#8, 0x7F#8] none none true)
    = some ⟨.ok, .text [.ascii 0x2E#8, .ascii 0x20#8, .ascii 0x7E#8, .ascii 0x2E#8]⟩ := by rfl
theorem test_toText_codepage : resultOf (.toText [0x80#8, 0x41#8] none none false)
    = some ⟨.ok, .text [.codePage 0x80#8, .ascii 0x41#8]⟩ := by rfl

/-! ## The wire (2.2, R101) -/

theorem test_stx : (after (exec .stx State.reset)).map (·.tr.inb) = some [0x02#8] := by decide
/-- A line in the interior of a candidate frame. -/
def inFrame : State := { up with uat := .framed }

/-- An interior given by itself. -/
def inGiven : State := { up with uat := .given }

theorem test_etx : (after (exec .etx { inGiven with uesc := true })).map (·.uout) = some [0xFB#8] := by decide
theorem test_etx_ends : (after (exec .etx { inFrame with uesc := true })).map (fun t => (t.uat, unstufferResult t))
    = some (.outside, none) := by decide
theorem test_dle : (after (exec .dle inFrame)).map (·.uesc) = some true := by decide
theorem test_literal : (after (exec (.literal 0x00#8) { inFrame with uesc := true })).map (·.uout) = some [0xFF#8] := by decide
theorem test_escStx : (after (exec .escStx inFrame)).map (·.uout) = some [0x02#8] := by decide
theorem test_escEtx : (after (exec .escEtx inFrame)).map (·.uout) = some [0x04#8] := by decide
theorem test_escDle : (after (exec .escDle inFrame)).map (·.uout) = some [0x20#8] := by decide
theorem test_escAny : (after (exec (.escAny 0xBE#8) inFrame)).map (·.uout) = some [0x41#8] := by decide

/-- R23: a candidate that ends on an unpaired prefix (R70 a) leaves nothing for the next one. -/
theorem test_no_carry : (after (exec (.literal 0x41#8) (wireIn Config.stx (wireIn Config.etx (wireIn Config.dle inFrame))))).map
    (·.uout) = some [0x41#8] := by decide
theorem test_frame : (after (exec (.frame 0xFF#8 0x00#8 0xFC00#16 [1#8]) State.reset)).map (fun t => (t.tr.inb, t.uout))
    = some (e1, [0xFF#8, 0x00#8, 0xFC#8, 0x00#8, 0x01#8, 0xA8#8]) := by decide +kernel

/-! ## The arbiter (2.6, P2, P3, P6) -/

theorem test_open : (after (exec (.openT .linkRx) State.reset)).map (fun t => (t.run, t.phase)) = some (.running, .check) := by decide
theorem test_open_again : (after (exec (.openT .host) closed)).map (·.res)
    = some (some ⟨.transportError .alreadyOpened, .nothing⟩) := by decide
theorem test_send : (after (exec (.send [9#8]) sending)).map (·.txq) = some [e1, [9#8]] := by decide
theorem test_send_closed : (after (exec (.send e1) closed)).map (·.res)
    = some (some ⟨.transportError .notRunning, .nothing⟩) := by decide
theorem test_close : (after (exec .close sending)).map (fun t => (t.stop, t.run, t.txq)) = some (true, .running, [e1]) := by decide
theorem test_close_ended : (after (exec .close { sending with ended := true })).map (fun t => (t.run, t.txq, t.tr.isOpen))
    = some (.closed, [], false) := by decide
theorem test_linkTx : (after (exec (.linkTx 255 0 0xFC00 [1#8]) up)).map (·.txq) = some [e1] := by decide +kernel
theorem test_linkTx_refused : (after (exec (.linkTx 0 1 0xFC00 [4#8]) up)).map (fun t => (t.txq, t.res))
    = some ([], some ⟨.validationError, .nothing⟩) := by rfl
theorem test_poll : (after (exec .poll { up with txq := [e1, a1] })).map (fun t => (t.txq, t.tr.outb, t.phase))
    = some ([a1], e1, .check) := by rfl
theorem test_poll_receives : (after (exec .poll (withLine [0x02#8, 0x07#8] { up with txq := [e1] }))).map
    (fun t => (t.txq, t.rxBuf, t.tr.outb)) = some ([e1], [0x02#8, 0x07#8], []) := by rfl
theorem test_extract : (after (exec .extract { up with rxBuf :=
      [0xAA#8, 0x04#8, 0x02#8, 0x01#8, 0x02#8, 0x05#8, 0x04#8, 0x07#8, 0x02#8, 0x09#8] })).map (fun t => (t.evt, t.rxBuf))
    = some (some [0x02#8, 0x01#8, 0x02#8, 0x05#8, 0x04#8], [0x07#8, 0x02#8, 0x09#8]) := by rfl
theorem test_extract_keeps : (after (exec .extract { up with rxBuf := [0x55#8, 0xAA#8, 0x02#8] })).map (·.rxBuf)
    = some [0x02#8] := by rfl
/-- A drain of two frames with a buffer of 4 bytes: the second frame waits, and fits when its turn comes (log 12). -/
theorem test_bounded_drain : (after (step (withLine [0x02#8, 0x07#8, 0x04#8, 0x02#8, 0x08#8, 0x09#8, 0x04#8, 0x55#8]
      { up with phase := .rx, avail := 8, par := ⟨0x00#8, some 4, none⟩, inputs := [.tick] }))).map
    (fun t => (t.evt, t.rxBuf, t.data))
    = some (some [0x02#8, 0x07#8, 0x04#8], [0x02#8, 0x08#8, 0x09#8, 0x04#8], [0x55#8]) := by rfl
/-- A medium opened after a reset has nothing of the old one (log 4). -/
theorem test_new_medium : (after (step { State.reset with
      tr := { Transport.fresh with outb := e1, sent := 3 }, inputs := [.openMedium [0x41#8] [] true] })).map
    (fun t => (t.tr.inb, t.tr.outb, t.tr.sent)) = some ([0x41#8], [], 0) := by rfl
/-- A reset inside a read that has taken two bytes of three (log 15). -/
theorem test_reset_in_rx : (after (step (withLine [1#8, 2#8, 3#8, 4#8]
      { up with phase := .rx, avail := 3, inputs := [.rst 2] }))).map (fun t => (t.tr.inb, t.rxBuf, t.phase))
    = some ([3#8, 4#8], [], .check) := by rfl
theorem test_linkRx : (after (exec (.linkRx a1) up)).map (·.got)
    = some [⟨0#8, 1#8, 0xFC00#16, [4#8, 0x7C#8, 0#8, 1#8]⟩] := by decide +kernel
theorem test_linkRx_drop : (after (exec (.linkRx [0x02#8, 0x01#8, 0x04#8]) up)).map (·.got) = some [] := by rfl

/-- The numbers of R188. -/
theorem test_status_codes : statusCode .ok = 0 ∧ statusCode .validationError = 1 ∧ statusCode .frameError = 2
    ∧ statusCode (.transportError .notRunning) = 3 ∧ statusCode .timeoutError = 4 ∧ statusCode (.widthError 9) = 5
    ∧ statusCode .txQueueFull = 6 ∧ faultCode (.transportFault .read) = 16 ∧ faultCode .rxOverflow = 17
    ∧ faultCode .callbackFault = 18 := by decide

/-! ## Witnesses: for each obligation with hypotheses, a state and operands that meet them, clause by clause -/

theorem witness_ResetLeavesTheFreshValues : ∃ (s : State) (k : Nat) (rest : List Input),
    s.inputs = .rst k :: rest ∧ s.run = .running := ⟨moves [.rst 0] sending, 0, [], rfl, rfl⟩

/-- A reset inside a write. -/
theorem witness_ResetIdlesAndKeepsTheStreams : ∃ (s : State) (k : Nat) (rest : List Input),
    s.inputs = .rst k :: rest ∧ s.tBound = true ∧ s.phase = .tx ∧ s.txq = [e1] :=
  ⟨moves [.rst 3] sending, 3, [], rfl, rfl, rfl, rfl⟩

/-- A reset inside a read. -/
theorem witness_ResetIdlesAndKeepsTheStreams_read : ∃ (s : State) (k : Nat) (rest : List Input),
    s.inputs = .rst k :: rest ∧ s.phase = .rx ∧ s.rxRead = false ∧ s.run = .running ∧ min k s.avail = 2 :=
  ⟨moves [.rst 2] { up with phase := .rx, avail := 3 }, 2, [], rfl, rfl, rfl, rfl, rfl⟩

theorem linkInv_up : LinkInv up := by
  simp [LinkInv, CallbackInv, LifeInv, BufferInv, CountInv, RecordInv, PortInv, Settled, up, State.reset, Params.default,
    Transport.fresh]

theorem linkInv_sending : LinkInv sending := by
  simp [LinkInv, CallbackInv, LifeInv, BufferInv, CountInv, RecordInv, PortInv, Settled, sending, up, State.reset,
    Params.default, Transport.fresh]

theorem linkInv_closed : LinkInv closed := by
  simp [LinkInv, CallbackInv, LifeInv, BufferInv, CountInv, RecordInv, PortInv, Settled, closed, State.reset,
    Params.default, Transport.fresh]

theorem linkInv_inCallback : LinkInv inCallback := by
  have c : IsCandidate [0x02#8, 0x04#8] := ⟨[], rfl, List.not_mem_nil⟩
  simp [LinkInv, CallbackInv, LifeInv, BufferInv, CountInv, RecordInv, PortInv, inCallback, up, State.reset, Params.default,
    Transport.fresh, c]

/-- The invariant does not depend on the moves to come. -/
theorem linkInv_moves {s : State} (is : List Input) (h : LinkInv s) : LinkInv (moves is s) := h

/-- The worker stands in the callback and its next move is the return. -/
theorem witness_EveryStepKeepsTheInvariant : ∃ s t : State, LinkInv s ∧ step s = .next t :=
  ⟨inCallback, _, linkInv_inCallback, rfl⟩

theorem witness_StepRunsTheDecodedOperation :
    (∃ (s : State) (rest : List Input), s.inputs = .host .callback 0xD#4 [0x41#8] :: rest
      ∧ decode 0x00#8 (.hostCmd 0xD#4 [0x41#8]) = .ok (.send [0x41#8]))
    ∧ (∃ (s : State) (rest : List Input), s.inputs = .host .host 0x2#4 [] :: rest
      ∧ decode 0x00#8 (.hostCmd 0x2#4 []) = .error .missingOperand)
    ∧ (∃ (s : State) (rest : List Input), s.inputs = .line [0x20#8, 0x20#8, 0x04#8] :: rest
      ∧ firstSymbol [0x20#8, 0x20#8, 0x04#8] = some (.wirePair 0x20#8 0x20#8, [0x04#8])
      ∧ decode 0x00#8 (.wirePair 0x20#8 0x20#8) = .ok (.escAny 0x20#8))
    ∧ (∃ (s : State) (rest : List Input), s.inputs = .line [0x20#8] :: rest
      ∧ firstSymbol [0x20#8] = some (.wireByte 0x20#8, []) ∧ decode 0x00#8 (.wireByte 0x20#8) = .ok .dle)
    ∧ (∃ (s : State) (rest : List Input), s.inputs = .frame e1 :: rest
      ∧ decode 0x00#8 (.frame e1) = .ok (.frame 0xFF#8 0x00#8 0xFC00#16 [1#8]))
    ∧ (∃ (s : State) (rest : List Input), s.inputs = .clk (argPins 0x0#4 none true) :: rest ∧ cmdReady s = true
      ∧ decode 0x00#8 (.hostCmd 0x0#4 []) = .ok .nopReserved)
    ∧ (∃ (s : State) (rest : List Input), s.inputs = .clk (argPins 0x2#4 none true) :: rest ∧ cmdReady s = true
      ∧ s.argIn = [] ∧ decode 0x00#8 (.hostCmd 0x2#4 []) = .error .missingOperand)
    ∧ (∃ (s : State) (rest : List Input), s.inputs = .clk (argPins 0xD#4 (some 9#8) false) :: rest ∧ cmdReady s = true)
    ∧ ∃ (s : State) (rest : List Input), s.inputs = .clk (argPins 0x0#4 none true) :: rest ∧ cmdReady s = false :=
  ⟨⟨moves [.host .callback 0xD#4 [0x41#8]] up, [], rfl, rfl⟩, ⟨moves [.host .host 0x2#4 []] up, [], rfl, rfl⟩,
    ⟨moves [.line [0x20#8, 0x20#8, 0x04#8]] up, [], rfl, rfl, rfl⟩, ⟨moves [.line [0x20#8]] up, [], rfl, rfl, rfl⟩,
    ⟨moves [.frame e1] up, [], rfl, test_decode_frame⟩,
    ⟨moves [.clk (argPins 0x0#4 none true)] up, [], rfl, by decide, rfl⟩,
    ⟨moves [.clk (argPins 0x2#4 none true)] up, [], rfl, by decide, rfl, rfl⟩,
    ⟨moves [.clk (argPins 0xD#4 (some 9#8) false)] up, [], rfl, by decide⟩,
    ⟨moves [.clk (argPins 0x0#4 none true)] { up with closing := true }, [], rfl, by decide⟩⟩

/-- Operands at the ends of their ranges. -/
theorem witness_DecodeEncodeRoundTrip :
    ((Instr.encode 255 0 65535 []).wf = true
      ∧ encode 0x00#8 (.encode 255 0 65535 []) = some (.hostCmd 0x7#4 [0xFF#8, 0x00#8, 0xFF#8, 0xFF#8]))
    ∧ (Instr.toText [0x41#8] (some 255) (some 0) true).wf = true
    ∧ encode 0x00#8 (.toText [0x41#8] (some 255) (some 0) true)
      = some (.hostCmd 0xB#4 [0x07#8, 0xFF#8, 0x00#8, 0x00#8, 0x41#8]) := by decide

theorem witness_DecodingKeepsTheFormat : decode 0x00#8 (.wirePair 0x20#8 0x00#8) = .ok (.escAny 0x00#8)
    ∧ (Instr.poll.format = .internal ∧ Instr.stx.format ≠ .internal)
    ∧ rowEncoding .frame 8 0x04A80100FC00FF02 = some (.frame e1) := by decide +kernel

/-- In each place, without and with a pending prefix. -/
theorem witness_WireBytesEnterTheStreams : ∀ (a : Interior) (e : Bool), ∃ s : State, s.uat = a ∧ s.uesc = e
    ∧ isSpecial 0x21#8 = false ∧ isSpecial 0x03#8 = false :=
  fun a e => ⟨{ up with uat := a, uesc := e }, rfl, rfl, by decide, by decide⟩

theorem witness_WirePairsYieldOneBodyByte : (∀ (a : Interior) (e : Bool), ∃ s : State, s.uat = a ∧ s.uesc = e)
    ∧ (0x03#8 : Byte) ≠ 0x04#8 := ⟨fun a e => ⟨{ up with uat := a, uesc := e }, rfl, rfl⟩, by decide⟩

theorem witness_FrameRowCarriesItsBody : up.uat = .outside ∧ inFrame.uat = .framed ∧ inGiven.uat = .given := by decide

/-- A candidate that starts with a prefix left set, and the places a byte is taken in. -/
theorem witness_StreamingUnstufferAgreesWithUnstuff :
    (∃ (w : Bytes) (s : State), s.uat = .outside ∧ s.uesc = true ∧ 0x04#8 ∉ w ∧ unstuffBytes w = none)
    ∧ inGiven.uat = .given ∧ inFrame.uat = .framed ∧ (0x05#8 : Byte) ≠ 0x04#8 :=
  ⟨⟨[0x20#8], { up with uesc := true }, rfl, rfl, by decide, by decide⟩, rfl, rfl, by decide⟩

theorem witness_LineDeliversEveryByte : ∃ (s : State) (rest : List Input), s.inputs = .line e1 :: rest :=
  ⟨moves [.line e1] up, [], rfl⟩

theorem witness_CrcIsLinearWithZeroResidue : ([0x01#8, 0x02#8] : Bytes).length = ([0xFF#8, 0x00#8] : Bytes).length := rfl

/-- A change of one byte; the window at both ends of its range. -/
theorem witness_CrcDetectsEveryShortBurst : ((0x81#8 : Byte) ≠ 0#8 ∧ 8 ≤ 8) ∧ ((0x01#8 : Byte) ≠ 0#8 ∧ 0 ≤ 8) := by decide

theorem witness_CalcIsClearThenUpdates : ∃ s u : State, u.par.crcInit = s.par.crcInit ∧ u.acc ≠ s.acc :=
  ⟨up, { up with acc := 0xE3#8 }, rfl, by decide⟩

/-- A port with a two-byte result, a byte of `T.out` for the line, and an event. -/
def withResult : State := { inCallback with res := some ⟨.ok, .bytes [0x41#8, 0x42#8]⟩, tr := { Transport.fresh with outb := [9#8] } }

/-- Every input pin but the command port's and `evt_ack` at 1. -/
def allPins : Pins :=
  { Pins.idle with crcClear := true, crcEn := true, crcDin := 0x4C#8, rxValid := true, rxData := 0x02#8, txReady := true }

theorem witness_PinsFollowTheBinding :
    (∃ (s : State) (rest : List Input), s.inputs = .clk allPins :: rest ∧ allPins.cmdValid = false
      ∧ txData s = some 9#8 ∧ s.inCb = true)
    ∧ (∃ (s : State) (rest : List Input), s.inputs = argEdges 0xD#4 [7#8, 8#8] ++ rest ∧ s.argIn = [] ∧ cmdReady s = true
      ∧ evtValid s = false ∧ decode s.par.crcInit (.hostCmd 0xD#4 [7#8, 8#8]) = .ok (.send [7#8, 8#8]))
    ∧ (withResult.res = some ⟨.ok, .bytes [0x41#8, 0x42#8]⟩ ∧ withResult.resPut = 0)
    ∧ ∃ s : State, s.res = some ⟨.txQueueFull, .nothing⟩ :=
  ⟨⟨moves [.clk allPins] withResult, [], rfl, rfl, by decide, rfl⟩,
    ⟨moves (argEdges 0xD#4 [7#8, 8#8]) up, [], rfl, rfl, by decide, by decide, rfl⟩, by decide, ⟨{ up with res := some ⟨.txQueueFull, .nothing⟩ }, rfl⟩⟩

/-- An edge with `tx_ready`: one byte of each stream (R38). -/
theorem test_clk : (after (step (moves [.clk { Pins.idle with txReady := true }] withResult))).map
    (fun t => (resData t, resLast t, evtData t, t.tr.sent, txValid t)) = some (some 0x42#8, true, some 0x04#8, 1, false) := by
  decide

/-- All ports in one edge (R38): the accumulator is cleared, `02` comes in, `09` goes out, the callback returns. -/
theorem test_clk_all : (after (step (moves [.clk { allPins with evtAck := true }] { withResult with acc := 0x55#8 }))).map
    (fun t => (t.acc, t.tr.inb, t.tr.sent, t.inCb, t.evt)) = some (0x00#8, [0x02#8], 1, false, none) := by decide

/-- R188: a refused command's cause byte; and `LINK.TX` at the pins, an operand byte an edge (R38), refused (R161). -/
theorem test_cause_byte : resStream { up with res := some ⟨.txQueueFull, .nothing⟩ } = [6#8] := by decide
theorem test_cmd_pins : (after (Sys2Proof.core.run 4 (moves (argEdges 0xF#4 [0#8, 1#8, 0#8, 1#8]) up))).map
    (fun t => (t.argIn, resOkPin t, resData t, cmdReady t)) = some ([], some false, some 1#8, false) := by decide +kernel

theorem witness_StuffedBytesAreCanonical : stuffBytes [0x41#8, 0x02#8] = [0x41#8] ++ 0x20#8 :: [0xFD#8] := by decide

theorem witness_UnstuffScansPairs : unstuffBytes [0x41#8, 0x20#8] = none
    ∧ unstuffBytes [0x20#8, 0x02#8] = some [0xFD#8] ∧ (0x21#8 : Byte) ≠ 0x20#8 := by decide

/-- A canonical interior and one that is not. -/
theorem witness_UnstuffInvertsStuff : (unstuffBytes [0x20#8, 0xFD#8] = some [0x02#8] ∧ canonical [0x20#8, 0xFD#8] = true)
    ∧ unstuffBytes [0x20#8, 0xBE#8] = some [0x41#8] ∧ canonical [0x20#8, 0xBE#8] = false := by decide

/-- The edges of 95_test_vectors.md 1.4. -/
theorem witness_EncodeRefusesOrAssembles :
    ((1#8 : Byte) ≠ 0#8 ∧ (1#8 : Byte) ≠ 255#8 ∧ (1#16 : Pid) ≠ 0#16 ∧ 1 ≤ ([0#8] : Bytes).length
      ∧ (List.replicate 35 0#8).length ≤ 35)
    ∧ ¬(1 ≤ (256 : Int) ∧ (256 : Int) ≤ 255 ∧ 0 ≤ (0 : Int) ∧ (0 : Int) ≤ 255 ∧ (256 : Int) ≠ 0 ∧ 1 ≤ (1 : Int)
      ∧ (1 : Int) ≤ 65535 ∧ 1 ≤ ([1#8] : Bytes).length ∧ ([1#8] : Bytes).length ≤ 35) := by decide

theorem witness_EncodedFrameHasItsShape : validatePacket 255 0 0xFC00 [1#8] = true
    ∧ (frameBody 0x00#8 0xFF#8 0x00#8 0xFC00#16 [1#8]).countP isSpecial = 0
    ∧ validatePacket 2 4 0x0202 (List.replicate 35 0x02#8) = true
    ∧ stuffBytes (frameBody 0x00#8 2#8 4#8 0x0202#16 []) = [] ++ 0x20#8 :: (0xFD#8 :: (stuffBytes (frameBody 0x00#8 2#8 4#8 0x0202#16 [])).drop 2) := by
  decide +kernel

/-- A valid packet; an empty payload with a special byte (A5) and without one (A6). -/
theorem witness_EncodeDecodeRoundTrip : validatePacket 1 0 1 [1#8] = true
    ∧ (∃ b ∈ frameBody 0x00#8 1#8 0#8 0x0020#16 [], isSpecial b = true)
    ∧ (∀ b ∈ frameBody 0x00#8 1#8 0#8 1#16 [], isSpecial b = false) ∧ encodePacket 0x00#8 1 0 1 [1#8] = encodePacket 0x00#8 1 0 1 [1#8] := by
  decide +kernel

/-- A valid packet, and A7, which decodes and fails `VALIDATE`. -/
theorem witness_ReencodingKeepsThePacket :
    (decodeFrame 0x00#8 e1 = some ⟨0xFF#8, 0#8, 0xFC00#16, [1#8]⟩ ∧ validatePacket 255 0 0xFC00 [1#8] = true)
    ∧ decodeFrame 0x00#8 [0x02#8, 0x05#8, 0x05#8, 0x00#8, 0x01#8, 0x01#8, 0xB1#8, 0x04#8] = some ⟨5#8, 5#8, 1#16, [1#8]⟩
    ∧ validatePacket 5 5 1 [1#8] = false := by decide +kernel

theorem witness_ResponsesNeedAssemble : (Packet.mk 255#8 0#8 0xFC00#16 [1#8]).src = 0#8 ∧ 1 ≤ ([4#8] : Bytes).length
    ∧ 1 ≤ (65535 : Int) ∧ (65535 : Int) ≤ 65535 := by decide

theorem witness_DecodeChecksAndSplits : up.par.crcInit = 0x00#8 ∧ decodeFrame 0x00#8 [0x02#8, 0x04#8] = none
    ∧ decodeFrame 0x00#8 e1 = some ⟨0xFF#8, 0#8, 0xFC00#16, [1#8]⟩ := by decide +kernel

/-- A literal of E1 and the second byte of the pair of A1. -/
theorem witness_DecodeDetectsOneByteTampering :
    ((0xFF#8 : Byte) ≠ 0xFE#8 ∧ (unstuffBytes []).isSome = true ∧ (0xFF#8 : Byte) ≠ 0x20#8 ∧ (0xFE#8 : Byte) ≠ 0x20#8
      ∧ (decodeFrame 0x00#8 (0x02#8 :: ([] ++ 0xFF#8 :: [0x00#8, 0xFC#8, 0x00#8, 0x01#8, 0xA8#8] ++ [0x04#8]))).isSome = true)
    ∧ (0xFB#8 : Byte) ≠ 0x24#8 ∧ (unstuffBytes [0x00#8, 0x01#8, 0xFC#8, 0x00#8]).isSome = true
    ∧ (decodeFrame 0x00#8 (0x02#8 :: ([0x00#8, 0x01#8, 0xFC#8, 0x00#8]
      ++ 0x20#8 :: 0xFB#8 :: [0x7C#8, 0x00#8, 0x01#8, 0xC9#8] ++ [0x04#8]))).isSome = true := by decide +kernel

/-- Slices of 1 byte and of 8 bytes. -/
theorem witness_ToUintReadsBigEndian : (1 ≤ ([0x80#8] : Bytes).length ∧ ([0x80#8] : Bytes).length ≤ 8)
    ∧ 1 ≤ p17.length ∧ p17.length ≤ 8 := by decide

theorem witness_ToIntReadsTwosComplement : (1 ≤ ([0x7F#8] : Bytes).length ∧ ([0x7F#8] : Bytes).length ≤ 8)
    ∧ 1 ≤ p17.length ∧ p17.length ≤ 8 := by decide

/-- `TO_UINT(p, 5, 4)`, `TO_UINT(p, -1, 1)`, an offset one past the end, a width of 9 alone, and nine bytes. -/
theorem witness_HelpersRefuseBadSlices : (((p17.length : Int) < (some (5 : Int)).getD 0 + 4)
      ∧ (some (-1 : Int)).getD 0 < 0)
    ∧ (p17.length : Int) < (some (9 : Int)).getD 0 ∧ (p17.length : Int) < (none : Option Int).getD 0 + 9
    ∧ 8 < (p17 ++ [0#8]).length ∧ resOk ⟨.ok, .nothing⟩ = true ∧ resOk ⟨.widthError 9, .nothing⟩ = false := by decide

/-- The three kinds of fault, and none. -/
theorem witness_HelpersRefuseBadSlices_faults : (∃ s : State, s.fault = none)
    ∧ (∃ s : State, s.fault = some (.transportFault .read)) ∧ (∃ s : State, s.fault = some .rxOverflow)
    ∧ ∃ s : State, s.fault = some .callbackFault :=
  ⟨⟨up, rfl⟩, ⟨{ up with fault := some (.transportFault .read) }, rfl⟩, ⟨{ up with fault := some .rxOverflow }, rfl⟩,
    ⟨{ up with fault := some .callbackFault }, rfl⟩⟩

theorem witness_OpenStartsTheWorker : (State.reset.run = .unopened ∧ State.reset.lateOpen = false)
    ∧ (∃ s : State, s.run = .unopened ∧ s.lateOpen = true) ∧ closed.run ≠ .unopened
    ∧ (∃ (s : State) (rest : List Input), s.inputs = .openReturn :: rest ∧ s.opening = true)
    ∧ ∃ (s : State) (rest : List Input), s.inputs = .openReturn :: rest ∧ s.opening = false :=
  ⟨⟨rfl, rfl⟩, ⟨{ State.reset with lateOpen := true }, rfl, rfl⟩, by decide,
    ⟨moves [.openReturn] { up with opening := true }, [], rfl, rfl⟩, moves [.openReturn] up, [], rfl, rfl⟩

/-- R209: a frame is at the callback while the call of `OPEN` has not returned. -/
theorem test_frame_before_open_returns : (after (Sys2Proof.core.run 3 (withLine [0x02#8, 0x04#8]
      { State.reset with lateOpen := true, inputs := [.host .host 0xC#4 [0#8], .tick, .tick] }))).map
    (fun t => (t.inCb, t.evt, t.opening, t.res)) = some (true, some [0x02#8, 0x04#8], true, none) := by decide +kernel

/-- After a reset of an opened instance the Transport is closed and the instance unopened (log 14). -/
theorem witness_OpenStartsTheWorker_closed : ∃ s : State, s.run = .unopened ∧ s.tr.isOpen = false :=
  ⟨resetMove 0 sending, rfl, rfl⟩

/-- Not running; a full queue of one entry; a queue with room. -/
theorem witness_SendEnqueuesOrReturnsItsError : closed.run ≠ .running
    ∧ (({ sending with par := ⟨0x00#8, none, some 1⟩ } : State).run = .running
      ∧ ({ sending with par := ⟨0x00#8, none, some 1⟩ } : State).par.txqCap = some sending.txq.length)
    ∧ up.run = .running ∧ up.par.txqCap ≠ some up.txq.length := by decide

theorem witness_JoinedBlockComposes : validatePacket 255 0 0xFC00 [1#8] = true ∧ validatePacket 0 1 0xFC00 [4#8] = false
    ∧ up.run = .running ∧ up.par.txqCap ≠ some up.txq.length
    ∧ decodeFrame 0x00#8 a1 = some ⟨0#8, 1#8, 0xFC00#16, [4#8, 0x7C#8, 0#8, 1#8]⟩
    ∧ decodeFrame 0x00#8 [0x02#8, 0x01#8, 0x04#8] = none := by decide +kernel

/-- In the callback; and outside it the three shapes of `rx_buf`. -/
theorem witness_ExtractCutsTheFirstCandidate : inCallback.inCb = true ∧ up.inCb = false ∧ up.par.rxBufCap = none
    ∧ (0x02#8 : Byte) ∉ ([0x55#8, 0xAA#8, 0x04#8] : Bytes)
    ∧ (([0x55#8, 0x02#8, 0x02#8] : Bytes) = [0x55#8] ++ 0x02#8 :: [0x02#8] ∧ (0x04#8 : Byte) ∉ ([0x02#8] : Bytes))
    ∧ ([0x04#8, 0x02#8, 0x04#8, 0x04#8] : Bytes) = [0x04#8] ++ 0x02#8 :: [] ++ 0x04#8 :: [0x04#8]
    ∧ (0x02#8 : Byte) ∉ ([0x04#8] : Bytes) := by decide

/-- A buffer of 2 bytes: an unfinished frame of 3 and of 2 bytes, a frame of 3 and of 2 bytes, bytes without an `STX`
within it and beyond it. -/
theorem witness_OverlongFrameRaisesRxOverflow :
    (∃ s : State, s.inCb = false ∧ s.par.rxBufCap = some 2
      ∧ s.rxBuf ++ s.data = [] ++ 0x02#8 :: [0x07#8, 0x08#8] ∧ 2 < ([0x07#8, 0x08#8] : Bytes).length + 1)
    ∧ (∃ s : State, s.inCb = false ∧ s.par.rxBufCap = some 2 ∧ s.rxBuf ++ s.data = [0x55#8] ++ 0x02#8 :: [0x07#8])
    ∧ (∃ s : State, s.inCb = false ∧ s.par.rxBufCap = some 2 ∧ s.rxBuf ++ s.data = [] ++ 0x02#8 :: [0x07#8] ++ 0x04#8 :: [])
    ∧ (∃ s : State, s.inCb = false ∧ s.par.rxBufCap = some 2 ∧ s.rxBuf ++ s.data = [] ++ 0x02#8 :: [] ++ 0x04#8 :: [])
    ∧ (∃ s : State, s.inCb = false ∧ s.par.rxBufCap = some 2 ∧ 0x02#8 ∉ s.rxBuf ++ s.data)
    ∧ ∃ s : State, s.inCb = false ∧ s.par.rxBufCap = some 2 ∧ 0x02#8 ∉ s.rxBuf ++ s.data
      ∧ 2 < (s.rxBuf ++ s.data).length :=
  ⟨⟨{ up with par := ⟨0x00#8, some 2, none⟩, rxBuf := [0x02#8, 0x07#8], data := [0x08#8] }, rfl, rfl, rfl, by decide⟩,
    ⟨{ up with par := ⟨0x00#8, some 2, none⟩, rxBuf := [0x55#8, 0x02#8, 0x07#8] }, rfl, rfl, rfl⟩,
    ⟨{ up with par := ⟨0x00#8, some 2, none⟩, rxBuf := [0x02#8, 0x07#8, 0x04#8] }, rfl, rfl, rfl⟩,
    ⟨{ up with par := ⟨0x00#8, some 2, none⟩, rxBuf := [0x02#8, 0x04#8] }, rfl, rfl, rfl⟩,
    ⟨{ up with par := ⟨0x00#8, some 2, none⟩, rxBuf := [0x55#8] }, rfl, rfl, by decide⟩,
    ⟨{ up with par := ⟨0x00#8, some 2, none⟩, rxBuf := [0x55#8, 0xAA#8], data := [0x04#8] }, rfl, rfl, by decide, by decide⟩⟩

theorem witness_CheckSamplesStopThenTheCount :
    (∃ (s : State) (rest : List Input), s.inputs = .tick :: rest ∧ workerReady s = true ∧ s.phase = .check ∧ s.stop = true)
    ∧ ∃ (s : State) (rest : List Input), s.inputs = .tick :: rest ∧ workerReady s = true ∧ s.phase = .check
      ∧ s.stop = false ∧ s.tBound = true ∧ s.tr.isOpen = true ∧ s.tr.fails.avail = false :=
  ⟨⟨moves [.tick] { up with stop := true }, [], rfl, rfl, rfl, rfl⟩,
    ⟨moves [.tick] (withLine e1 up), [], rfl, rfl, rfl, rfl, rfl, rfl, rfl⟩⟩

/-- The hypotheses of `RxDrainsTheCountedBytes` on the state and the moves, and the bytes to be scanned. -/
def Drains (s : State) (rest : List Input) (buf : Bytes) : Prop :=
  s.inputs = .tick :: rest ∧ workerReady s = true ∧ s.phase = .rx
    ∧ (s.rxRead = false → s.tBound = true ∧ s.tr.isOpen = true ∧ s.tr.fails.read = none)
    ∧ s.rxBuf ++ s.data ++ (if s.rxRead = true then [] else s.tr.inb.take s.avail) = buf

/-- Seven bytes counted of eight that wait. -/
theorem witness_RxDrainsTheCountedBytes : ∃ s : State, s.par.rxBufCap = none
    ∧ Drains s [] ([] ++ 0x02#8 :: [0xFF#8, 0x00#8, 0xFC#8, 0x00#8, 0x01#8, 0xA8#8]) :=
  ⟨moves [.tick] (withLine e1 { up with phase := .rx, avail := 7 }), rfl, rfl, rfl, rfl, fun _ => ⟨rfl, rfl, rfl⟩, rfl⟩

theorem witness_RxDrainsTheCountedBytes_frame : ∃ s : State, s.par.rxBufCap = some 8
    ∧ Drains s [] ([] ++ 0x02#8 :: [0xFF#8, 0x00#8, 0xFC#8, 0x00#8, 0x01#8, 0xA8#8] ++ 0x04#8 :: []) :=
  ⟨moves [.tick] (withLine e1 { up with phase := .rx, avail := 8, par := ⟨0x00#8, some 8, none⟩ }), rfl, rfl, rfl, rfl,
    fun _ => ⟨rfl, rfl, rfl⟩, rfl⟩

/-- After the callback's return, with bytes of the drain waiting outside a full buffer. -/
theorem witness_RxDrainsTheCountedBytes_next : ∃ s : State, s.rxRead = true ∧ s.par.rxBufCap = some 4
    ∧ Drains s [] ([] ++ 0x02#8 :: [0x08#8, 0x09#8] ++ 0x04#8 :: [0x55#8]) :=
  ⟨moves [.tick] { up with
    phase := .rx, avail := 8, rxRead := true, rxBuf := [0x02#8, 0x08#8, 0x09#8, 0x04#8], data := [0x55#8],
    par := ⟨0x00#8, some 4, none⟩ }, rfl, rfl, rfl, rfl, rfl, nofun, rfl⟩

/-- Bytes without an `STX`, within a buffer of 2 bytes and beyond it. -/
theorem witness_RxDrainsTheCountedBytes_noise : (0x02#8 : Byte) ∉ ([0x55#8, 0xAA#8] : Bytes)
    ∧ (∃ s : State, s.par.rxBufCap = some 2 ∧ Drains s [] [0x55#8, 0xAA#8])
    ∧ ∃ s : State, s.par.rxBufCap = some 2 ∧ Drains s [] [0x55#8, 0xAA#8, 0xAA#8] :=
  ⟨by decide,
    ⟨moves [.tick] (withLine [0x55#8, 0xAA#8] { up with phase := .rx, avail := 2, par := ⟨0x00#8, some 2, none⟩ }),
      rfl, rfl, rfl, rfl, fun _ => ⟨rfl, rfl, rfl⟩, rfl⟩,
    ⟨moves [.tick] (withLine [0x55#8, 0xAA#8, 0xAA#8] { up with phase := .rx, avail := 3, par := ⟨0x00#8, some 2, none⟩ }),
      rfl, rfl, rfl, rfl, fun _ => ⟨rfl, rfl, rfl⟩, rfl⟩⟩

/-- Frames of 3 bytes, with their `ETX` and before it, and a buffer of 2. -/
theorem witness_RxDrainsTheCountedBytes_overflow :
    ((0x04#8 : Byte) ∉ ([0x07#8, 0x04#8] : Bytes).take (2 - 1) ∧ 2 < ([0x07#8, 0x04#8] : Bytes).length + 1)
    ∧ (∃ s : State, s.par.rxBufCap = some 2 ∧ Drains s [] ([] ++ 0x02#8 :: [0x07#8, 0x04#8]))
    ∧ ∃ s : State, s.par.rxBufCap = some 2 ∧ Drains s [] ([] ++ 0x02#8 :: [0x07#8, 0x08#8]) :=
  ⟨by decide,
    ⟨moves [.tick] (withLine [0x02#8, 0x07#8, 0x04#8] { up with phase := .rx, avail := 3, par := ⟨0x00#8, some 2, none⟩ }),
      rfl, rfl, rfl, rfl, fun _ => ⟨rfl, rfl, rfl⟩, rfl⟩,
    ⟨moves [.tick] (withLine [0x02#8, 0x07#8, 0x08#8] { up with phase := .rx, avail := 3, par := ⟨0x00#8, some 2, none⟩ }),
      rfl, rfl, rfl, rfl, fun _ => ⟨rfl, rfl, rfl⟩, rfl⟩⟩

theorem witness_TxWritesOneWholeEntry :
    (∃ (s : State) (rest : List Input), s.inputs = .tick :: rest ∧ workerReady s = true ∧ s.phase = .tx ∧ s.txq = [])
    ∧ (∃ (s : State) (rest : List Input), s.inputs = .tick :: rest ∧ workerReady s = true ∧ s.phase = .tx ∧ s.txq = [e1]
      ∧ s.tBound = true ∧ s.tr.isOpen = true ∧ s.tr.fails.write = none)
    ∧ ∃ (s : State) (rest : List Input), s.inputs = .tick :: rest ∧ workerReady s = true ∧ s.phase = .sleep :=
  ⟨⟨moves [.tick] { up with phase := .tx }, [], rfl, rfl, rfl, rfl⟩,
    ⟨moves [.tick] sending, [], rfl, rfl, rfl, rfl, rfl, rfl, rfl⟩,
    ⟨moves [.tick] { up with phase := .sleep }, [], rfl, rfl, rfl⟩⟩

/-- Each primitive failing. -/
theorem witness_FailingPrimitiveFaultsTheWorker :
    (∃ (s : State) (rest : List Input), s.inputs = .tick :: rest ∧ workerReady s = true ∧ s.fault = none ∧ s.tBound = true
      ∧ s.tr.isOpen = true ∧ s.phase = .check ∧ s.stop = false ∧ s.tr.fails.avail = true)
    ∧ (∃ (s : State) (rest : List Input), s.inputs = .tick :: rest ∧ workerReady s = true ∧ s.fault = none ∧ s.tBound = true
      ∧ s.tr.isOpen = true ∧ s.phase = .rx ∧ s.rxRead = false ∧ s.tr.fails.read = some 0)
    ∧ ∃ (s : State) (rest : List Input), s.inputs = .tick :: rest ∧ workerReady s = true ∧ s.fault = none ∧ s.tBound = true
      ∧ s.tr.isOpen = true ∧ s.phase = .tx ∧ s.txq = [e1] ∧ s.tr.fails.write = some 3 :=
  ⟨⟨moves [.tick] { up with tr := { Transport.fresh with fails := ⟨true, none, none, false⟩ } }, [],
      rfl, rfl, rfl, rfl, rfl, rfl, rfl, rfl⟩,
    ⟨moves [.tick] { up with phase := .rx, avail := 1, tr := { Transport.fresh with fails := ⟨false, some 0, none, false⟩ } },
      [], rfl, rfl, rfl, rfl, rfl, rfl, rfl, rfl⟩,
    ⟨moves [.tick] { sending with tr := { Transport.fresh with fails := ⟨false, none, some 3, false⟩ } }, [],
      rfl, rfl, rfl, rfl, rfl, rfl, rfl, rfl⟩⟩

theorem witness_PollPerformsOneIteration : workerReady closed = false
    ∧ (workerReady up = true ∧ up.phase = .check ∧ up.stop = false ∧ up.tBound = true ∧ up.tr.isOpen = true
      ∧ up.tr.fails.avail = false ∧ up.tr.inb = [] ∧ up.txq = [])
    ∧ (∃ s : State, workerReady s = true ∧ s.phase = .check ∧ s.stop = true)
    ∧ (∃ s : State, workerReady s = true ∧ s.phase = .check ∧ s.stop = false ∧ s.tBound = true ∧ s.tr.isOpen = true
      ∧ s.tr.fails.avail = false ∧ s.tr.inb = [] ∧ s.txq = [e1, a1] ∧ s.tr.fails.write = none)
    ∧ ∀ inb : Bytes, inb ≠ [] → ∃ s : State, workerReady s = true ∧ s.phase = .check ∧ s.stop = false ∧ s.tBound = true
      ∧ s.tr.isOpen = true ∧ s.tr.fails.avail = false ∧ s.tr.inb ≠ [] ∧ s.tr.fails.read = none ∧ s.par.rxBufCap = none
      ∧ s.rxBuf ++ s.data ++ s.tr.inb = inb :=
  ⟨rfl, by decide, ⟨{ up with stop := true }, rfl, rfl, rfl⟩,
    ⟨{ up with txq := [e1, a1] }, rfl, rfl, rfl, rfl, rfl, rfl, rfl, rfl, rfl⟩,
    fun inb h => ⟨withLine inb up, rfl, rfl, rfl, rfl, rfl, rfl, h, rfl, rfl, rfl⟩⟩

/-- Bytes of each of the three shapes. -/
theorem witness_PollPerformsOneIteration_bytes : (0x02#8 : Byte) ∉ ([0x55#8] : Bytes)
    ∧ ([0x55#8, 0x02#8, 0x07#8] : Bytes) = [0x55#8] ++ 0x02#8 :: [0x07#8]
    ∧ e1 = [] ++ 0x02#8 :: [0xFF#8, 0x00#8, 0xFC#8, 0x00#8, 0x01#8, 0xA8#8] ++ 0x04#8 :: [] := by decide

/-- A complete frame: `POLL` stands at its emit. -/
theorem test_poll_emits : (after (exec .poll (withLine e1 up))).map (fun t => (t.phase, t.inCb, t.evt))
    = some (.rx, true, some e1) := by rfl

/-- `LINK.RX` of the joined block with a frame that does not decode: no host code runs. -/
def dropping : State :=
  { inCallback with cb := some .linkRx, evt := some [0x02#8, 0x04#8], emits := [[0x02#8, 0x04#8]] }

theorem dropping_no_packet : ∀ f, dropping.evt = some f → decodeFrame dropping.par.crcInit f = none := by
  intro f h; cases h; decide

/-- R162: a candidate of two bytes does not decode (R117), so a callback that would never return does not hold the block. -/
theorem test_dropped_frame_cannot_hang :
    ((after (step { dropping with hangs := true })).map fun t => (t.inCb, t.evt, t.run)) = some (false, none, .running) := by
  decide

/-- An instance with an entry queued whose worker has ended and whose Transport fails to close. -/
def closeFails : State :=
  { up with ended := true, stop := true, txq := [e1], tr := { Transport.fresh with fails := ⟨false, none, none, true⟩ } }

/-- Closed and unopened; a live worker; an ended one, the Transport's close working and failing. -/
theorem witness_CloseSignalsOrFinishes : (closed.run = .closed ∧ State.reset.run = .unopened)
    ∧ (sending.run = .running ∧ sending.ended = false ∧ sending.caller = .host)
    ∧ (∃ s : State, s.run = .running ∧ s.ended = false ∧ s.caller = .callback ∧ s.inCb = false)
    ∧ (∃ s : State, s.run = .running ∧ s.ended = false ∧ s.caller = .callback ∧ s.inCb = true ∧ s.cb = some .linkRx
      ∧ ∀ f, s.evt = some f → decodeFrame s.par.crcInit f = none)
    ∧ (∃ s : State, s.run = .faulted ∧ s.ended = true ∧ s.tr.fails.close = false)
    ∧ (∃ s : State, s.run = .running ∧ s.ended = true ∧ s.tr.fails.close = true)
    ∧ ∃ (s : State) (rest : List Input), s.inputs = .tick :: rest ∧ s.closing = true ∧ s.ended = true ∧ s.inCb = false
      ∧ s.tr.fails.close = true :=
  ⟨by decide, by decide, ⟨{ up with caller := .callback }, rfl, rfl, rfl, rfl⟩,
    ⟨{ dropping with caller := .callback }, rfl, rfl, rfl, rfl, rfl, dropping_no_packet⟩,
    ⟨{ up with run := .faulted, ended := true, fault := some .rxOverflow }, rfl, rfl, rfl⟩,
    ⟨closeFails, rfl, rfl, rfl⟩, ⟨moves [.tick] { closeFails with closing := true }, [], rfl, rfl, rfl, rfl, rfl⟩⟩

/-- R150: the lines before a failing `T.close()` have run, the one after it has not. -/
theorem test_close_fails : (after (exec .close closeFails)).map (fun t => (t.run, t.stop, t.txq, t.tr.isOpen))
    = some (.running, true, [], true) := by decide

/-- The packet callback of `LINK.RX`, which delivered scenario P2's response. -/
def delivering : State := { inCallback with cb := some .linkRx, evt := some e1, emits := [e1] }

theorem delivering_packet : ∃ f q, delivering.evt = some f ∧ decodeFrame delivering.par.crcInit f = some q :=
  ⟨e1, ⟨0xFF#8, 0#8, 0xFC00#16, [1#8]⟩, rfl, by decide +kernel⟩

theorem linkInv_delivering : LinkInv delivering := by
  have c : IsCandidate e1 := ⟨[0xFF#8, 0x00#8, 0xFC#8, 0x00#8, 0x01#8, 0xA8#8], rfl, by decide⟩
  simp [LinkInv, CallbackInv, LifeInv, BufferInv, CountInv, RecordInv, PortInv, delivering, inCallback, up, State.reset, Params.default,
    Transport.fresh, c]

/-- The host's own callback, and its packet callback. -/
theorem witness_CloseInsideTheCallbackIsStuck :
    (∃ (s : State) (rest : List Input), LinkInv s ∧ s.inCb = true ∧ s.cb ≠ some .linkRx
      ∧ s.inputs = .host .callback 0xE#4 [] :: rest)
    ∧ ∃ (s : State) (rest : List Input), LinkInv s ∧ s.inCb = true
      ∧ (∃ f q, s.evt = some f ∧ decodeFrame s.par.crcInit f = some q) ∧ s.inputs = .host .callback 0xE#4 [] :: rest :=
  ⟨⟨moves [.host .callback 0xE#4 []] inCallback, [], linkInv_moves _ linkInv_inCallback, rfl, by decide, rfl⟩,
    ⟨moves [.host .callback 0xE#4 []] delivering, [], linkInv_moves _ linkInv_delivering, rfl, delivering_packet, rfl⟩⟩

/-- Inside the callback, with a `CLOSE` of another thread waiting. -/
theorem witness_WaitingCloseReturns : ∃ s : State, LinkInv s ∧ s.inputs = [] ∧ s.closing = true
    ∧ s.tr.fails.close = false ∧ s.hangs = false ∧ s.inCb = true := by
  refine ⟨{ inCallback with closing := true, stop := true }, ?_, rfl, rfl, rfl, rfl, rfl⟩
  have c : IsCandidate [0x02#8, 0x04#8] := ⟨[], rfl, List.not_mem_nil⟩
  simp [LinkInv, CallbackInv, LifeInv, BufferInv, CountInv, RecordInv, PortInv, inCallback, up, State.reset, Params.default,
    Transport.fresh, c]

/-- A faulted instance. -/
def faulted : State := { up with run := .faulted, ended := true, fault := some .rxOverflow }

theorem linkInv_faulted : LinkInv faulted := by
  simp [LinkInv, CallbackInv, LifeInv, BufferInv, CountInv, RecordInv, PortInv, Settled, faulted, up, State.reset,
    Params.default, Transport.fresh]

theorem witness_WaitingCloseReturns_faulted : ∃ s : State, LinkInv s ∧ s.inputs = [] ∧ s.closing = true
    ∧ s.tr.fails.close = false ∧ s.hangs = false ∧ s.fault ≠ none := by
  refine ⟨{ faulted with closing := true, stop := true }, ?_, rfl, rfl, rfl, rfl, by decide⟩
  simp [LinkInv, CallbackInv, LifeInv, BufferInv, CountInv, RecordInv, PortInv, Settled, faulted, up, State.reset,
    Params.default, Transport.fresh]

theorem witness_FaultRecordIsSticky_kept : ∃ s t : State, LinkInv s ∧ (∀ m ∈ s.inputs.head?, ¬IsReset m)
    ∧ step s = .next t ∧ s.fault = some .rxOverflow :=
  ⟨moves [.host .host 0xE#4 []] faulted, _, linkInv_moves _ linkInv_faulted, by simp [moves, IsReset], rfl, rfl⟩

theorem witness_NothingHappensAfterClose : ∃ s t : State, LinkInv s ∧ s.run = .closed
    ∧ (∀ m ∈ s.inputs.head?, ¬IsReset m) ∧ step s = .next t :=
  ⟨moves [.line [0x41#8]] closed, _, linkInv_moves _ linkInv_closed, rfl, by simp [moves, IsReset], rfl⟩

theorem witness_WritesOnlyAfterAZeroCount : ∃ s t : State, LinkInv s ∧ step s = .next t ∧ t.tr.outb ≠ s.tr.outb :=
  ⟨moves [.tick] sending, _, linkInv_moves _ linkInv_sending, rfl, by decide⟩

/-- A new medium that holds outbound bytes. -/
theorem witness_WritesOnlyAfterAZeroCount_medium : ∃ s t : State, LinkInv s ∧ step s = .next t ∧ t.tr.outb ≠ s.tr.outb
    ∧ s.run = .unopened :=
  ⟨moves [.openMedium [] [0x41#8] false] State.reset, _,
    linkInv_moves _ (by simp [LinkInv, CallbackInv, LifeInv, BufferInv, CountInv, RecordInv, PortInv, Settled, State.reset, Transport.fresh]),
    rfl, by decide, rfl⟩

theorem witness_QueueIsFirstInFirstOut : ∃ s t : State, LinkInv s ∧ step s = .next t ∧ s.txq = e1 :: t.txq :=
  ⟨moves [.tick] sending, _, linkInv_moves _ linkInv_sending, rfl, rfl⟩

theorem witness_LifeCycleTransitions : ∃ s t : State, LinkInv s ∧ (∀ m ∈ s.inputs.head?, ¬IsReset m) ∧ step s = .next t
    ∧ s.run = .running ∧ t.run = .faulted :=
  ⟨moves [.cbError] inCallback, _, linkInv_moves _ linkInv_inCallback, by simp [moves, IsReset], rfl, rfl, rfl⟩

theorem witness_PhasesFollowTheLoop : ∃ s t : State, LinkInv s ∧ (∀ m ∈ s.inputs.head?, ¬IsReset m) ∧ step s = .next t
    ∧ s.phase = .tx ∧ t.phase = .sleep :=
  ⟨moves [.tick] sending, _, linkInv_moves _ linkInv_sending, by simp [moves, IsReset], rfl, rfl, rfl⟩

theorem witness_FaultRecordIsSticky : ∃ s t : State, LinkInv s ∧ (∀ m ∈ s.inputs.head?, ¬IsReset m) ∧ step s = .next t
    ∧ s.fault = none ∧ t.fault ≠ none :=
  ⟨moves [.cbError] inCallback, _, linkInv_moves _ linkInv_inCallback, by simp [moves, IsReset], rfl, rfl, by decide⟩

/-- The host's own callback, the packet callback, and `LINK.RX` with a frame it drops, each with any next move. -/
theorem witness_CallbackHoldsTheWorker : ∀ is : List Input,
    (∃ s : State, s.inCb = true ∧ s.cb ≠ some .linkRx ∧ s.inputs = is ∧ s.fault = none ∧ s.hangs = true)
    ∧ (∃ s : State, s.inCb = true ∧ (∃ f q, s.evt = some f ∧ decodeFrame s.par.crcInit f = some q) ∧ s.inputs = is
      ∧ s.fault = none ∧ s.hangs = false)
    ∧ ∃ s : State, s.inCb = true ∧ s.cb = some .linkRx ∧ (∀ f, s.evt = some f → decodeFrame s.par.crcInit f = none)
      ∧ s.inputs = is ∧ s.hangs = true :=
  fun is => ⟨⟨{ moves is inCallback with hangs := true }, rfl, nofun, rfl, rfl, rfl⟩,
    ⟨moves is delivering, rfl, delivering_packet, rfl, rfl, rfl⟩,
    ⟨{ moves is dropping with hangs := true }, rfl, rfl, dropping_no_packet, rfl, rfl⟩⟩

/-- Scenario P2's split of a response, after noise. -/
def loopState : State := moves
  [.line [0x55#8, 0x02#8, 0xFF#8, 0x00#8], .tick, .line [0xFC#8, 0x00#8, 0x01#8, 0xA8#8, 0x04#8, 0xAA#8]]
  { up with cb := some .linkRx }

theorem witness_LoopBackDeliversEveryPacket : ∃ (s : State) (stream : List (Bytes × Packet)) (tail : Bytes),
    LinkInv s ∧ s.run = .running ∧ s.ended = false ∧ s.stop = false ∧ s.inCb = false ∧ s.phase = .check
    ∧ s.hangs = false ∧ s.cb = some .linkRx ∧ s.tr.isOpen = true ∧ s.tr.fails = Health.good ∧ s.tr.inb = [] ∧ 0x02#8 ∉ s.rxBuf
    ∧ (∀ c, s.par.rxBufCap = some c → 82 ≤ c)
    ∧ (∀ g ∈ stream, 0x02#8 ∉ g.1
      ∧ validatePacket g.2.dst.toNat g.2.src.toNat g.2.pid.toNat g.2.payload = true)
    ∧ 0x02#8 ∉ tail ∧ (∀ m ∈ s.inputs, IsTraffic m) ∧ delivered s.inputs = streamOf s.par.crcInit stream ++ tail ∧ stream ≠ [] := by
  refine ⟨loopState, [([0x55#8], ⟨0xFF#8, 0#8, 0xFC00#16, [1#8]⟩)], [0xAA#8], linkInv_moves _ ?_, rfl, rfl, rfl, rfl, rfl,
    rfl, rfl, rfl, rfl, rfl, by decide, by simp [loopState, moves, up, State.reset, Params.default], by decide, by decide,
    by simp [loopState, moves, IsTraffic], by decide +kernel, by decide⟩
  simp [LinkInv, CallbackInv, LifeInv, BufferInv, CountInv, RecordInv, PortInv, Settled, up, State.reset, Params.default,
    Transport.fresh]

end Sys2Proof.Tests
end

section
/-! PROOF, codec. Packet decode undoes packet encode (R105, R114): what is stuffed is unstuffed, and the frame of `ASSEMBLE`
passes the six checks of `DECODE`. -/

namespace Sys2Proof.Machine

/-- `UNSTUFF` undoes `STUFF` (R100). -/
@[simp] theorem unstuffBytes_stuffBytes (m : Bytes) : unstuffBytes (stuffBytes m) = some m := by
  induction m with
  | nil => rfl
  | cons b m ih =>
    cases h : isSpecial b with
    | true => simp [stuffBytes_cons_special h, ih]
    | false =>
      have plain : b ≠ Config.dle := by rintro rfl; exact absurd h (by decide)
      simp [stuffBytes_cons_plain h, unstuffBytes_cons plain, ih]

/-- Stuffing only adds bytes (R99). -/
theorem length_le_length_stuffBytes (m : Bytes) : m.length ≤ (stuffBytes m).length := by
  induction m with
  | nil => simp
  | cons b m ih =>
    cases h : isSpecial b with
    | true => simp [stuffBytes_cons_special h]; omega
    | false => simp [stuffBytes_cons_plain h, ih]

/-- The interior of an assembled frame is its stuffed body (R60, R114). -/
@[simp] theorem interior_assembleFrame (init d s : Byte) (p : Pid) (y : Bytes) :
    interior (assembleFrame init d s p y) = stuffBytes (frameBody init d s p y) := by
  simp [interior, assembleFrame]

/-- An assembled frame with a payload is no shorter than `MIN_FRAME` (R108, R114 check 1). -/
theorem minFrame_le_length_assembleFrame (init d s : Byte) (p : Pid) {y : Bytes} (h : y ≠ []) :
    Config.minFrame ≤ (assembleFrame init d s p y).length := by
  have payload := List.length_pos_iff.2 h
  have body : (frameBody init d s p y).length = y.length + 5 := by simp [frameBody, headAndPayload]
  have stuffed := length_le_length_stuffBytes (frameBody init d s p y)
  simp only [assembleFrame, Config.minFrame, List.length_cons, List.length_append, List.length_nil]
  omega

/-- The split of a body finds its fields, and its CRC right (R69, R114 checks 5 and 6). -/
@[simp] theorem splitBody_frameBody (init d s : Byte) (p : Pid) (y : Bytes) :
    splitBody init (frameBody init d s p y) = some ⟨d, s, p, y⟩ := by
  have shape : frameBody init d s p y
      = d :: s :: pidHi p :: pidLo p :: (y ++ [crcCalc init (headAndPayload d s p y)]) := rfl
  have body : (frameBody init d s p y).dropLast = headAndPayload d s p y := by simp [frameBody]
  have crc : (frameBody init d s p y).getLastD 0 = crcCalc init (headAndPayload d s p y) := by
    simp [frameBody]
  rw [shape] at body crc ⊢
  simp only [splitBody, body, crc]
  simp

/-- `DECODE` of an assembled frame that is not too short gives the packet (R111, R114). -/
theorem decodeFrame_assembleFrame {init d s : Byte} {p : Pid} {y : Bytes}
    (h : Config.minFrame ≤ (assembleFrame init d s p y).length) :
    decodeFrame init (assembleFrame init d s p y) = some ⟨d, s, p, y⟩ := by
  have first : (assembleFrame init d s p y).head? = some Config.stx := rfl
  have last : (assembleFrame init d s p y).getLast? = some Config.etx := by
    simp [assembleFrame, List.getLast?_cons]
  simp [decodeFrame, Nat.not_lt.2 h, first, last]

end Sys2Proof.Machine
end

section
/-! PROOF, decoder. The decoder undoes the encoder, one lemma for each layout with operands to read back (R60, R63, R65, R66,
R79, log 8). -/

namespace Sys2Proof

open Sys2Proof.Machine

/-- An integer that an 8-bit port presents is read back (R24). -/
theorem toNat_ofInt_of_fitsByte {v : Int} (h : fitsByte v = true) : ((BitVec.ofInt 8 v).toNat : Int) = v := by
  simp [fitsByte] at h
  simp [BitVec.toNat_ofInt]
  omega

/-- An integer that a 16-bit port presents is read back (R24). -/
theorem toNat_ofInt_of_fitsPid {v : Int} (h : fitsPid v = true) : ((BitVec.ofInt 16 v).toNat : Int) = v := by
  simp [fitsPid] at h
  simp [BitVec.toNat_ofInt]
  omega

/-- A byte that is none of the special ones is a literal (R63). -/
theorem decodeWireByte_literal {v : Byte} (h : (Instr.literal v).wf = true) : decodeWireByte v = .literal v := by
  simp [Instr.wf, and_assoc] at h
  obtain ⟨stx, etx, dle⟩ := h
  simp [decodeWireByte, stx, etx, dle]

/-- A pair that is none of the stuffing pairs is the general escape (R66). -/
theorem decodeWirePair_escAny {x : Byte} (h : (Instr.escAny x).wf = true) :
    decodeWirePair Config.dle x = .ok (.escAny x) := by
  simp [Instr.wf, and_assoc] at h
  obtain ⟨stx, etx, dle⟩ := h
  simp [decodeWirePair, stx, etx, dle]

/-- A whole frame (R60). -/
theorem decodeWholeFrame_assembleFrame (init : Byte) {d s : Byte} {p : Pid} {y : Bytes}
    (h : (Instr.frame d s p y).wf = true) :
    decodeWholeFrame init (assembleFrame init d s p y) = .ok (.frame d s p y) := by
  have payload : y ≠ [] := by rintro rfl; simp [Instr.wf, Config.minPayload] at h
  have packet := decodeFrame_assembleFrame (minFrame_le_length_assembleFrame init d s p payload)
  simp [decodeWholeFrame, packet, h]

/-- The header operands of `ENCODE` are read back as the integers they present (R24, P2). -/
theorem decodeEncode_putHeader {d s p : Int} {y : Bytes} (h : (Instr.encode d s p y).wf = true) :
    decodeEncode (putHeader (BitVec.ofInt 8 d) (BitVec.ofInt 8 s) (BitVec.ofInt 16 p) y) = .ok (.encode d s p y) := by
  simp only [Instr.wf, Bool.and_eq_true, and_assoc] at h
  obtain ⟨hd, hs, hp⟩ := h
  simp only [decodeEncode, takeHeader_putHeader, toNat_ofInt_of_fitsByte hd, toNat_ofInt_of_fitsByte hs,
    toNat_ofInt_of_fitsPid hp]

/-- The header operands of `LINK.TX` are read back as the integers they present (R24, P2). -/
theorem decodeLinkTx_putHeader {d s p : Int} {y : Bytes} (h : (Instr.linkTx d s p y).wf = true) :
    decodeLinkTx (putHeader (BitVec.ofInt 8 d) (BitVec.ofInt 8 s) (BitVec.ofInt 16 p) y) = .ok (.linkTx d s p y) := by
  simp only [Instr.wf, Bool.and_eq_true, and_assoc] at h
  obtain ⟨hd, hs, hp⟩ := h
  simp only [decodeLinkTx, takeHeader_putHeader, toNat_ofInt_of_fitsByte hd, toNat_ofInt_of_fitsByte hs,
    toNat_ofInt_of_fitsPid hp]

/-- Bit 2 of the selector is `substitute` (log 8). -/
@[simp] theorem sliceSelector_getLsbD_two (o w : Option Int) (sub : Bool) : (sliceSelector o w sub).getLsbD 2 = sub := by
  cases o <;> cases w <;> cases sub <;> simp [sliceSelector]

/-- The selector has no other bit, and without `substitute` no bit 2 (log 8). -/
theorem sliceSelector_toNat_lt (o w : Option Int) (sub : Bool) :
    (sliceSelector o w sub).toNat < if sub = true then 8 else 4 := by
  cases o <;> cases w <;> cases sub <;> simp [sliceSelector]

/-- The operands of `TO_UINT` (R126). -/
theorem decodeToUint_putSlice {y : Bytes} {o w : Option Int} (h : (Instr.toUint y o w).wf = true) :
    decodeToUint (putSlice y o w false) = .ok (.toUint y o w) := by
  obtain ⟨ho, hw⟩ : fitsOperand o = true ∧ fitsOperand w = true := by simpa only [Instr.wf, Bool.and_eq_true] using h
  have sel : ¬4 ≤ (sliceSelector o w false).toNat := Nat.not_le.2 (sliceSelector_toNat_lt o w false)
  simp only [decodeToUint, putSlice, if_neg sel, takeSlice_putSlice ho hw]

/-- The operands of `TO_INT` (R126). -/
theorem decodeToInt_putSlice {y : Bytes} {o w : Option Int} (h : (Instr.toInt y o w).wf = true) :
    decodeToInt (putSlice y o w false) = .ok (.toInt y o w) := by
  obtain ⟨ho, hw⟩ : fitsOperand o = true ∧ fitsOperand w = true := by simpa only [Instr.wf, Bool.and_eq_true] using h
  have sel : ¬4 ≤ (sliceSelector o w false).toNat := Nat.not_le.2 (sliceSelector_toNat_lt o w false)
  simp only [decodeToInt, putSlice, if_neg sel, takeSlice_putSlice ho hw]

/-- The operands of `TO_TEXT` (R126, R130). -/
theorem decodeToText_putSlice {y : Bytes} {o w : Option Int} {sub : Bool} (h : (Instr.toText y o w sub).wf = true) :
    decodeToText (putSlice y o w sub) = .ok (.toText y o w sub) := by
  obtain ⟨ho, hw⟩ : fitsOperand o = true ∧ fitsOperand w = true := by simpa only [Instr.wf, Bool.and_eq_true] using h
  have sel : ¬8 ≤ (sliceSelector o w sub).toNat := by
    have := sliceSelector_toNat_lt o w sub
    split at this <;> omega
  simp only [decodeToText, putSlice, if_neg sel, takeSlice_putSlice ho hw, sliceSelector_getLsbD_two]

/-- The operands of `ASSEMBLE` (R105). -/
theorem decodeAssemble_putHeader (d s : Byte) (p : Pid) (y : Bytes) :
    decodeAssemble (putHeader d s p y) = .ok (.assemble d s p y) := by
  simp only [decodeAssemble, takeHeader_putHeader]

/-- The callback of `OPEN` (log 8). -/
theorem decodeOpen_callbackByte (cb : Callback) : decodeOpen [callbackByte cb] = .ok (.openT cb) := by
  cases cb <;> rfl

/-- Settles O6: along the rows of the table, the decoder's lemma for the row's layout; a row without operands, or with its
operand bytes as they are, decodes by its code alone. -/
theorem decodeEncodeRoundTrip : Obligations.DecodeEncodeRoundTrip := by
  intro init i e wf he
  cases i <;> cases he
  case literal v => exact congrArg Except.ok (decodeWireByte_literal wf)
  case escAny x => exact decodeWirePair_escAny wf
  case frame d s p y => exact decodeWholeFrame_assembleFrame init wf
  case assemble d s p y => exact decodeAssemble_putHeader d s p y
  case encode d s p y => exact decodeEncode_putHeader wf
  case toUint y o w => exact decodeToUint_putSlice wf
  case toInt y o w => exact decodeToInt_putSlice wf
  case toText y o w sub => exact decodeToText_putSlice wf
  case openT cb => exact decodeOpen_callbackByte cb
  case linkTx d s p y => exact decodeLinkTx_putHeader wf
  all_goals rfl

end Sys2Proof
end

section
/-! PROOF, `CLOSE`. -/

namespace Sys2Proof.Machine

/-- The move `tick` is the worker's or the waiting `CLOSE`'s next move (log 1). -/
theorem step_tick {s : State} {rest : List Input} (h : s.inputs = .tick :: rest) :
    step s = .next (internalMove (s.withInputs rest)) := by
  simp [step, fetch, h, fetchInput]

/-- A `LINK.RX` that drops its frame, or none at all, runs no host code (R162). -/
theorem hostInCallback_eq_false {s : State}
    (h : s.inCb = true → s.cb = some .linkRx ∧ ∀ f, s.evt = some f → decodeFrame s.par.crcInit f = none) :
    hostInCallback s = false := by
  rw [← Bool.not_eq_true, hostInCallback_iff]
  rintro ⟨inCb, other | ⟨f, p, evt, packet⟩⟩
  · exact other (h inCb).1
  · simp [(h inCb).2 f evt] at packet

section execClose

variable {s : State}

/-- `CLOSE` on a block without a worker (R150). -/
theorem execClose_of_no_worker (h : s.run = .closed ∨ s.run = .unopened) :
    execClose s = .next { s with resPut := 0, res := some ⟨.ok, .nothing⟩ } := by
  rcases execClose_cases s with ⟨_, e⟩ | ⟨hc, hu, _⟩ | ⟨hc, hu, _⟩ | ⟨hc, hu, _⟩
  · exact e
  all_goals exact absurd h (not_or.2 ⟨hc, hu⟩)

/-- `RUNNING` and `FAULTED` are neither `CLOSED` nor `UNOPENED` (R29). -/
theorem not_closed_or_unopened (h : s.run = .running ∨ s.run = .faulted) : ¬(s.run = .closed ∨ s.run = .unopened) := by
  rcases h with h | h <;> simp [h]

/-- `CLOSE` on a live worker, from where it can wait (R150, R216). -/
theorem execClose_of_live (h : s.run = .running ∨ s.run = .faulted) (live : s.ended = false)
    (waits : s.caller = .callback → hostInCallback s = false) :
    execClose s = .next { s with stop := true, closing := true, resPut := 0, res := none } := by
  rcases execClose_cases s with ⟨g, _⟩ | ⟨_, _, ended, _⟩ | ⟨_, _, _, caller, stuck, _⟩ | ⟨_, _, _, _, e⟩
  · exact absurd g (not_closed_or_unopened h)
  · simp [live] at ended
  · simp [waits caller] at stuck
  · exact e

/-- `CLOSE` when the worker has ended (R150). -/
theorem execClose_of_ended (h : s.run = .running ∨ s.run = .faulted) (ended : s.ended = true) :
    execClose s = .next (closeFinish { s with stop := true }) := by
  rcases execClose_cases s with ⟨g, _⟩ | ⟨_, _, _, e⟩ | ⟨_, _, live, _⟩ | ⟨_, _, live, _⟩
  · exact absurd g (not_closed_or_unopened h)
  · exact e
  all_goals simp [ended] at live

end execClose

section closeFinish

variable {s : State}

/-- The end of a `CLOSE` whose `T.close()` works (R150). -/
theorem closeFinish_of_closes (h : s.tr.fails.close = false) : closeFinish s = { s with
    txq := [], rxBuf := [], data := [], closing := false, tr := { s.tr with isOpen := false }, tBound := false,
    run := .closed, resPut := 0, res := some ⟨.ok, .nothing⟩ } := by
  simpa [h] using closeFinish_cases s

/-- The end of a `CLOSE` whose `T.close()` fails (R150, R15, R185). -/
theorem closeFinish_of_close_fails (h : s.tr.fails.close = true) : closeFinish s = { s with
    txq := [], rxBuf := [], data := [], closing := false, resPut := 0,
    res := some ⟨.transportError .closeFailed, .nothing⟩ } := by
  simpa [h] using closeFinish_cases s

/-- A waiting `CLOSE` goes on once the worker has ended (R150). -/
theorem internalMove_of_waiting_close (closing : s.closing = true) (ended : s.ended = true) (out : s.inCb = false) :
    internalMove s = closeFinish s := by
  simp [internalMove, workerReady, closing, ended, out]

end closeFinish

/-- Settles O50: each clause is the case of `CLOSE` its hypotheses leave, and, where the worker has ended, the end of the
`CLOSE` that `T.close()` decides. -/
theorem closeSignalsOrFinishes : Obligations.CloseSignalsOrFinishes := by
  intro s
  refine ⟨execClose_of_no_worker, fun run live own => ?_, fun run ended closes => ?_, fun run ended fails => ?_,
    fun rest tick closing ended out fails => ?_⟩
  · exact execClose_of_live run live fun caller => hostInCallback_eq_false (own caller)
  · have finish := closeFinish_of_closes (s := { s with stop := true }) closes
    exact (execClose_of_ended run ended).trans (congrArg Host.Outcome.next finish)
  · have finish := closeFinish_of_close_fails (s := { s with stop := true }) fails
    exact (execClose_of_ended run ended).trans (congrArg Host.Outcome.next finish)
  · have move : internalMove (s.withInputs rest) = closeFinish (s.withInputs rest) :=
      internalMove_of_waiting_close closing ended out
    have finish := closeFinish_of_close_fails (s := s.withInputs rest) fails
    exact (step_tick tick).trans (congrArg Host.Outcome.next (move.trans finish))

end Sys2Proof.Machine
end

section
/-! PROOF, the invariant. What keeps `LinkInv` (Safety.lean), one lemma for each operation; `step_cases` says that a
step is made of these. -/

namespace Sys2Proof.Safety

open Sys2Proof.Machine

/-! ## What the buffers hold -/

/-- `rx_buf` without an `STX` stays so when it is kept or dropped (R145). -/
theorem settled_keepJunk (cap : Option Nat) {b : Bytes} (h : Config.stx ∉ b) : Settled (keepJunk cap b) := by
  unfold keepJunk
  split
  · exact .inl List.not_mem_nil
  · exact .inl h

/-- A frame without its `ETX` yet is what `EXTRACT` leaves (R145). -/
theorem settled_unfinished {m : Bytes} (h : Config.etx ∉ m) : Settled (Config.stx :: m) :=
  .inr ⟨rfl, by simpa [Config.stx, Config.etx] using h⟩

/-- What is not over a capacity fits. -/
theorem le_of_overCap_eq_false {cap : Option Nat} {n : Nat} (h : overCap cap n = false) :
    ∀ c, cap = some c → n ≤ c := by
  rintro c rfl
  simpa using h

/-- Bytes without an `STX` are kept only when they fit (R145, R218). -/
theorem length_keepJunk_le (cap : Option Nat) (b : Bytes) : ∀ c, cap = some c → (keepJunk cap b).length ≤ c := by
  unfold keepJunk
  split
  · exact fun _ _ => Nat.zero_le _
  · next fits => exact le_of_overCap_eq_false (by simpa using fits)

/-! ## The ports and the commands -/

section keeps

variable {s t u v : State}

/-- The ports take in and put out (R38). -/
theorem LinkInv.streamed (h : LinkInv s) (hv : Streamed s v) : LinkInv v := by
  obtain ⟨a, u, more, n, kr, ke, args, w, is, rfl, hr, he, hn⟩ := hv
  obtain ⟨cb, life, buf, ⟨tx, rx, counted⟩, ⟨emits, sent⟩, res, evt⟩ := h
  refine ⟨cb, life, buf, ⟨tx, rx, fun hp hread hrun => ?_⟩, ⟨emits, ?_⟩, ?_, ?_⟩
  · exact (counted hp hread hrun).trans (by simp)
  · rcases hn with rfl | hn
    · exact sent
    · exact hn
  · rcases hr with rfl | hr
    · exact res
    · exact hr
  · rcases he with rfl | he
    · exact evt
    · exact he

/-- Outside the callback the event port is empty (R152, R190). -/
theorem callbackInv_of_out (out : s.inCb = false) (evt : s.evt = none) : CallbackInv s :=
  ⟨fun c => (nomatch out.symm.trans c), fun _ => evt⟩

/-- The callback returns (R193). -/
theorem LinkInv.callbackReturn (h : LinkInv s) : LinkInv (callbackReturn s) := by
  rcases callbackReturn_cases s with ⟨-, e⟩ | ⟨-, e⟩ <;> rw [e]
  · obtain ⟨-, life, buf, count, recs, res, -⟩ := h
    exact ⟨callbackInv_of_out rfl rfl, life, buf, count, recs, res, Nat.zero_le _⟩
  · exact h

/-- The ports move, and the callback may return (R38). -/
theorem LinkInv.edge (h : LinkInv s) (hu : Edge s u) : LinkInv u := by
  obtain ⟨v, hv, rfl | rfl⟩ := hu
  · exact h.streamed hv
  · exact (h.streamed hv).callbackReturn

/-- A result is put on its port (R34). -/
theorem LinkInv.replied (h : LinkInv s) (r : Option Reply) : LinkInv { s with resPut := 0, res := r } := by
  obtain ⟨cb, life, buf, count, recs, -, evt⟩ := h
  exact ⟨cb, life, buf, count, recs, Nat.zero_le _, evt⟩

/-- What leaves the arbiter alone (R22, R23, R202). -/
theorem LinkInv.quiet (h : LinkInv s) (ht : Quiet s t) : LinkInv t := by
  obtain ⟨a, u, r, k, w, is, more, o, rfl, hk, ho⟩ := ht
  obtain ⟨cb, ⟨unopened, life⟩, buf, ⟨tx, rx, counted⟩, recs, res, evt⟩ := h
  refine ⟨cb, ⟨fun hrun => ?_, life⟩, buf, ⟨tx, rx, fun hp hread hrun => ?_⟩, recs, ?_, evt⟩
  · obtain ⟨txq, rxBuf, phase, stop, fault, bound, ended, closing, opening, cb⟩ := unopened hrun
    exact ⟨txq, rxBuf, phase, stop, fault, bound, ended, closing, by simpa [opening] using ho, cb⟩
  · exact (counted hp hread hrun).trans (by simp)
  · rcases hk with rfl | ⟨rfl, rfl⟩
    · exact Nat.zero_le _
    · exact res

/-- `OPEN` (R136). -/
theorem LinkInv.execOpenT (h : LinkInv s) {cb : Callback} (ht : execOpenT cb s = .next t) : LinkInv t := by
  rcases execOpenT_cases cb s with ⟨-, e⟩ | ⟨-, e⟩ <;> cases e.symm.trans ht
  · exact h.replied _
  · obtain ⟨-, -, -, -, recs, -⟩ := h
    refine ⟨?_, ?_, ?_, ?_, recs, Nat.zero_le _, Nat.zero_le _⟩
    · simp [CallbackInv]
    · simp [LifeInv]
    · simp [BufferInv, Settled]
    · simp [CountInv]

/-- `SEND` (R137): a queue with room takes one entry more. -/
theorem LinkInv.sendBytes (h : LinkInv s) (m : Bytes) : LinkInv (sendBytes m s) := by
  rcases sendBytes_cases m s with ⟨-, e⟩ | ⟨-, -, e⟩ | ⟨run, room, e⟩ <;> rw [e]
  · exact h.replied _
  · exact h.replied _
  · obtain ⟨cb, life, ⟨queue, buf⟩, count, recs, -, evt⟩ := h
    refine ⟨cb, ?_, ⟨fun c hc => ?_, buf⟩, count, recs, Nat.zero_le _, evt⟩
    · simpa [LifeInv, run] using life
    · have fits := queue c hc
      have : s.txq.length ≠ c := by rintro rfl; exact room hc
      simp only [List.length_append, List.length_cons, List.length_nil]
      omega

/-- The stop signal is set, and a `CLOSE` may wait (R150). -/
theorem LinkInv.signalled (h : LinkInv s) (c : Bool) (run : s.run = .running ∨ s.run = .faulted) :
    LinkInv { s with stop := true, closing := c } := by
  obtain ⟨cb, ⟨-, running, -, faulted, -⟩, rest⟩ := h
  refine ⟨cb, ⟨fun e => ?_, running, fun e => ?_, faulted, fun _ _ => rfl, fun _ => rfl⟩, rest⟩
  all_goals rcases run with r | r <;> cases r.symm.trans e

/-- A worker that has ended stands in no callback (R151, R152). -/
theorem LinkInv.not_inCb (h : LinkInv s) (ended : s.ended = true) : s.inCb = false := by
  obtain ⟨⟨inside, -⟩, -⟩ := h
  rw [← Bool.not_eq_true]
  intro out
  obtain ⟨-, live, -⟩ := inside out
  cases ended.symm.trans live

/-- A waiting `CLOSE` has set the stop signal (R150). -/
theorem LinkInv.stop_of_closing (h : LinkInv s) (closing : s.closing = true) : s.stop = true := by
  obtain ⟨-, ⟨-, -, -, -, -, waits⟩, -⟩ := h
  exact waits closing

/-- A `CLOSE` waits only after `OPEN` and before `CLOSED` (R150). -/
theorem LinkInv.run_of_closing (h : LinkInv s) (closing : s.closing = true) : s.run = .running ∨ s.run = .faulted := by
  obtain ⟨-, ⟨unopened, -, closed, -⟩, -⟩ := h
  cases run : s.run
  case unopened =>
    obtain ⟨-, -, -, -, -, -, -, none, -⟩ := unopened run
    cases none.symm.trans closing
  case closed =>
    obtain ⟨-, -, -, none, -⟩ := closed run
    cases none.symm.trans closing
  case running => exact .inl rfl
  case faulted => exact .inr rfl

/-- What is neither `CLOSED` nor `UNOPENED` has been opened and not closed (R29). -/
theorem running_or_faulted (hc : s.run ≠ .closed) (hu : s.run ≠ .unopened) : s.run = .running ∨ s.run = .faulted := by
  cases run : s.run <;> simp_all

/-- The end of a `CLOSE` (R150). -/
theorem LinkInv.closeFinish (h : LinkInv s) (stop : s.stop = true) (ended : s.ended = true)
    (run : s.run = .running ∨ s.run = .faulted) : LinkInv (closeFinish s) := by
  have out := h.not_inCb ended
  obtain ⟨⟨-, idle⟩, ⟨-, running, -, faulted, -⟩, ⟨-, -, -, -, reads⟩, ⟨tx, rx, counted⟩, recs, -, evt⟩ := h
  have empty : ∀ r, BufferInv { s with txq := [], rxBuf := [], data := [], run := r } := fun _ =>
    ⟨fun _ _ => Nat.zero_le _, fun _ _ => Nat.zero_le _, .inr (.inl List.not_mem_nil), fun h => absurd rfl h, reads⟩
  rcases closeFinish_cases s with ⟨-, e⟩ | ⟨-, e⟩ <;> rw [e]
  · refine ⟨callbackInv_of_out out (idle out), ⟨fun e => ?_, running, fun e => ?_, faulted, fun _ _ => stop, nofun⟩,
      empty s.run, ⟨tx, rx, counted⟩, recs, Nat.zero_le _, evt⟩
    all_goals rcases run with r | r <;> cases r.symm.trans e
  · refine ⟨callbackInv_of_out out (idle out),
      ⟨nofun, nofun, fun _ => ⟨rfl, rfl, stop, rfl, ended, rfl, rfl⟩, nofun, nofun, nofun⟩, empty .closed,
      ⟨tx, rx, nofun⟩, recs, Nat.zero_le _, evt⟩

/-- `CLOSE` (R150). -/
theorem LinkInv.execClose (h : LinkInv s) (ht : execClose s = .next t) : LinkInv t := by
  rcases execClose_cases s with ⟨-, e⟩ | ⟨hc, hu, ended, e⟩ | ⟨-, -, -, -, -, e⟩ | ⟨hc, hu, -, -, e⟩ <;>
    cases e.symm.trans ht
  · exact h.replied _
  · have run := running_or_faulted hc hu
    exact (h.signalled s.closing run).closeFinish rfl ended run
  · exact (h.signalled true (running_or_faulted hc hu)).replied none

/-- A decoded operation. -/
theorem LinkInv.commanded (h : LinkInv u) (ht : Commanded u t) : LinkInv t := by
  rcases ht with quiet | ⟨cb, e⟩ | ⟨m, rfl⟩ | e
  · exact h.quiet quiet
  · exact h.execOpenT e
  · exact h.sendBytes m
  · exact h.execClose e

/-! ## The worker -/

/-- A fault is raised outside the callback (R187). -/
theorem LinkInv.raiseFault (h : LinkInv s) (out : s.inCb = false) (f : FaultName) : LinkInv (raiseFault f s) := by
  obtain ⟨⟨-, idle⟩, ⟨-, -, -, -, -, waits⟩, ⟨queue, fits, settled, -, reads⟩, ⟨tx, rx, -⟩, recs, ports⟩ := h
  have recorded : (s.fault.or (some f)).isSome = true := by simp
  refine ⟨callbackInv_of_out out (idle out), ⟨nofun, nofun, nofun, fun _ => ⟨recorded, rfl⟩, nofun, waits⟩,
    ⟨queue, fits, settled, fun h => absurd rfl h, reads⟩, ⟨tx, rx, nofun⟩, recs, ports⟩

/-- The callback ends with an error (R187, U4). -/
theorem LinkInv.callbackError (h : LinkInv s) : LinkInv (callbackError s) := by
  rcases callbackError_cases s with ⟨inCb, e⟩ | e <;> rw [e]
  · have returned := h.callbackReturn
    simp only [Machine.callbackReturn, inCb, if_true] at returned
    exact returned.raiseFault rfl _
  · exact h

/-- Nobody counts the bytes of `T.in` once the worker has faulted (R187). -/
theorem LinkInv.of_faulted_inb (h : LinkInv s) (run : s.run = .faulted) (b : Bytes) :
    LinkInv { s with tr := { s.tr with inb := b } } := by
  obtain ⟨cb, life, buf, ⟨tx, rx, -⟩, recs, ports⟩ := h
  exact ⟨cb, life, buf, ⟨tx, rx, fun _ _ e => nomatch run.symm.trans e⟩, recs, ports⟩

/-- Phase `CHECK` (R139). -/
theorem LinkInv.phaseCheck (h : LinkInv s) (run : s.run = .running) (out : s.inCb = false) (phase : s.phase = .check) :
    LinkInv (phaseCheck s) := by
  rcases phaseCheck_cases s with ⟨stop, e⟩ | ⟨-, -, e⟩ | ⟨-, -, -, e⟩ <;> rw [e]
  · obtain ⟨⟨-, idle⟩, ⟨-, running, -, -, -, waits⟩, rest⟩ := h
    refine ⟨callbackInv_of_out out (idle out), ⟨fun e => ?_, running, fun e => ?_, fun e => ?_, fun _ _ => stop, waits⟩,
      rest⟩
    all_goals cases run.symm.trans e
  · exact h.raiseFault out _
  · obtain ⟨⟨-, idle⟩, life, ⟨queue, fits, settled, waiting, reads⟩, -, recs, ports⟩ := h
    refine ⟨callbackInv_of_out out (idle out), ?_, ⟨queue, fits, .inr ?_, fun hd => ?_, nofun⟩,
      ⟨?_, ?_, fun _ _ _ => le_rfl⟩, recs, ports⟩
    · simpa [LifeInv, run] using life
    · simpa [phase] using settled
    · obtain ⟨rx, -⟩ := waiting hd
      cases phase.symm.trans rx
    · cases s.tr.inb <;> simp
    · cases s.tr.inb <;> simp

/-- The head entry leaves the queue and some of it is written (R143). -/
theorem LinkInv.wroteHead (h : LinkInv s) (run : s.run = .running) {e : Bytes} {q : List Bytes} (hq : s.txq = e :: q)
    (w : Bytes) : LinkInv { s with txq := q, tr := { s.tr with outb := s.tr.outb ++ w } } := by
  obtain ⟨cb, life, ⟨queue, buf⟩, count, ⟨emits, sent⟩, ports⟩ := h
  refine ⟨cb, ?_, ⟨fun c hc => ?_, buf⟩, count, ⟨emits, sent.trans (by simp)⟩, ports⟩
  · simpa [LifeInv, run] using life
  · have := queue c hc
    rw [hq, List.length_cons] at this
    exact Nat.le_of_succ_le this

/-- From a phase other than `RX` to `CHECK` or `SLEEP` (R140). -/
theorem LinkInv.nextPhase (h : LinkInv s) (run : s.run = .running) (out : s.inCb = false) (not_rx : s.phase ≠ .rx)
    {p : Phase} (ne_tx : p ≠ .tx) (ne_rx : p ≠ .rx) : LinkInv { s with phase := p } := by
  obtain ⟨⟨-, idle⟩, life, ⟨queue, fits, settled, waiting, reads⟩, -, recs, ports⟩ := h
  refine ⟨callbackInv_of_out out (idle out), ?_, ⟨queue, fits, .inr ?_, fun hd => ?_, fun e => ?_⟩,
    ⟨fun e => absurd e ne_tx, fun e => absurd e ne_rx, fun e => absurd e ne_rx⟩, recs, ports⟩
  · simpa [LifeInv, run] using life
  · simpa [not_rx] using settled
  · obtain ⟨rx, -⟩ := waiting hd
    exact absurd rx not_rx
  · exact absurd (reads e) not_rx

/-- Phase `TX` (R143). -/
theorem LinkInv.phaseTx (h : LinkInv s) (run : s.run = .running) (out : s.inCb = false) (phase : s.phase = .tx) :
    LinkInv (phaseTx s) := by
  have not_rx : s.phase ≠ .rx := by simp [phase]
  rcases phaseTx_cases s with ⟨-, e⟩ | ⟨e, q, hq, -, -, e'⟩ | ⟨e, q, k, hq, -, -, e'⟩ | ⟨e, q, hq, -, e'⟩
  · rw [e]
    exact h.nextPhase run out not_rx nofun nofun
  · rw [e']
    exact (h.wroteHead run hq e).nextPhase run out not_rx nofun nofun
  · rw [e']
    exact (h.wroteHead run hq (e.take k)).raiseFault out _
  · have wrote_nothing := h.wroteHead run hq []
    simp only [List.append_nil] at wrote_nothing
    rw [e']
    exact wrote_nothing.raiseFault out _

/-- Inside `EXTRACT` the buffer may hold any bytes that fit, and the drain's other bytes wait for a full one (R141,
R142). -/
theorem LinkInv.rebuffered (h : LinkInv s) (run : s.run = .running) (phase : s.phase = .rx) (read : s.rxRead = true)
    {b d : Bytes} (fits : ∀ c, s.par.rxBufCap = some c → b.length ≤ c)
    (full : d ≠ [] → s.par.rxBufCap = some b.length) :
    LinkInv { s with rxBuf := b, data := d } := by
  obtain ⟨cb, life, ⟨queue, -⟩, rest⟩ := h
  refine ⟨cb, ?_, ⟨queue, fits, .inl ⟨phase, read⟩, fun hd => ⟨phase, read, run, full hd⟩, fun _ => phase⟩, rest⟩
  simpa [LifeInv, run] using life

/-- What is still to be scanned is written back (R25, R46, R142). -/
theorem LinkInv.withScanned (h : LinkInv s) (run : s.run = .running) (phase : s.phase = .rx) (read : s.rxRead = true)
    (b : Bytes) : LinkInv (s.withScanned b) :=
  h.rebuffered run phase read (fun _ hc => length_keepCap_le hc b) cap_of_beyondCap_ne_nil

/-- A candidate is emitted (R152, R190). -/
theorem LinkInv.emitFrame (h : LinkInv s) (run : s.run = .running) (live : s.ended = false) (phase : s.phase = .rx)
    (read : s.rxRead = true) {f : Bytes} (hf : IsCandidate f) : LinkInv (emitFrame f s) := by
  obtain ⟨-, life, buf, count, ⟨emits, sent⟩, res, -⟩ := h
  rw [emitFrame_eq]
  refine ⟨⟨fun _ => ⟨run, live, phase, read, rfl⟩, nofun⟩, life, buf, count, ⟨fun g hg => ?_, sent⟩, res, Nat.zero_le _⟩
  rcases List.mem_append.1 hg with hg | hg
  · exact emits g hg
  · exact List.mem_singleton.1 hg ▸ hf

/-- `EXTRACT` has run to its end, and so has phase `RX` (R138, R145). -/
theorem LinkInv.rxDone (h : LinkInv s) (run : s.run = .running) (out : s.inCb = false) {b : Bytes}
    (fits : ∀ c, s.par.rxBufCap = some c → b.length ≤ c) (settled : Settled b) :
    LinkInv { s with rxBuf := b, data := [], phase := .sleep, rxRead := false } := by
  obtain ⟨⟨-, idle⟩, life, ⟨queue, -⟩, -, recs, ports⟩ := h
  refine ⟨callbackInv_of_out out (idle out), ?_, ⟨queue, fits, .inr settled, fun hd => absurd rfl hd, nofun⟩,
    ⟨nofun, nofun, nofun⟩, recs, ports⟩
  · simpa [LifeInv, run] using life

/-- A pass of `EXTRACT` inside phase `RX` (R142, R155). -/
theorem LinkInv.extractInRx (h : LinkInv s) (run : s.run = .running) (live : s.ended = false) (out : s.inCb = false)
    (phase : s.phase = .rx) (read : s.rxRead = true) : LinkInv (extractInRx s) := by
  unfold Machine.extractInRx
  rcases extractPass_cases s with ⟨noStx, e⟩ | ⟨a, m, -, -, noEtx, fits, e⟩ | ⟨a, m, r, -, -, noEtx, -, e⟩ |
    ⟨a, m, -, -, -, e⟩ <;> simp only [e]
  · exact h.rxDone run out (length_keepJunk_le _ _) (settled_keepJunk _ noStx)
  · exact h.rxDone run out (le_of_overCap_eq_false fits) (settled_unfinished noEtx)
  · exact (h.withScanned run phase read r).emitFrame run live phase read ⟨m, rfl, noEtx⟩
  · exact (h.rebuffered run phase read (fun _ hc => length_keepCap_le hc _) (fun hd => absurd rfl hd)).raiseFault out _

/-- The counted bytes have been read (R141). -/
theorem LinkInv.tookCounted (h : LinkInv s) (phase : s.phase = .rx) (b : Bytes) :
    LinkInv { s with rxRead := true, tr := { s.tr with inb := b } } := by
  obtain ⟨⟨inside, idle⟩, life, ⟨queue, fits, -, waiting, -⟩, ⟨tx, rx, -⟩, recs, ports⟩ := h
  refine ⟨⟨fun c => ?_, idle⟩, life, ⟨queue, fits, .inl ⟨phase, rfl⟩, fun hd => ?_, fun _ => phase⟩,
    ⟨tx, rx, nofun⟩, recs, ports⟩
  · obtain ⟨run, live, -, -, evt⟩ := inside c
    exact ⟨run, live, phase, rfl, evt⟩
  · obtain ⟨-, -, run, full⟩ := waiting hd
    exact ⟨phase, rfl, run, full⟩

/-- Phase `RX` (R141). -/
theorem LinkInv.phaseRx (h : LinkInv s) (run : s.run = .running) (live : s.ended = false) (out : s.inCb = false)
    (phase : s.phase = .rx) : LinkInv (phaseRx s) := by
  rcases phaseRx_cases s with ⟨read, e⟩ | ⟨-, -, -, e⟩ | ⟨k, -, -, -, e⟩ | ⟨-, -, e⟩ <;> rw [e]
  · exact h.extractInRx run live out phase read
  · exact ((h.tookCounted phase _).withScanned run phase rfl _).extractInRx run live out phase rfl
  · exact (h.raiseFault out (.transportFault .read)).of_faulted_inb rfl _
  · exact h.raiseFault out _

/-- The worker's next phase (R138). -/
theorem LinkInv.workerPhase (h : LinkInv s) (ready : workerReady s = true) : LinkInv (workerPhase s) := by
  obtain ⟨run, live, out⟩ := (workerReady_iff s).1 ready
  unfold Machine.workerPhase
  split
  case h_1 phase => exact h.phaseCheck run out phase
  case h_2 phase => exact h.phaseRx run live out phase
  case h_3 phase => exact h.phaseTx run out phase
  case h_4 phase => exact h.nextPhase run out (by simp [phase]) nofun nofun

/-- The block's own move (R150, R152, R162). -/
theorem LinkInv.internalMove (h : LinkInv s) : LinkInv (internalMove s) := by
  rcases internalMove_cases s with ⟨e, -⟩ | ⟨inCb, -, e⟩ | ⟨ready, e⟩ | ⟨-, -, closing, ended, e⟩
  · exact e.symm ▸ h
  · have returned := h.callbackReturn
    simpa only [Machine.callbackReturn, inCb, if_true, e] using returned
  · exact e.symm ▸ h.workerPhase ready
  · exact e.symm ▸ h.closeFinish (h.stop_of_closing closing) ended (h.run_of_closing closing)

/-! ## The other agents -/

/-- A new medium before `OPEN` (R40, R209). -/
theorem LinkInv.openMedium (h : LinkInv s) (waiting held : Bytes) (echo : Bool) :
    LinkInv (openMedium waiting held echo s) := by
  unfold Machine.openMedium
  split
  case isTrue run =>
    obtain ⟨cb, ⟨unopened, running, -, life⟩, buf, ⟨tx, rx, -⟩, ⟨emits, -⟩, ports⟩ := h
    exact ⟨cb, ⟨unopened, running, fun e => (nomatch run.symm.trans e), life⟩, buf,
      ⟨tx, rx, fun _ _ e => (nomatch run.symm.trans e)⟩, ⟨emits, Nat.zero_le _⟩, ports⟩
  case isFalse => exact h

/-- A reset (R206, R208): the reset values meet the invariant, and the records that stay met it already. -/
theorem LinkInv.resetMove (h : LinkInv s) (k : Nat) : LinkInv (resetMove k s) := by
  obtain ⟨-, -, -, -, ⟨emits, sent⟩, -⟩ := h
  refine ⟨?_, ?_, ?_, ?_, ⟨emits, sent.trans (by simp [Machine.resetMove, transportAtReset])⟩, Nat.zero_le _,
    Nat.zero_le _⟩
  · simp [CallbackInv, Machine.resetMove, State.reset]
  · simp [LifeInv, Machine.resetMove, State.reset]
  · simp [BufferInv, Settled, Machine.resetMove, State.reset]
  · simp [CountInv, Machine.resetMove, State.reset]

end keeps

/-- Settles O4: each of the moves a step is made of (`step_cases`) keeps the invariant. -/
theorem everyStepKeepsTheInvariant : Obligations.EveryStepKeepsTheInvariant := by
  intro s t h hs
  have next : ∀ is, LinkInv { s with inputs := is } := fun _ => h
  rcases step_cases hs with ⟨u, edge, cmd⟩ | ⟨is, rfl⟩ | ⟨is, rfl⟩ | ⟨is, b, o, e, -, rfl⟩ | ⟨is, f, rfl⟩ |
    ⟨is, hangs, late, rfl⟩ | ⟨is, k, -, rfl⟩
  · exact (h.edge edge).commanded cmd
  · exact (next is).internalMove
  · exact (next is).callbackError
  · exact (next is).openMedium b o e
  · exact h
  · exact h
  · exact (next is).resetMove k

end Sys2Proof.Safety
end

section
/-! PROOF, the wire and the fetch. What `step` makes of a move that carries an operation, and what the wire forms do to
`T.in` and to the streaming unstuffer (R63, R101). -/

namespace Sys2Proof.Machine

/-! ## The moves that carry an operation -/

section moves

variable {s : State} {rest : List Input}

/-- A command that decodes (R37, R58). -/
theorem step_host_ok {who : Caller} {op : BitVec 4} {args : Bytes} {i : Instr}
    (h : s.inputs = .host who op args :: rest)
    (hd : decode s.par.crcInit (.hostCmd op args) = .ok i) :
    step s = exec i { s with inputs := rest, caller := who } := by
  simp [step, fetch, h, fetchInput, fetchHost, hd, State.withInputs]

/-- Operand bytes that are no operand (R200). -/
theorem step_host_error {who : Caller} {op : BitVec 4} {args : Bytes} {e : DecodeError}
    (h : s.inputs = .host who op args :: rest) (hd : decode s.par.crcInit (.hostCmd op args) = .error e) :
    step s = .refused (.malformedOperands e) := by
  simp [step, fetch, h, fetchInput, fetchHost, hd]

/-- The bytes of a delivery still to come are the next move. -/
theorem pendingLine_withInputs (more : Bytes) : pendingLine more (s.withInputs rest) =
    { s with inputs := if more = [] then rest else .line more :: rest } := by
  cases more <;> rfl

/-- An empty delivery (R20). -/
theorem step_line_nil (h : s.inputs = .line [] :: rest) : step s = .next { s with inputs := rest } := by
  simp [step, fetch, h, fetchInput, fetchLine, firstSymbol, State.withInputs]

/-- The first symbol of a delivery (R63, R66). -/
theorem step_line {bytes more : Bytes} {e : Encoding} {i : Instr} (h : s.inputs = .line bytes :: rest)
    (hf : firstSymbol bytes = some (e, more)) (hd : decode s.par.crcInit e = .ok i) :
    step s = exec i { s with inputs := if more = [] then rest else .line more :: rest } := by
  simp only [step, fetch, h, fetchInput, fetchLine, hf, State.withInputs_par, hd, pendingLine_withInputs]

/-- A whole frame (R60). -/
theorem step_frame {bytes : Bytes} {i : Instr} (h : s.inputs = .frame bytes :: rest)
    (hd : decode s.par.crcInit (.frame bytes) = .ok i) : step s = exec i { s with inputs := rest } := by
  simp [step, fetch, h, fetchInput, fetchFrame, hd, State.withInputs]

/-- The operand bytes at an edge of `clk` (R38). -/
theorem argsAt_eq (p : Pins) (s : State) : argsAt p s = s.argIn ++ (if p.argValid = true then [p.argData] else []) := by
  unfold argsAt
  split <;> simp

/-- The ports' edge leaves the parameters (R35). -/
@[simp] theorem portsEdge_par (p : Pins) (s : State) : (portsEdge p s).par = s.par := by
  obtain ⟨v, ⟨_, _, _, _, _, _, _, _, _, rfl, -⟩, e | e⟩ := portsEdge_edge p s
  · rw [e]
  · rcases callbackReturn_cases _ with ⟨-, e'⟩ | ⟨-, e'⟩ <;> rw [e, e']

/-- An edge of `clk` is fetched with the moves after it. -/
theorem fetch_clk {p : Pins} (h : s.inputs = .clk p :: rest) : fetch s = fetchClk p { s with inputs := rest } := by
  simp [fetch, h, fetchInput, State.withInputs]

/-- An edge at which the command port takes nothing (R38). -/
theorem step_clk_idle {p : Pins} (h : s.inputs = .clk p :: rest) (idle : p.cmdValid = false ∨ cmdReady s = false) :
    step s = .next (portsEdge p { s with inputs := rest }) := by
  have closed : (p.cmdValid && cmdReady { s with inputs := rest }) = false := Bool.and_eq_false_iff.2 idle
  simp [step, fetch_clk h, fetchClk, closed]

section taken

variable {p : Pins} (h : s.inputs = .clk p :: rest) (valid : p.cmdValid = true) (ready : cmdReady s = true)

include h valid ready

/-- An edge at which the command port is open (R38). -/
theorem fetch_clk_taken : fetch s =
    if p.argLast = true then
      fetchHost .host p.cmdOp (argsAt p s) { portsEdge p { s with inputs := rest } with argIn := [] }
    else .event { portsEdge p { s with inputs := rest } with argIn := argsAt p s } := by
  have taking : (p.cmdValid && cmdReady { s with inputs := rest }) = true := Bool.and_eq_true_iff.2 ⟨valid, ready⟩
  rw [fetch_clk h, fetchClk, if_pos taking]
  rfl

/-- An operand byte is taken and more are to come (R38). -/
theorem step_clk_arg (last : p.argLast = false) :
    step s = .next { portsEdge p { s with inputs := rest } with argIn := argsAt p s } := by
  simp [step, fetch_clk_taken h valid ready, last]

/-- The command is taken with its last operand byte (R38). -/
theorem step_clk_ok {i : Instr} (last : p.argLast = true)
    (hd : decode s.par.crcInit (.hostCmd p.cmdOp (argsAt p s)) = .ok i) :
    step s = exec i { portsEdge p { s with inputs := rest } with argIn := [], caller := .host } := by
  simp [step, fetch_clk_taken h valid ready, last, fetchHost, hd]

/-- The command is taken and its operand bytes are no operand (R38, R200). -/
theorem step_clk_error {e : DecodeError} (last : p.argLast = true)
    (hd : decode s.par.crcInit (.hostCmd p.cmdOp (argsAt p s)) = .error e) :
    step s = .refused (.malformedOperands e) := by
  simp [step, fetch_clk_taken h valid ready, last, fetchHost, hd]

end taken

end moves

/-- Settles O5: one lemma for each kind of move that carries an operation. -/
theorem stepRunsTheDecodedOperation : Obligations.StepRunsTheDecodedOperation := by
  refine ⟨fun s who op args rest i h => step_host_ok h, fun s who op args rest e h => step_host_error h,
    fun s bytes rest e more i h => step_line h, fun s bytes rest i h => step_frame h, fun s p rest h => ?_⟩
  dsimp only
  rw [← argsAt_eq]
  exact ⟨step_clk_idle h, fun valid ready =>
    ⟨step_clk_arg h valid ready, fun i => step_clk_ok h valid ready, fun e => step_clk_error h valid ready⟩⟩

/-! ## Wire bytes -/

/-- After a `DLE` the complement is data (R101). -/
theorem unstuffStep_paired (o : Bytes) (c : Byte) : unstuffStep (true, o) c = (false, o ++ [~~~c]) := rfl

/-- A `DLE` sets the flag (R101). -/
theorem unstuffStep_dle (o : Bytes) : unstuffStep (false, o) Config.dle = (true, o) := rfl

/-- Any other byte is data (R101). -/
theorem unstuffStep_data (o : Bytes) {c : Byte} (h : c ≠ Config.dle) :
    unstuffStep (false, o) c = (false, o ++ [c]) := by
  simp [unstuffStep, h]

/-- A literal is none of the special bytes (R63, R64). -/
theorem ne_of_isSpecial_eq_false {v : Byte} (h : isSpecial v = false) :
    v ≠ Config.stx ∧ v ≠ Config.etx ∧ v ≠ Config.dle := by
  simpa [isSpecial, and_assoc] using h

section wireIn

variable {s : State} {c : Byte}

/-- Outside, an `STX` begins a candidate's interior (R23, R68). -/
theorem wireIn_begins (out : s.uat = .outside) : wireIn Config.stx s = { s with
    tr := { s.tr with inb := s.tr.inb ++ [Config.stx] }, uat := .framed, uesc := false, uout := [] } := by
  rw [wireIn_eq, out, wireStep_begins]

/-- Outside, a byte other than an `STX` is no data (R142). -/
theorem wireIn_outside (out : s.uat = .outside) (h : c ≠ Config.stx) :
    wireIn c s = { s with tr := { s.tr with inb := s.tr.inb ++ [c] }, uat := .outside } := by
  rw [wireIn_eq, out, wireStep_outside _ h]

/-- The `ETX` of a candidate leaves the flag and the output (R68). -/
theorem wireIn_ends (framed : s.uat = .framed) :
    wireIn Config.etx s = { s with tr := { s.tr with inb := s.tr.inb ++ [Config.etx] }, uat := .outside } := by
  rw [wireIn_eq, framed, wireStep_ends]

/-- An interior takes every byte but the `ETX` that ends a candidate's (R63, R68, R101). -/
theorem wireIn_inside (inside : s.uat = .given ∨ s.uat = .framed ∧ c ≠ Config.etx) : wireIn c s = { s with
    tr := { s.tr with inb := s.tr.inb ++ [c] }, uesc := (unstuffStep (s.uesc, s.uout) c).1,
    uout := (unstuffStep (s.uesc, s.uout) c).2 } := by
  rcases inside with given | ⟨framed, h⟩
  · rw [wireIn_eq, given, wireStep_given, ← given]
  · rw [wireIn_eq, framed, wireStep_framed _ h, ← framed]

/-- In an interior a byte other than the `ETX` is taken, whichever interior it is. -/
theorem given_or_framed (inside : s.uat ≠ .outside) (h : c ≠ Config.etx) :
    s.uat = .given ∨ s.uat = .framed ∧ c ≠ Config.etx := by
  cases place : s.uat
  · exact absurd place inside
  · exact .inr ⟨rfl, h⟩
  · exact .inl rfl

/-- A byte after a `DLE` (R66, R101). -/
theorem wireIn_paired (inside : s.uat = .given ∨ s.uat = .framed ∧ c ≠ Config.etx) (esc : s.uesc = true) :
    wireIn c s = { s with
      tr := { s.tr with inb := s.tr.inb ++ [c] }, uesc := false, uout := s.uout ++ [~~~c] } := by
  rw [wireIn_inside inside, esc, unstuffStep_paired]

/-- A `DLE` that is not paired (R101). -/
theorem wireIn_dle (inside : s.uat ≠ .outside) (esc : s.uesc = false) : wireIn Config.dle s = { s with
    tr := { s.tr with inb := s.tr.inb ++ [Config.dle] }, uesc := true } := by
  rw [wireIn_inside (given_or_framed inside (by decide)), esc, unstuffStep_dle]

/-- A byte that is data as it is (R101). -/
theorem wireIn_data (inside : s.uat = .given ∨ s.uat = .framed ∧ c ≠ Config.etx) (esc : s.uesc = false)
    (h : c ≠ Config.dle) : wireIn c s = { s with
      tr := { s.tr with inb := s.tr.inb ++ [c] }, uesc := false, uout := s.uout ++ [c] } := by
  rw [wireIn_inside inside, esc, unstuffStep_data _ h]

end wireIn

/-- Settles O10: each class of wire byte, where the unstuffer stands and with the flag it holds, by the lemma for that
case. -/
theorem wireBytesEnterTheStreams : Obligations.WireBytesEnterTheStreams := by
  intro s
  refine ⟨fun out => ?_, fun inside esc => ?_, fun inside esc => ?_, fun framed => ?_, fun given esc => ?_,
    fun given esc => ?_⟩
  · refine ⟨congrArg _ (wireIn_begins out), congrArg _ (wireIn_outside out (by decide)),
      congrArg _ (wireIn_outside out (by decide)), fun v plain => ?_⟩
    obtain ⟨stx, -, -⟩ := ne_of_isSpecial_eq_false plain
    exact congrArg _ (wireIn_outside out stx)
  · refine ⟨congrArg _ (wireIn_data (given_or_framed inside (by decide)) esc (by decide)),
      congrArg _ (wireIn_dle inside esc), fun v plain => ?_⟩
    obtain ⟨-, etx, dle⟩ := ne_of_isSpecial_eq_false plain
    exact congrArg _ (wireIn_data (given_or_framed inside etx) esc dle)
  · refine ⟨congrArg _ (wireIn_paired (given_or_framed inside (by decide)) esc),
      congrArg _ (wireIn_paired (given_or_framed inside (by decide)) esc), fun v plain => ?_⟩
    obtain ⟨-, etx, -⟩ := ne_of_isSpecial_eq_false plain
    exact congrArg _ (wireIn_paired (given_or_framed inside etx) esc)
  · exact congrArg _ (wireIn_ends framed)
  · have data := wireIn_data (c := Config.etx) (.inl given) esc (by decide)
    rw [← given]
    exact congrArg _ data
  · have paired := wireIn_paired (c := Config.etx) (.inl given) esc
    rw [← given]
    exact congrArg _ paired

/-! ## Interiors -/

/-- What the streaming unstuffer has when an interior ends there: `fail` for a flag left set (R101). -/
def streamResult (st : Bool × Bytes) : Option Bytes := if st.1 then none else some st.2

theorem unstufferResult_eq (s : State) : unstufferResult s = streamResult (s.uesc, s.uout) := rfl

/-- The streaming form gives what `UNSTUFF` gives, after what it has output already (R98, R101). -/
theorem streamResult_foldl_unstuffStep : ∀ w o : Bytes,
    streamResult (w.foldl unstuffStep (false, o)) = (unstuffBytes w).map (o ++ ·)
  | [], o => by simp [streamResult]
  | [b], o => by
    by_cases h : b = Config.dle
    · subst h; rfl
    · simp [unstuffStep_data _ h, unstuffBytes_cons h, streamResult]
  | b :: c :: w, o => by
    by_cases h : b = Config.dle
    · subst h
      rw [List.foldl_cons, unstuffStep_dle, List.foldl_cons, unstuffStep_paired, streamResult_foldl_unstuffStep w]
      simp [Function.comp_def]
    · rw [List.foldl_cons, unstuffStep_data _ h, streamResult_foldl_unstuffStep (c :: w), unstuffBytes_cons h]
      simp [Function.comp_def]

/-- An interior from its beginning (R98, R101). -/
theorem streamResult_of_interior (w : Bytes) : streamResult (w.foldl unstuffStep (false, [])) = unstuffBytes w := by
  simp [streamResult_foldl_unstuffStep]

/-- A stuffed body streams back to the body, with the flag 0 (R96, R101). -/
theorem foldl_unstuffStep_stuffBytes (m o : Bytes) : (stuffBytes m).foldl unstuffStep (false, o) = (false, o ++ m) := by
  induction m generalizing o with
  | nil => simp
  | cons b m ih =>
    cases h : isSpecial b with
    | true =>
      rw [stuffBytes_cons_special h, List.foldl_cons, unstuffStep_dle, List.foldl_cons, unstuffStep_paired, ih]
      simp
    | false =>
      obtain ⟨-, -, dle⟩ := ne_of_isSpecial_eq_false h
      rw [stuffBytes_cons_plain h, List.foldl_cons, unstuffStep_data _ dle, ih]
      simp

/-- A stuffed body has no `ETX` (R67). -/
theorem etx_not_mem_stuffBytes (m : Bytes) : Config.etx ∉ stuffBytes m := by
  induction m with
  | nil => exact List.not_mem_nil
  | cons b m ih =>
    cases h : isSpecial b with
    | true =>
      have complement : Config.etx ≠ ~~~b := by rcases complement_of_special h with e | e | e <;> rw [e] <;> decide
      rw [stuffBytes_cons_special h]
      exact List.not_mem_cons_of_ne_of_not_mem (by decide) (List.not_mem_cons_of_ne_of_not_mem complement ih)
    | false =>
      obtain ⟨-, etx, -⟩ := ne_of_isSpecial_eq_false h
      rw [stuffBytes_cons_plain h]
      exact List.not_mem_cons_of_ne_of_not_mem etx.symm ih

/-- A body byte is stuffed as one wire byte or two (R99). -/
theorem length_stuffBytes_singleton (b : Byte) : (stuffBytes [b]).length = 1 ∨ (stuffBytes [b]).length = 2 := by
  cases h : isSpecial b with
  | true => exact .inr (by simp [stuffBytes_cons_special h])
  | false => exact .inl (by simp [stuffBytes_cons_plain h])

/-- Settles O13: an interior is a fold of `unstuffStep`, and that fold gives what `UNSTUFF` gives. -/
theorem streamingUnstufferAgreesWithUnstuff : Obligations.StreamingUnstufferAgreesWithUnstuff := by
  refine ⟨fun w s => ?_, fun w s out noEtx => ?_, fun s c inside => ?_, fun _ => rfl, rfl, rfl,
    fun b m => ⟨stuffBytes_append [b] m, length_stuffBytes_singleton b⟩⟩
  · have fed : w.foldl wireStep (.given, false, []) = (.given, w.foldl unstuffStep (false, [])) :=
      foldl_wireStep_given w (false, [])
    rw [← streamResult_of_interior w, unstufferResult_eq, foldl_wireIn]
    exact congrArg (fun u => streamResult u.2) fed
  · have fed : ([Config.stx] ++ w ++ [Config.etx]).foldl wireStep (s.uat, s.uesc, s.uout)
        = (.outside, w.foldl unstuffStep (false, [])) := by
      rw [out]
      exact foldl_wireStep_candidate noEtx _
    dsimp only
    rw [← streamResult_of_interior w, unstufferResult_eq, foldl_wireIn]
    exact ⟨congrArg Prod.fst fed, congrArg (fun u => streamResult u.2) fed⟩
  · rw [wireIn_inside inside]
    cases esc : s.uesc
    · by_cases dle : c = Config.dle
      · subst dle; exact ⟨rfl, (List.append_nil _).symm⟩
      · have ne : c ≠ 0x20#8 := dle
        simp [unstuffStep_data _ dle, ne]
    · exact ⟨rfl, rfl⟩

/-! ## The frame row -/

theorem pidHi_eq_ofNat (p : Pid) : pidHi p = BitVec.ofNat 8 (p.toNat / 256) := by
  have := p.isLt
  apply BitVec.eq_of_toNat_eq
  rw [pidHi_toNat, BitVec.toNat_ofNat]
  omega

theorem pidLo_eq_ofNat (p : Pid) : pidLo p = BitVec.ofNat 8 (p.toNat % 256) := by
  apply BitVec.eq_of_toNat_eq
  rw [pidLo_toNat, BitVec.toNat_ofNat]
  omega

/-- The body of a frame, field by field (R60, R69). -/
theorem headAndPayload_eq (d sr : Byte) (p : Pid) (y : Bytes) : headAndPayload d sr p y
    = [d, sr, BitVec.ofNat 8 (p.toNat / 256), BitVec.ofNat 8 (p.toNat % 256)] ++ y := by
  simp [headAndPayload, pidHi_eq_ofNat, pidLo_eq_ofNat]

section frame

variable (init d sr : Byte) (p : Pid) (y : Bytes)

/-- A frame on a line that is in no interior leaves its body (R60, R101). -/
theorem foldl_wireStep_assembleFrame (u : Bool × Bytes) : (assembleFrame init d sr p y).foldl wireStep (.outside, u)
    = (.outside, false, frameBody init d sr p y) := by
  rw [assembleFrame, foldl_wireStep_candidate (etx_not_mem_stuffBytes _), foldl_unstuffStep_stuffBytes, List.nil_append]

/-- After an unfinished candidate the frame is more of it, and its `ETX` ends it (R70 b, R217). -/
theorem foldl_wireStep_assembleFrame_framed (u : Bool × Bytes) :
    (assembleFrame init d sr p y).foldl wireStep (.framed, u)
      = (.outside, (assembleFrame init d sr p y).dropLast.foldl unstuffStep u) := by
  have body : Config.etx ∉ Config.stx :: stuffBytes (frameBody init d sr p y) :=
    List.not_mem_cons_of_ne_of_not_mem (by decide) (etx_not_mem_stuffBytes _)
  have split : assembleFrame init d sr p y
      = (Config.stx :: stuffBytes (frameBody init d sr p y)) ++ [Config.etx] := rfl
  rw [split, List.foldl_append, foldl_wireStep_framed body, List.dropLast_concat]
  rfl

end frame

/-- Settles O12: `FRAME` is its bytes one after another, and what they leave depends on where the unstuffer stood. -/
theorem frameRowCarriesItsBody : Obligations.FrameRowCarriesItsBody := by
  intro s d sr p y
  dsimp only
  rw [← headAndPayload_eq]
  have runs : exec (.frame d sr p y) s = .next (frameIn d sr p y s) := rfl
  rw [runs, frameIn_eq]
  refine ⟨fun out => ?_, fun framed => ?_, fun given => ?_⟩
  · rw [out, foldl_wireStep_assembleFrame, frameBody]
  · rw [framed, foldl_wireStep_assembleFrame_framed]
  · rw [given, foldl_wireStep_given]

/-! ## Deliveries -/

/-- A wire byte's operation lets the byte in (R63). -/
theorem exec_decodeWireByte (b : Byte) (s : State) : exec (decodeWireByte b) s = .next (wireIn b s) := by
  unfold decodeWireByte
  split_ifs with stx etx dle
  · rw [stx]; rfl
  · rw [etx]; rfl
  · rw [dle]; rfl
  · rfl

/-- A wire pair's operation lets both bytes in (R65, R66). -/
theorem exec_decodeWirePair (c : Byte) : ∃ i, decodeWirePair Config.dle c = .ok i
    ∧ ∀ s, exec i s = .next (wireIn c (wireIn Config.dle s)) := by
  refine ⟨_, if_pos rfl, fun s => ?_⟩
  split_ifs with stx etx dle
  · rw [stx]; rfl
  · rw [etx]; rfl
  · rw [dle]; rfl
  · rfl

/-- A `DLE` and the byte after it are a pair (R66). -/
theorem firstSymbol_pair (c : Byte) (more : Bytes) :
    firstSymbol (Config.dle :: c :: more) = some (.wirePair Config.dle c, more) := by
  simp [firstSymbol]

/-- Any other byte, and a `DLE` at the end of a delivery, stands alone (R63). -/
theorem firstSymbol_byte {b : Byte} {more : Bytes} (h : b ≠ Config.dle ∨ more = []) :
    firstSymbol (b :: more) = some (.wireByte b, more) := by
  cases more with
  | nil => rfl
  | cons c more => simp_all [firstSymbol]

/-- The moves to come are no matter to the line's bytes. -/
theorem foldl_wireIn_withInputs (w : Bytes) (s : State) (is : List Input) :
    w.foldl (fun t c => wireIn c t) (s.withInputs is) = (w.foldl (fun t c => wireIn c t) s).withInputs is := by
  rw [foldl_wireIn, foldl_wireIn]
  rfl

/-- A step of a delivery lets in its first symbol, one byte or two (R63, R66). -/
theorem step_line_symbol {s : State} {rest : List Input} {bytes : Bytes} (h : s.inputs = .line bytes :: rest)
    (nonempty : bytes ≠ []) : ∃ sym more, bytes = sym ++ more ∧ more.length < bytes.length ∧ step s = .next
      ((sym.foldl (fun t c => wireIn c t) s).withInputs (if more = [] then rest else .line more :: rest)) := by
  simp only [← foldl_wireIn_withInputs]
  obtain ⟨b, tail, rfl⟩ := List.exists_cons_of_ne_nil nonempty
  by_cases alone : b ≠ Config.dle ∨ tail = []
  · exact ⟨[b], tail, rfl, by simp, (step_line h (firstSymbol_byte alone) rfl).trans (exec_decodeWireByte b _)⟩
  · obtain ⟨dle, paired⟩ := not_or.1 alone
    obtain ⟨c, more, rfl⟩ := List.exists_cons_of_ne_nil paired
    obtain rfl := not_not.1 dle
    obtain ⟨i, hi, run⟩ := exec_decodeWirePair c
    exact ⟨[Config.dle, c], more, rfl, by simp, (step_line h (firstSymbol_pair c more) hi).trans (run _)⟩

/-- A run whose first step goes on. -/
theorem run_succ_of_next (M : Host.Core) {s t : M.State} (h : M.step s = .next t) (k : Nat) :
    M.run (k + 1) s = M.run k t := by
  simp [Host.Core.run, h]

/-- A run of the machine whose first step goes on. -/
theorem run_succ {s t : State} (h : step s = .next t) (k : Nat) :
    Sys2Proof.core.run (k + 1) s = Sys2Proof.core.run k t :=
  run_succ_of_next Sys2Proof.core h k

/-- A delivery comes in whole (R20, R41). -/
theorem run_line (rest : List Input) (bytes : Bytes) (s : State) (h : s.inputs = .line bytes :: rest) :
    ∃ k, Sys2Proof.core.run k s = .next ((bytes.foldl (fun t c => wireIn c t) s).withInputs rest) := by
  by_cases empty : bytes = []
  · subst empty
    exact ⟨1, run_succ (step_line_nil h) 0⟩
  · obtain ⟨sym, more, rfl, shorter, first⟩ := step_line_symbol h empty
    rw [List.foldl_append]
    by_cases last : more = []
    · rw [if_pos last] at first
      subst last
      exact ⟨1, run_succ first 0⟩
    · rw [if_neg last] at first
      obtain ⟨k, others⟩ := run_line rest more _ (State.withInputs_inputs (sym.foldl (fun t c => wireIn c t) s) _)
      rw [foldl_wireIn_withInputs] at others
      exact ⟨k + 1, (run_succ first k).trans others⟩
termination_by bytes.length

/-- Settles O14: symbol after symbol, by `run_line`. -/
theorem lineDeliversEveryByte : Obligations.LineDeliversEveryByte := by
  intro bytes s rest h
  obtain ⟨k, whole⟩ := run_line rest bytes s h
  rw [foldl_wireIn] at whole
  exact ⟨k, whole⟩

end Sys2Proof.Machine
end

section
/-! PROOF, the life cycle, the fault record and the queue. What a step other than a reset does to them, one lemma for
each operation; the three statements about them are read off. -/

namespace Sys2Proof.Safety

open Sys2Proof.Machine

/-- What a step other than a reset does to `run` and to the fault record (R29, R30, R187): nothing, or it opens, closes
or faults the block. -/
def LifeMove (s t : State) : Prop :=
  (t.run = s.run ∧ t.fault = s.fault)
    ∨ (s.run = .unopened ∧ t.run = .running ∧ t.fault = s.fault)
    ∨ ((s.run = .running ∨ s.run = .faulted) ∧ t.run = .closed ∧ t.fault = s.fault)
    ∨ (s.run = .running ∧ s.fault = none ∧ t.run = .faulted ∧ t.ended = true)

/-- What a step other than a reset does to `txq` (R26, R137, R143, R150). -/
def QueueMove (s t : State) : Prop :=
  t.txq = s.txq
    ∨ (s.run = .running ∧ ∃ e, t.txq = s.txq ++ [e])
    ∨ (s.run = .running ∧ s.phase = .tx ∧ ∃ e, s.txq = e :: t.txq)
    ∨ (t.txq = [] ∧ s.ended = true)

section moves

variable {s t u : State}

/-- A running block has no fault on record (R29, R30). -/
theorem LinkInv.fault_eq_none (h : LinkInv s) (run : s.run = .running) : s.fault = none := by
  obtain ⟨-, ⟨-, running, -⟩, -⟩ := h
  obtain ⟨fault, -⟩ := running run
  exact fault

/-- Before `OPEN` there is no fault and nothing to send (R29, R136). -/
theorem LinkInv.fresh_of_unopened (h : LinkInv s) (run : s.run = .unopened) : s.fault = none ∧ s.txq = [] := by
  obtain ⟨-, ⟨unopened, -⟩, -⟩ := h
  obtain ⟨txq, -, -, -, fault, -⟩ := unopened run
  exact ⟨fault, txq⟩

/-- The ports and the callback's return touch none of it. -/
theorem edge_keeps (h : Edge s u) :
    u.run = s.run ∧ u.fault = s.fault ∧ u.txq = s.txq ∧ u.phase = s.phase ∧ u.ended = s.ended := by
  obtain ⟨v, ⟨_, _, _, _, _, _, _, _, _, rfl, -⟩, rfl | rfl⟩ := h
  · exact ⟨rfl, rfl, rfl, rfl, rfl⟩
  · rcases callbackReturn_cases _ with ⟨-, e⟩ | ⟨-, e⟩ <;> rw [e] <;> exact ⟨rfl, rfl, rfl, rfl, rfl⟩

/-- What leaves `run`, the fault record and `txq` as they are. -/
theorem moves_of_unchanged (run : t.run = s.run) (fault : t.fault = s.fault) (txq : t.txq = s.txq) :
    LifeMove s t ∧ QueueMove s t :=
  ⟨.inl ⟨run, fault⟩, .inl txq⟩

/-- A fault ends a running worker (R187). -/
theorem lifeMove_of_fault (h : LinkInv s) (run : s.run = .running) (faulted : t.run = .faulted)
    (ended : t.ended = true) : LifeMove s t :=
  .inr (.inr (.inr ⟨run, h.fault_eq_none run, faulted, ended⟩))

/-- `OPEN` (R136). -/
theorem execOpenT_moves (h : LinkInv s) {cb : Callback} (ht : execOpenT cb s = .next t) :
    LifeMove s t ∧ QueueMove s t := by
  rcases execOpenT_cases cb s with ⟨-, e⟩ | ⟨run, e⟩ <;> cases e.symm.trans ht
  · exact moves_of_unchanged rfl rfl rfl
  · obtain ⟨fault, txq⟩ := h.fresh_of_unopened run
    exact ⟨.inr (.inl ⟨run, rfl, fault.symm⟩), .inl txq.symm⟩

/-- `SEND` (R137). -/
theorem sendBytes_moves (m : Bytes) (s : State) : LifeMove s (sendBytes m s) ∧ QueueMove s (sendBytes m s) := by
  rcases sendBytes_cases m s with ⟨-, e⟩ | ⟨-, -, e⟩ | ⟨run, -, e⟩ <;> rw [e]
  · exact moves_of_unchanged rfl rfl rfl
  · exact moves_of_unchanged rfl rfl rfl
  · exact ⟨.inl ⟨rfl, rfl⟩, .inr (.inl ⟨run, m, rfl⟩)⟩

/-- The end of a `CLOSE` (R150). -/
theorem closeFinish_moves (ended : s.ended = true) (run : s.run = .running ∨ s.run = .faulted) :
    LifeMove s (closeFinish s) ∧ QueueMove s (closeFinish s) := by
  rcases closeFinish_cases s with ⟨-, e⟩ | ⟨-, e⟩ <;> rw [e]
  · exact ⟨.inl ⟨rfl, rfl⟩, .inr (.inr (.inr ⟨rfl, ended⟩))⟩
  · exact ⟨.inr (.inr (.inl ⟨run, rfl, rfl⟩)), .inr (.inr (.inr ⟨rfl, ended⟩))⟩

/-- `CLOSE` (R150). -/
theorem execClose_moves (ht : execClose s = .next t) : LifeMove s t ∧ QueueMove s t := by
  rcases execClose_cases s with ⟨-, e⟩ | ⟨hc, hu, ended, e⟩ | ⟨-, -, -, -, -, e⟩ | ⟨-, -, -, -, e⟩ <;>
    cases e.symm.trans ht
  · exact moves_of_unchanged rfl rfl rfl
  · exact closeFinish_moves (s := { s with stop := true }) ended (running_or_faulted hc hu)
  · exact moves_of_unchanged rfl rfl rfl

/-- A decoded operation. -/
theorem commanded_moves (h : LinkInv u) (ht : Commanded u t) : LifeMove u t ∧ QueueMove u t := by
  rcases ht with ⟨_, _, _, _, _, _, _, _, rfl, -⟩ | ⟨cb, e⟩ | ⟨m, rfl⟩ | e
  · exact moves_of_unchanged rfl rfl rfl
  · exact execOpenT_moves h e
  · exact sendBytes_moves m u
  · exact execClose_moves e

/-- Phase `CHECK` (R139). -/
theorem phaseCheck_moves (h : LinkInv s) (run : s.run = .running) :
    LifeMove s (phaseCheck s) ∧ QueueMove s (phaseCheck s) := by
  rcases phaseCheck_cases s with ⟨-, e⟩ | ⟨-, -, e⟩ | ⟨-, -, -, e⟩ <;> rw [e]
  · exact moves_of_unchanged rfl rfl rfl
  · exact ⟨lifeMove_of_fault h run rfl rfl, .inl rfl⟩
  · exact moves_of_unchanged rfl rfl rfl

/-- Phase `TX` (R143): it takes the head, also when the write fails. -/
theorem phaseTx_moves (h : LinkInv s) (run : s.run = .running) (phase : s.phase = .tx) :
    LifeMove s (phaseTx s) ∧ QueueMove s (phaseTx s) := by
  rcases phaseTx_cases s with ⟨-, e⟩ | ⟨e, q, hq, -, -, e'⟩ | ⟨e, q, k, hq, -, -, e'⟩ | ⟨e, q, hq, -, e'⟩
  · rw [e]
    exact moves_of_unchanged rfl rfl rfl
  · rw [e']
    exact ⟨.inl ⟨rfl, rfl⟩, .inr (.inr (.inl ⟨run, phase, e, hq⟩))⟩
  all_goals
    rw [e']
    exact ⟨lifeMove_of_fault h run rfl rfl, .inr (.inr (.inl ⟨run, phase, e, hq⟩))⟩

/-- A pass of `EXTRACT` inside phase `RX` (R142, R155). -/
theorem extractInRx_moves (run : s.run = .running) (fault : s.fault = none) :
    LifeMove s (extractInRx s) ∧ QueueMove s (extractInRx s) := by
  unfold extractInRx
  rcases extractPass_cases s with ⟨-, e⟩ | ⟨a, m, -, -, -, -, e⟩ | ⟨a, m, r, -, -, -, -, e⟩ | ⟨a, m, -, -, -, e⟩ <;>
    rw [e]
  · exact moves_of_unchanged rfl rfl rfl
  · exact moves_of_unchanged rfl rfl rfl
  · rw [emitFrame_eq]
    exact moves_of_unchanged rfl rfl rfl
  · exact ⟨.inr (.inr (.inr ⟨run, fault, rfl, rfl⟩)), .inl rfl⟩

/-- Phase `RX` (R141). -/
theorem phaseRx_moves (h : LinkInv s) (run : s.run = .running) : LifeMove s (phaseRx s) ∧ QueueMove s (phaseRx s) := by
  have fault := h.fault_eq_none run
  rcases phaseRx_cases s with ⟨-, e⟩ | ⟨-, -, -, e⟩ | ⟨k, -, -, -, e⟩ | ⟨-, -, e⟩ <;> rw [e]
  · exact extractInRx_moves run fault
  · exact extractInRx_moves (s := State.withScanned _ _) run fault
  · exact ⟨lifeMove_of_fault h run rfl rfl, .inl rfl⟩
  · exact ⟨lifeMove_of_fault h run rfl rfl, .inl rfl⟩

/-- The worker's next phase (R138). -/
theorem workerPhase_moves (h : LinkInv s) (run : s.run = .running) :
    LifeMove s (workerPhase s) ∧ QueueMove s (workerPhase s) := by
  unfold workerPhase
  split
  case h_1 => exact phaseCheck_moves h run
  case h_2 => exact phaseRx_moves h run
  case h_3 phase => exact phaseTx_moves h run phase
  case h_4 => exact moves_of_unchanged rfl rfl rfl

/-- The block's own move (R150, R152, R162). -/
theorem internalMove_moves (h : LinkInv s) : LifeMove s (internalMove s) ∧ QueueMove s (internalMove s) := by
  rcases internalMove_cases s with ⟨e, -⟩ | ⟨-, -, e⟩ | ⟨ready, e⟩ | ⟨-, -, closing, ended, e⟩ <;> rw [e]
  · exact moves_of_unchanged rfl rfl rfl
  · exact moves_of_unchanged rfl rfl rfl
  · obtain ⟨run, -⟩ := (workerReady_iff s).1 ready
    exact workerPhase_moves h run
  · exact closeFinish_moves ended (h.run_of_closing closing)

/-- The callback's error (R187, U4). -/
theorem callbackError_moves (h : LinkInv s) : LifeMove s (callbackError s) ∧ QueueMove s (callbackError s) := by
  rcases callbackError_cases s with ⟨inCb, e⟩ | e <;> rw [e]
  · have run : s.run = .running := by
      obtain ⟨⟨inside, -⟩, -⟩ := h
      obtain ⟨run, -⟩ := inside inCb
      exact run
    exact ⟨lifeMove_of_fault h run rfl rfl, .inl rfl⟩
  · exact moves_of_unchanged rfl rfl rfl

/-- What a step does to the life cycle, the fault record and the queue. -/
theorem step_moves (h : LinkInv s) (hs : step s = .next t) :
    (LifeMove s t ∧ QueueMove s t) ∨ ((∃ m ∈ s.inputs.head?, IsReset m) ∧ t.txq = []) := by
  have next : ∀ is, LinkInv { s with inputs := is } := fun _ => h
  rcases step_cases hs with ⟨u, edge, cmd⟩ | ⟨is, rfl⟩ | ⟨is, rfl⟩ | ⟨is, b, o, e, -, rfl⟩ | ⟨is, f, rfl⟩ |
    ⟨is, hangs, late, rfl⟩ | ⟨is, k, head, rfl⟩
  · obtain ⟨run, fault, txq, phase, ended⟩ := edge_keeps edge
    have moves := commanded_moves (h.edge edge) cmd
    exact .inl (by simpa only [LifeMove, QueueMove, run, fault, txq, phase, ended] using moves)
  · exact .inl (internalMove_moves (next is))
  · exact .inl (callbackError_moves (next is))
  · refine .inl ?_
    unfold openMedium
    split <;> exact moves_of_unchanged rfl rfl rfl
  · exact .inl ⟨.inl ⟨rfl, rfl⟩, .inl rfl⟩
  · exact .inl ⟨.inl ⟨rfl, rfl⟩, .inl rfl⟩
  · exact .inr ⟨⟨.rst k, by simp [head], trivial⟩, rfl⟩

/-- What a step other than a reset does to the life cycle and the fault record. -/
theorem step_lifeMove (h : LinkInv s) (noReset : ∀ m ∈ s.inputs.head?, ¬IsReset m) (hs : step s = .next t) :
    LifeMove s t := by
  rcases step_moves h hs with ⟨life, -⟩ | ⟨⟨m, head, reset⟩, -⟩
  · exact life
  · exact absurd reset (noReset m head)

end moves

/-- Settles O55: a step other than a reset moves the queue as `QueueMove` says, and a reset empties it. -/
theorem queueIsFirstInFirstOut : Obligations.QueueIsFirstInFirstOut := by
  intro s t h hs
  rcases step_moves h hs with ⟨-, same | appended | taken | ⟨empty, ended⟩⟩ | ⟨reset, empty⟩
  · exact .inl same
  · exact .inr (.inl appended)
  · exact .inr (.inr (.inl taken))
  · exact .inr (.inr (.inr ⟨empty, .inl ended⟩))
  · exact .inr (.inr (.inr ⟨empty, .inr reset⟩))

/-- Settles O56: the transitions of `LifeMove` are those of the spec. -/
theorem lifeCycleTransitions : Obligations.LifeCycleTransitions := by
  intro s t h noReset hs
  rcases step_lifeMove h noReset hs with ⟨run, -⟩ | ⟨unopened, running, -⟩ | ⟨running | faulted, closed, -⟩ |
    ⟨running, -, faulted, -⟩
  · exact .inl run
  · exact .inr (.inl ⟨unopened, running⟩)
  · exact .inr (.inr (.inl ⟨running, closed⟩))
  · exact .inr (.inr (.inr (.inr ⟨faulted, closed⟩)))
  · exact .inr (.inr (.inr (.inl ⟨running, faulted⟩)))

/-- Settles O58: every `LifeMove` keeps the record, but a fault, which only a running block without one meets. -/
theorem faultRecordIsSticky : Obligations.FaultRecordIsSticky := by
  refine ⟨rfl, fun s t h noReset hs => ?_⟩
  have kept : t.fault = s.fault → (∀ f, s.fault = some f → t.fault = some f)
      ∧ (s.fault = none → t.fault ≠ none → s.run = .running ∧ t.run = .faulted ∧ t.ended = true) := fun same =>
    ⟨fun _ recorded => same.trans recorded, fun clean set => absurd (same.trans clean) set⟩
  rcases step_lifeMove h noReset hs with ⟨-, same⟩ | ⟨-, -, same⟩ | ⟨-, -, same⟩ | ⟨running, clean, faulted, ended⟩
  · exact kept same
  · exact kept same
  · exact kept same
  · exact ⟨fun f recorded => (nomatch clean.symm.trans recorded), fun _ _ => ⟨running, faulted, ended⟩⟩

end Sys2Proof.Safety
end

section
/-! PROOF, the pins (R38). An edge of `clk` port by port, a command over its edges, and a result over its edges. -/

namespace Sys2Proof.Machine

open Sys2Proof.Safety

/-! ## The ports -/

/-- A stream moves on by a byte exactly when it presents one. -/
theorem putNext_eq (stream : Bytes) (put : Nat) :
    putNext stream put = if stream[put]?.isSome = true then put + 1 else put := by
  simp [putNext]

/-- The CRC port (R38, R87, R88). -/
theorem crcPinEdge_eq (clear en : Bool) (din : Byte) (s : State) : crcPinEdge clear en din s = { s with
    acc := if clear = true then s.par.crcInit else if en = true then bitStep^[8] (s.acc ^^^ din) else s.acc } := by
  unfold crcPinEdge
  split_ifs <;> rfl

/-- The line side's input (R38, R101). -/
theorem rxPinEdge_eq (valid : Bool) (data : Byte) (s : State) :
    let u := if valid = true then wireStep (s.uat, s.uesc, s.uout) data else (s.uat, s.uesc, s.uout)
    rxPinEdge valid data s = { s with
      uat := u.1, uesc := u.2.1, uout := u.2.2,
      tr := { s.tr with inb := s.tr.inb ++ (if valid = true then [data] else []) } } := by
  cases valid
  · simp [rxPinEdge]
  · rfl

/-- The byte presented to the line, as the writer takes it. -/
theorem take_one_outb (s : State) : (s.tr.outb.drop s.tr.sent).take 1 = (txData s).toList := by
  rw [List.take_one, List.head?_drop]
  rfl

/-- The line side's output (R38, R164). -/
theorem drainOut_pin (ready : Bool) (s : State) : drainOut (if ready = true then 1 else 0) s = { s with
    tr := { s.tr with
      inb := s.tr.inb ++ (if ready = true ∧ s.tr.echo = true then (txData s).toList else []),
      sent := if ready = true ∧ txValid s = true then s.tr.sent + 1 else s.tr.sent } } := by
  cases ready
  · cases echo : s.tr.echo <;> simp [drainOut, State.withTr, echo]
  · cases data : txData s <;> cases echo : s.tr.echo <;>
      simp [drainOut, State.withTr, take_one_outb, txValid, data, echo]

/-- `evt_ack` is the callback's return (R38, R193). -/
theorem callbackReturn_pin (ack : Bool) (s : State) : (if ack = true then callbackReturn s else s) = { s with
    evtPut := if ack = true ∧ s.inCb = true then 0 else s.evtPut,
    inCb := if ack = true ∧ s.inCb = true then false else s.inCb,
    evt := if ack = true ∧ s.inCb = true then none else s.evt } := by
  by_cases returns : ack = true ∧ s.inCb = true
  · obtain ⟨rfl, inCb⟩ := returns
    simp [callbackReturn, inCb]
  · simp only [if_neg returns, callbackReturn]
    split_ifs with acked inCb
    · exact absurd ⟨acked, inCb⟩ returns
    · rfl
    · rfl

/-- One edge of `clk` at every port but the command port (R38). -/
theorem portsEdge_eq (p : Pins) (s : State) :
    let returns := p.evtAck = true ∧ s.inCb = true
    let u := if p.rxValid = true then wireStep (s.uat, s.uesc, s.uout) p.rxData else (s.uat, s.uesc, s.uout)
    portsEdge p s = { s with
      acc := if p.crcClear = true then s.par.crcInit
        else if p.crcEn = true then bitStep^[8] (s.acc ^^^ p.crcDin) else s.acc,
      uat := u.1, uesc := u.2.1, uout := u.2.2,
      tr := { s.tr with
        inb := s.tr.inb ++ (if p.rxValid = true then [p.rxData] else [])
          ++ (if p.txReady = true ∧ s.tr.echo = true then (txData s).toList else []),
        sent := if p.txReady = true ∧ txValid s = true then s.tr.sent + 1 else s.tr.sent },
      resPut := if resValid s = true then s.resPut + 1 else s.resPut,
      evtPut := if returns then 0 else if evtValid s = true then s.evtPut + 1 else s.evtPut,
      inCb := if returns then false else s.inCb,
      evt := if returns then none else s.evt } := by
  intro returns u
  rw [portsEdge, crcPinEdge_eq, rxPinEdge_eq, clockEdge, drainOut_pin, callbackReturn_pin]
  simp only [putNext_eq]
  rfl

/-! ## A command over its edges -/

/-- A run of one step is that step, of any machine. -/
theorem core_run_one (M : Host.Core) (s : M.State) : M.run 1 s = M.step s := by
  cases h : M.step s <;> simp [Host.Core.run, h]

/-- A run of one step. -/
theorem run_one (s : State) : Sys2Proof.core.run 1 s = step s := core_run_one Sys2Proof.core s

/-- `cmd_ready` in words (R38): no call waits for its return, and the result is out. -/
theorem cmdReady_iff (s : State) :
    cmdReady s = true ↔ s.closing = false ∧ s.opening = false ∧ (resStream s).length ≤ s.resPut := by
  simp [cmdReady, resValid, resData, and_assoc]

section argEdges

variable {s : State} {op : BitVec 4} {rest : List Input} {b : Option Byte} {i : Instr}

/-- While no stream presents a byte, an edge with the command port's pins alone leaves the other ports as they are. -/
theorem portsEdge_argPins (ready : cmdReady s = true) (evt : evtValid s = false) (op : BitVec 4) (b : Option Byte)
    (last : Bool) : portsEdge (argPins op b last) s = s := by
  obtain ⟨-, -, out⟩ := (cmdReady_iff s).1 ready
  have res : resValid s = false := by simpa [resValid, resData] using out
  rw [portsEdge_eq]
  simp [argPins, Pins.idle, res, evt]

/-- The edge of an operand byte before the last (R38). -/
theorem step_argPins_more (h : s.inputs = .clk (argPins op b false) :: rest) (ready : cmdReady s = true)
    (evt : evtValid s = false) :
    step s = .next { s with inputs := rest, argIn := argsAt (argPins op b false) s } := by
  have taken := step_clk_arg h rfl ready rfl
  rwa [portsEdge_argPins (s := { s with inputs := rest }) ready evt] at taken

/-- The edge of the last operand byte, or of a command without (R38). -/
theorem step_argPins_last (h : s.inputs = .clk (argPins op b true) :: rest) (ready : cmdReady s = true)
    (evt : evtValid s = false)
    (hd : decode s.par.crcInit (.hostCmd op (argsAt (argPins op b true) s)) = .ok i) :
    step s = exec i { s with inputs := rest, argIn := [], caller := .host } := by
  have taken := step_clk_ok h rfl ready rfl hd
  rwa [portsEdge_argPins (s := { s with inputs := rest }) ready evt] at taken

end argEdges

/-- The operand bytes are taken one an edge, and the command runs with the last of them (R38, log 29). -/
theorem run_argEdges {op : BitVec 4} {i : Instr} {rest : List Input} : ∀ (args : Bytes) (s : State),
    s.inputs = argEdges op args ++ rest → cmdReady s = true → evtValid s = false →
    decode s.par.crcInit (.hostCmd op (s.argIn ++ args)) = .ok i →
    Sys2Proof.core.run (argEdges op args).length s = exec i { s with inputs := rest, argIn := [], caller := .host }
  | [], s, h, ready, evt, hd => by
    rw [List.append_nil] at hd
    exact (run_one s).trans (step_argPins_last h ready evt hd)
  | [b], s, h, ready, evt, hd => (run_one s).trans (step_argPins_last h ready evt hd)
  | b :: c :: args, s, h, ready, evt, hd => by
    rw [List.append_cons] at hd
    exact (run_succ (step_argPins_more h ready evt) _).trans (run_argEdges (c :: args) _ rfl ready evt hd)

/-! ## A result over its edges -/

section result

variable {s : State} {r : Reply} (h : s.res = some r)

include h

/-- The result stream is what the operation returned (R38). -/
theorem resStream_of_res : resStream s = replyBytes r := by
  simp [resStream, h]

/-- `res_data` is the byte after those put out (R38). -/
theorem resData_of_res : resData s = (replyBytes r)[s.resPut]? := by
  rw [resData, resStream_of_res h]

/-- `res_last` is 1 at the last byte (R38). -/
theorem resLast_iff : resLast s = true ↔ s.resPut + 1 = (replyBytes r).length := by
  rw [resLast, resStream_of_res h, beq_iff_eq]

/-- `res_valid` is 0 after the last byte (R38). -/
theorem resValid_eq_false_iff : resValid s = false ↔ (replyBytes r).length ≤ s.resPut := by
  simp [resValid, resData_of_res h]

/-- `res_ok` is that of what the operation returned (R38, R188). -/
theorem resOkPin_of_res : resOkPin s = some (resOk r) := by
  rw [resOkPin, h, Option.map_some]

end result

/-- An edge with every pin at 0 puts out one byte of the result (R38). -/
theorem step_clk_result {s : State} {rest : List Input} (h : s.inputs = .clk Pins.idle :: rest)
    (more : s.resPut < (resStream s).length) :
    ∃ t, step s = .next t ∧ t.inputs = rest ∧ t.res = s.res ∧ t.resPut = s.resPut + 1 := by
  have valid : resValid s = true := by simpa [resValid, resData] using more
  refine ⟨_, step_clk_idle h (.inl rfl), ?_⟩
  rw [portsEdge_eq]
  exact ⟨rfl, rfl, if_pos valid⟩

/-- As many edges put out as many bytes of the result (R38). -/
theorem run_clk_result {r : Reply} (k : Nat) (s : State) (h : s.inputs = List.replicate k (.clk Pins.idle))
    (res : s.res = some r) (fits : s.resPut + k ≤ (replyBytes r).length) :
    ∃ t, Sys2Proof.core.run k s = .next t ∧ t.res = some r ∧ t.resPut = s.resPut + k := by
  induction k generalizing s with
  | zero => exact ⟨s, rfl, res, rfl⟩
  | succ k ih =>
    have more : s.resPut < (resStream s).length := by rw [resStream_of_res res]; omega
    obtain ⟨u, first, inputs, kept, put⟩ := step_clk_result (h.trans List.replicate_succ) more
    obtain ⟨t, others, last, out⟩ := ih u inputs (kept.trans res) (by omega)
    exact ⟨t, (run_succ first k).trans others, last, by omega⟩

/-- `res_ok` is 1 for `ok` alone (R38, R188). -/
theorem resOk_iff (r : Reply) : resOk r = true ↔ r.status = .ok := by
  cases h : r.status <;> simp [resOk, statusCode, h]

/-- The result stream of an error begins with its cause (R38, R188). -/
theorem replyBytes_of_error {r : Reply} (h : r.status ≠ .ok) :
    replyBytes r = BitVec.ofNat 8 (statusCode r.status) :: carriedBytes r.status := by
  rw [replyBytes, if_neg (mt (resOk_iff r).1 h)]

/-- Settles O22: the ports' edge as an equation, a command over its edges, a result over its edges, and the pins
that are read off the state. -/
theorem pinsFollowTheBinding : Obligations.PinsFollowTheBinding := by
  refine ⟨fun s p => portsEdge_eq p s, fun s p rest h => step_clk_idle h, fun _ => rfl,
    fun s op args i rest h argIn ready evt hd => ?_, fun s r k res put fits => ?_, fun s v => ⟨fun res => ?_, ?_⟩,
    cmdReady_iff⟩
  · have run := run_argEdges args s h ready evt (by rw [argIn]; exact hd)
    simpa [argIn] using run
  · obtain ⟨t, run, kept, out⟩ := run_clk_result k { s with inputs := List.replicate k (.clk Pins.idle) } rfl res
      (by simpa [put] using fits)
    obtain rfl : t.resPut = k := by simpa [put] using out
    have out_iff : (replyBytes r).length ≤ t.resPut ↔ t.resPut = (replyBytes r).length := by omega
    exact ⟨t, run, kept, resData_of_res kept, resLast_iff kept, (resValid_eq_false_iff kept).trans out_iff⟩
  · rw [resOkPin_of_res res, (resOk_iff ⟨.ok, v⟩).2 rfl]
  · intro st error res
    have notOk : resOk ⟨st, v⟩ = false := Bool.eq_false_iff.2 (mt (resOk_iff ⟨st, v⟩).1 error)
    refine ⟨by rw [resOkPin_of_res res, notOk], ?_⟩
    rw [resStream_of_res res, replyBytes_of_error error]
    rfl

end Sys2Proof.Machine
end

section
/-! PROOF, a primitive that fails at the worker's turn (20_memory.md R45). -/

namespace Sys2Proof.Machine

section turns

variable {s : State}

/-! ## The worker's turn -/

/-- A ready worker takes the block's own move (R151). -/
theorem internalMove_of_ready (ready : workerReady s = true) : internalMove s = workerPhase s := by
  obtain ⟨-, -, out⟩ := (workerReady_iff s).1 ready
  simp [internalMove, ready, out]

/-! ## A failing primitive -/

/-- The first fault is the one recorded (R187). -/
theorem raiseFault_of_clean (clean : s.fault = none) (f : FaultName) : raiseFault f s = { s with
    data := [], fault := some f, run := .faulted, ended := true } := by
  simp [raiseFault, clean]

/-- `MemAvail` fails in phase `CHECK` (R45, R139). -/
theorem workerPhase_of_avail_fails (clean : s.fault = none) (phase : s.phase = .check) (stop : s.stop = false)
    (fails : s.tr.fails.avail = true) : workerPhase s = { s with
      data := [], fault := some (.transportFault .avail), run := .faulted, ended := true } := by
  calc workerPhase s = phaseCheck s := by simp [workerPhase, phase]
    _ = raiseFault (.transportFault .avail) s := by simpa [stop, fails] using phaseCheck_cases s
    _ = _ := raiseFault_of_clean clean _

/-- `MemRead` fails in phase `RX` (R45, R141). -/
theorem workerPhase_of_read_fails {k : Nat} (clean : s.fault = none) (usable : transportUsable s = true)
    (phase : s.phase = .rx) (unread : s.rxRead = false) (fails : s.tr.fails.read = some k) : workerPhase s = { s with
      tr := { s.tr with inb := s.tr.inb.drop (min k s.avail) }, data := [], fault := some (.transportFault .read),
      run := .faulted, ended := true } := by
  calc workerPhase s = phaseRx s := by simp [workerPhase, phase]
    _ = raiseFault (.transportFault .read) { s with tr := { s.tr with inb := s.tr.inb.drop (min k s.avail) } } := by
      simpa [usable, unread, fails] using phaseRx_cases s
    _ = _ := raiseFault_of_clean (by exact clean) _

/-- `MemWrite` fails in phase `TX` (R45, R143). -/
theorem workerPhase_of_write_fails {k : Nat} {e : Bytes} {q : List Bytes} (clean : s.fault = none)
    (usable : transportUsable s = true) (phase : s.phase = .tx) (head : s.txq = e :: q)
    (fails : s.tr.fails.write = some k) : workerPhase s = { s with
      txq := q, tr := { s.tr with outb := s.tr.outb ++ e.take k }, data := [],
      fault := some (.transportFault .write), run := .faulted, ended := true } := by
  calc workerPhase s = phaseTx s := by simp [workerPhase, phase]
    _ = raiseFault (.transportFault .write)
        { s with txq := q, tr := { s.tr with outb := s.tr.outb ++ e.take k } } := by
      simpa [usable, head, fails] using phaseTx_cases s
    _ = _ := raiseFault_of_clean (by exact clean) _

end turns

/-- Settles O48: the worker's turn is the phase it stands in, and there the primitive's failure raises the first fault. -/
theorem failingPrimitiveFaultsTheWorker : Obligations.FailingPrimitiveFaultsTheWorker := by
  intro s rest tick ready clean bound isOpen
  have turn : ∀ {t}, workerPhase (s.withInputs rest) = t → step s = .next t := fun {t} phase => by
    rw [step_tick tick, internalMove_of_ready (s := s.withInputs rest) ready, phase]
  have usable : transportUsable (s.withInputs rest) = true := (transportUsable_iff _).2 ⟨bound, isOpen⟩
  refine ⟨fun phase stop fails => turn ?_, fun k phase unread fails => turn ?_, fun k e q phase head fails => turn ?_⟩
  · exact workerPhase_of_avail_fails (s := s.withInputs rest) clean phase stop fails
  · exact workerPhase_of_read_fails (s := s.withInputs rest) clean usable phase unread fails
  · exact workerPhase_of_write_fails (s := s.withInputs rest) clean usable phase head fails

end Sys2Proof.Machine
end

section
/-! PROOF, `T.out` and the closed block (20_memory.md R52, R53): what a closed block still does, and which steps write. -/

namespace Sys2Proof.Safety

open Sys2Proof.Machine

/-! ## What only receives -/

/-- `t` is `s` with at most more bytes in `T.in`, as far as the life cycle, the emits, the deliveries, `T.out` and the two
buffers go. -/
def OnlyReceives (s t : State) : Prop :=
  t.run = s.run ∧ t.emits = s.emits ∧ t.got = s.got ∧ t.tr.outb = s.tr.outb ∧ t.rxBuf = s.rxBuf ∧ t.txq = s.txq
    ∧ ∃ more, t.tr.inb = s.tr.inb ++ more

/-- What a worker's phase leaves alone of a `CLOSE` that waits: the moves to come, the wait, and the environment's draws. -/
def KeepsWait (s t : State) : Prop :=
  t.inputs = s.inputs ∧ t.closing = s.closing ∧ t.tr.fails = s.tr.fails ∧ t.hangs = s.hangs

/-- What a step of the worker, or a reset that strikes it, does to `T.out` (R143, R153, R208): nothing, or phase `TX` puts out
a first part of the head entry, all of it when the worker lives on. -/
def WriteMove (s t : State) : Prop :=
  t.tr.outb = s.tr.outb
    ∨ (s.run = .running ∧ s.phase = .tx ∧ s.inCb = false ∧ ∃ e q, s.txq = e :: q ∧ ∃ k, t.tr.outb = s.tr.outb ++ e.take k
      ∧ (t.run = .running → t.tr.outb = s.tr.outb ++ e ∧ t.txq = q))

section receives

variable {s t u : State}

theorem OnlyReceives.of_inputs (s : State) (is : List Input) : OnlyReceives s { s with inputs := is } :=
  ⟨rfl, rfl, rfl, rfl, rfl, rfl, [], by simp⟩

theorem OnlyReceives.trans (h : OnlyReceives s t) (h' : OnlyReceives t u) : OnlyReceives s u := by
  obtain ⟨run, emits, got, outb, rxBuf, txq, more, inb⟩ := h
  obtain ⟨run', emits', got', outb', rxBuf', txq', more', inb'⟩ := h'
  exact ⟨run'.trans run, emits'.trans emits, got'.trans got, outb'.trans outb, rxBuf'.trans rxBuf, txq'.trans txq,
    more ++ more', by rw [inb', inb, List.append_assoc]⟩

/-- A result on its port (R34). -/
theorem OnlyReceives.of_reply (s : State) (r : Option Reply) : OnlyReceives s { s with resPut := 0, res := r } :=
  ⟨rfl, rfl, rfl, rfl, rfl, rfl, [], by simp⟩

/-- What leaves the arbiter alone (R22, R23, R202). -/
theorem OnlyReceives.of_quiet (h : Quiet s t) : OnlyReceives s t := by
  obtain ⟨_, _, _, _, _, _, more, _, rfl, -⟩ := h
  exact ⟨rfl, rfl, rfl, rfl, rfl, rfl, more, rfl⟩

/-- The ports and the callback's return (R38, R193). -/
theorem OnlyReceives.of_edge (h : Edge s u) : OnlyReceives s u := by
  obtain ⟨v, ⟨_, _, more, _, _, _, _, _, _, rfl, -⟩, rfl | rfl⟩ := h
  · exact ⟨rfl, rfl, rfl, rfl, rfl, rfl, more, rfl⟩
  · rcases callbackReturn_cases _ with ⟨-, e⟩ | ⟨-, e⟩ <;> rw [e] <;> exact ⟨rfl, rfl, rfl, rfl, rfl, rfl, more, rfl⟩

/-! ## After `CLOSED` -/

/-- On a closed block no command does more than reply (R136, R137, R150). -/
theorem commanded_of_closed (closed : u.run = .closed) (ht : Commanded u t) : OnlyReceives u t := by
  rcases ht with quiet | ⟨cb, ht⟩ | ⟨m, rfl⟩ | ht
  · exact .of_quiet quiet
  · rcases execOpenT_cases cb u with ⟨-, e⟩ | ⟨unopened, -⟩
    · cases e.symm.trans ht
      exact .of_reply u _
    · cases closed.symm.trans unopened
  · rcases sendBytes_cases m u with ⟨-, e⟩ | ⟨running, -⟩ | ⟨running, -⟩
    · exact e ▸ .of_reply u _
    all_goals cases closed.symm.trans running
  · cases (execClose_of_no_worker (.inl closed)).symm.trans ht
    exact .of_reply u _

/-- A closed block stands in no callback, has no live worker, and no `CLOSE` waits on it (R29, R150, R152). -/
theorem LinkInv.idle_of_closed (h : LinkInv s) (closed : s.run = .closed) :
    s.inCb = false ∧ workerReady s = false ∧ s.closing = false ∧ s.rxBuf = [] ∧ s.txq = [] := by
  have life := h
  obtain ⟨-, ⟨-, -, atClosed, -⟩, -⟩ := life
  obtain ⟨txq, rxBuf, -, closing, ended, -⟩ := atClosed closed
  exact ⟨h.not_inCb ended, by simp [workerReady, closed], closing, rxBuf, txq⟩

/-- A closed block makes no move of its own (R52, R192). -/
theorem LinkInv.internalMove_of_closed (h : LinkInv s) (closed : s.run = .closed) : Machine.internalMove s = s := by
  obtain ⟨out, notReady, notClosing, -⟩ := h.idle_of_closed closed
  simp [Machine.internalMove, out, notReady, notClosing]

/-- On a closed block a step other than a reset only lets bytes in. -/
theorem step_of_closed (h : LinkInv s) (closed : s.run = .closed) (noReset : ∀ m ∈ s.inputs.head?, ¬IsReset m)
    (hs : step s = .next t) : OnlyReceives s t := by
  have next : ∀ is, LinkInv { s with inputs := is } := fun _ => h
  obtain ⟨out, -⟩ := h.idle_of_closed closed
  rcases step_cases hs with ⟨u, edge, cmd⟩ | ⟨is, rfl⟩ | ⟨is, rfl⟩ | ⟨is, b, o, e, -, rfl⟩ | ⟨is, f, rfl⟩ |
    ⟨is, hangs, late, rfl⟩ | ⟨is, k, head, rfl⟩
  · obtain ⟨run, -⟩ := OnlyReceives.of_edge edge
    exact (OnlyReceives.of_edge edge).trans (commanded_of_closed (run.trans closed) cmd)
  · rw [(next is).internalMove_of_closed closed]
    exact .of_inputs s is
  · rcases callbackError_cases { s with inputs := is } with ⟨inCb, -⟩ | same
    · cases out.symm.trans inCb
    · rw [same]
      exact .of_inputs s is
  · rw [openMedium, if_neg (by simp [closed])]
    exact .of_inputs s is
  · exact ⟨rfl, rfl, rfl, rfl, rfl, rfl, [], by simp⟩
  · exact ⟨rfl, rfl, rfl, rfl, rfl, rfl, [], by simp⟩
  · exact absurd trivial (noReset (.rst k) (by simp [head]))

end receives

/-- Settles O53: a step on a closed block only receives, and the invariant has its buffers empty. -/
theorem nothingHappensAfterClose : Obligations.NothingHappensAfterClose := by
  intro s t h closed noReset hs
  obtain ⟨-, -, -, noBuf, noQueue⟩ := h.idle_of_closed closed
  obtain ⟨run, emits, got, outb, rxBuf, txq, inb⟩ := step_of_closed h closed noReset hs
  exact ⟨run.trans closed, emits, got, outb, rxBuf.trans noBuf, txq.trans noQueue, inb⟩

section phases

variable {s t u : State}

/-! ## What a phase writes, and what it leaves alone -/

/-- Phase `CHECK` (R139). -/
theorem phaseCheck_keeps (s : State) : KeepsWait s (phaseCheck s) ∧ (phaseCheck s).tr.outb = s.tr.outb := by
  rcases phaseCheck_cases s with ⟨-, e⟩ | ⟨-, -, e⟩ | ⟨-, -, -, e⟩ <;> rw [e] <;> exact ⟨⟨rfl, rfl, rfl, rfl⟩, rfl⟩

/-- A pass of `EXTRACT` inside phase `RX` (R142, R155). -/
theorem extractInRx_keeps (s : State) : KeepsWait s (extractInRx s) ∧ (extractInRx s).tr.outb = s.tr.outb := by
  unfold extractInRx
  rcases extractPass_cases s with ⟨-, e⟩ | ⟨a, m, -, -, -, -, e⟩ | ⟨a, m, r, -, -, -, -, e⟩ | ⟨a, m, -, -, -, e⟩ <;>
    rw [e]
  · exact ⟨⟨rfl, rfl, rfl, rfl⟩, rfl⟩
  · exact ⟨⟨rfl, rfl, rfl, rfl⟩, rfl⟩
  · rw [emitFrame_eq]
    exact ⟨⟨rfl, rfl, rfl, rfl⟩, rfl⟩
  · exact ⟨⟨rfl, rfl, rfl, rfl⟩, rfl⟩

/-- Phase `RX` (R141). -/
theorem phaseRx_keeps (s : State) : KeepsWait s (phaseRx s) ∧ (phaseRx s).tr.outb = s.tr.outb := by
  rcases phaseRx_cases s with ⟨-, e⟩ | ⟨-, -, -, e⟩ | ⟨k, -, -, -, e⟩ | ⟨-, -, e⟩ <;> rw [e]
  · exact extractInRx_keeps s
  · exact extractInRx_keeps (State.withScanned _ _)
  · exact ⟨⟨rfl, rfl, rfl, rfl⟩, rfl⟩
  · exact ⟨⟨rfl, rfl, rfl, rfl⟩, rfl⟩

/-- Phase `TX` (R143). -/
theorem phaseTx_keepsWait (s : State) : KeepsWait s (phaseTx s) := by
  rcases phaseTx_cases s with ⟨-, e⟩ | ⟨_, q, -, -, -, e⟩ | ⟨_, q, k, -, -, -, e⟩ | ⟨_, q, -, -, e⟩ <;> rw [e] <;>
    exact ⟨rfl, rfl, rfl, rfl⟩

/-- The worker's next phase (R138). -/
theorem workerPhase_keepsWait (s : State) : KeepsWait s (workerPhase s) := by
  unfold workerPhase
  split
  case h_1 => exact (phaseCheck_keeps s).1
  case h_2 => exact (phaseRx_keeps s).1
  case h_3 => exact phaseTx_keepsWait s
  case h_4 => exact ⟨rfl, rfl, rfl, rfl⟩

/-- Phase `TX` writes the head entry, or, when the write fails, a first part of it and the worker ends (R143, R45). -/
theorem phaseTx_writes (ready : workerReady s = true) (phase : s.phase = .tx) : WriteMove s (phaseTx s) := by
  obtain ⟨run, -, out⟩ := (workerReady_iff s).1 ready
  rcases phaseTx_cases s with ⟨-, e⟩ | ⟨e, q, head, -, -, e'⟩ | ⟨e, q, k, head, -, -, e'⟩ | ⟨e, q, -, -, e'⟩
  · exact .inl (by rw [e])
  · rw [e']
    exact .inr ⟨run, phase, out, e, q, head, e.length, by simp, fun _ => ⟨rfl, rfl⟩⟩
  · rw [e']
    exact .inr ⟨run, phase, out, e, q, head, k, rfl, nofun⟩
  · exact .inl (by rw [e']; rfl)

/-- The worker's next phase: no other phase than `TX` writes (R138, R153). -/
theorem workerPhase_writes (ready : workerReady s = true) : WriteMove s (workerPhase s) := by
  unfold workerPhase
  split
  case h_1 => exact .inl (phaseCheck_keeps s).2
  case h_2 => exact .inl (phaseRx_keeps s).2
  case h_3 phase => exact phaseTx_writes ready phase
  case h_4 => exact .inl rfl

/-- The end of a `CLOSE` writes nothing (R150). -/
theorem closeFinish_outb (s : State) : (closeFinish s).tr.outb = s.tr.outb := by
  rcases closeFinish_cases s with ⟨-, e⟩ | ⟨-, e⟩ <;> rw [e]

/-- The block's own move (R150, R152, R162). -/
theorem internalMove_writes (s : State) : WriteMove s (internalMove s) := by
  rcases internalMove_cases s with ⟨e, -⟩ | ⟨-, -, e⟩ | ⟨ready, e⟩ | ⟨-, -, -, -, e⟩ <;> rw [e]
  · exact .inl rfl
  · exact .inl rfl
  · exact workerPhase_writes ready
  · exact .inl (closeFinish_outb s)

/-- No command writes: `SEND` appends to the queue only (R137). -/
theorem commanded_outb (ht : Commanded u t) : t.tr.outb = u.tr.outb := by
  rcases ht with quiet | ⟨cb, ht⟩ | ⟨m, rfl⟩ | ht
  · obtain ⟨-, -, -, outb, -⟩ := OnlyReceives.of_quiet quiet
    exact outb
  · rcases execOpenT_cases cb u with ⟨-, e⟩ | ⟨-, e⟩ <;> cases e.symm.trans ht <;> rfl
  · rcases sendBytes_cases m u with ⟨-, e⟩ | ⟨-, -, e⟩ | ⟨-, -, e⟩ <;> rw [e]
  · rcases execClose_cases u with ⟨-, e⟩ | ⟨-, -, -, e⟩ | ⟨-, -, -, -, -, e⟩ | ⟨-, -, -, -, e⟩ <;> cases e.symm.trans ht
    · rfl
    · exact closeFinish_outb { u with stop := true }
    · rfl

/-- A reset may leave a first part of the entry whose write it cut off (R208, U13), log 15. -/
theorem resetMove_writes (k : Nat) (s : State) : WriteMove s (resetMove k s) := by
  have written : (resetMove k s).tr.outb = s.tr.outb ++ writtenAtReset k s := rfl
  by_cases writing : (workerReady s && s.phase == .tx) = true
  · obtain ⟨ready, phase⟩ : workerReady s = true ∧ s.phase = .tx := by simpa using writing
    obtain ⟨run, -, out⟩ := (workerReady_iff s).1 ready
    cases head : s.txq with
    | nil => exact .inl (by simp [written, writtenAtReset, head])
    | cons e q => exact .inr ⟨run, phase, out, e, q, head, k, by simp [written, writtenAtReset, writing, head], nofun⟩
  · exact .inl (by simp [written, writtenAtReset, writing])

/-- What a step does to `T.out`: a `WriteMove`, or it gives a block not yet opened a new medium (log 4). -/
theorem step_writes (hs : step s = .next t) : WriteMove s t
    ∨ (s.run = .unopened ∧ t.run = .unopened ∧ ∃ waiting held echo,
      s.inputs.head? = some (.openMedium waiting held echo) ∧ t.tr.outb = held) := by
  rcases step_cases hs with ⟨u, edge, cmd⟩ | ⟨is, rfl⟩ | ⟨is, rfl⟩ | ⟨is, b, o, e, head, rfl⟩ | ⟨is, f, rfl⟩ |
    ⟨is, hangs, late, rfl⟩ | ⟨is, k, -, rfl⟩
  · obtain ⟨-, -, -, outb, -⟩ := OnlyReceives.of_edge edge
    exact .inl (.inl ((commanded_outb cmd).trans outb))
  · exact .inl (internalMove_writes { s with inputs := is })
  · refine .inl (.inl ?_)
    rcases callbackError_cases { s with inputs := is } with ⟨-, e⟩ | e <;> rw [e]
    rfl
  · unfold openMedium
    split
    case isTrue run => exact .inr ⟨run, run, b, o, e, by simp [head], rfl⟩
    case isFalse => exact .inl (.inl rfl)
  · exact .inl (.inl rfl)
  · exact .inl (.inl rfl)
  · exact .inl (resetMove_writes k { s with inputs := is })

end phases

/-- Settles O54: every change of `T.out` is a write of phase `TX` or a new medium, and the invariant has the count at 0 in
phase `TX`. -/
theorem writesOnlyAfterAZeroCount : Obligations.WritesOnlyAfterAZeroCount := by
  intro s t h hs changed
  rcases step_writes hs with (same | ⟨run, phase, out, write⟩) | medium
  · exact absurd same changed
  · obtain ⟨-, -, -, ⟨zero, -⟩, -⟩ := h
    exact .inr ⟨run, phase, zero phase, out, write⟩
  · exact .inl medium

end Sys2Proof.Safety
end

section
/-! PROOF, a `CLOSE` that waits (45_arbiter.md R150): the block left to itself gets to `CLOSED`. Each step brings the worker
nearer to its end, by the measure `turnsLeft`. -/

namespace Sys2Proof.Safety

open Sys2Proof.Machine

/-- A `CLOSE` waits on a block left to itself, whose callback returns and whose `T.close()` works. -/
structure Waits (s : State) : Prop where
  inv : LinkInv s
  idle : s.inputs = []
  closing : s.closing = true
  closes : s.tr.fails.close = false
  returns : s.hangs = false

/-- A bound on the moves until the worker has ended, once the stop signal is set: `CHECK` sees the signal, `SLEEP` and `TX`
lead there, and in `RX` each emit and its return take a candidate out of the bytes still to be scanned. -/
def turnsLeft (s : State) : Nat :=
  if s.ended then 0
  else match s.phase with
    | .check => 1
    | .sleep => 2
    | .tx => 3
    | .rx => 3 + 2 * ((scanned s).length + (if s.rxRead then 0 else s.tr.inb.length)) + (if s.inCb then 1 else 0)

section waits

variable {s t : State}

/-- With no move to come the block goes on by itself (log 1). -/
theorem step_idle (idle : s.inputs = []) : step s = .next (defaultMove s) := by
  simp [step, fetch, idle]

/-- Outside the callback the block goes on with its own move. -/
theorem defaultMove_of_out (out : s.inCb = false) : defaultMove s = internalMove s := by
  simp [defaultMove, hostInCallback, out]

/-- A callback that returns does so, whether host code runs in it or none (R162, R193). -/
theorem defaultMove_of_inCb (inCb : s.inCb = true) (returns : s.hangs = false) :
    defaultMove s = { s with inCb := false, evtPut := 0, evt := none } := by
  cases host : hostInCallback s <;> simp [defaultMove, internalMove, callbackReturn, inCb, returns, host]

/-- A `CLOSE` waits for a live worker only while the block runs (R150, R187). -/
theorem LinkInv.running_of_live (h : LinkInv s) (closing : s.closing = true) (live : s.ended = false) :
    s.run = .running := by
  rcases h.run_of_closing closing with run | run
  · exact run
  · obtain ⟨-, ⟨-, -, -, faulted, -⟩, -⟩ := h
    obtain ⟨-, ended⟩ := faulted run
    cases live.symm.trans ended

theorem turnsLeft_of_ended (ended : s.ended = true) : turnsLeft s = 0 := by simp [turnsLeft, ended]

/-- A live worker has at least its `CHECK` left. -/
theorem turnsLeft_pos (live : s.ended = false) : 0 < turnsLeft s := by
  unfold turnsLeft
  cases s.phase <;> simp [live]

theorem turnsLeft_rx (live : s.ended = false) (phase : s.phase = .rx) : turnsLeft s
    = 3 + 2 * ((scanned s).length + (if s.rxRead then 0 else s.tr.inb.length)) + (if s.inCb then 1 else 0) := by
  simp [turnsLeft, live, phase]

/-- Phase `CHECK` sees the stop signal (R139). -/
theorem phaseCheck_turnsLeft_lt (live : s.ended = false) (stop : s.stop = true) :
    turnsLeft (phaseCheck s) < turnsLeft s := by
  have ends : (phaseCheck s).ended = true := by simp [phaseCheck, stop]
  rw [turnsLeft_of_ended ends]
  exact turnsLeft_pos live

/-- Phase `TX` is over, or the worker has ended (R143). -/
theorem phaseTx_turnsLeft_lt (live : s.ended = false) (phase : s.phase = .tx) :
    turnsLeft (phaseTx s) < turnsLeft s := by
  rcases phaseTx_cases s with ⟨-, e⟩ | ⟨_, q, -, -, -, e⟩ | ⟨_, q, k, -, -, -, e⟩ | ⟨_, q, -, -, e⟩ <;> rw [e] <;>
    simp [turnsLeft, live, phase]

/-- After an emit the callback's return and the bytes behind the candidate are left (R142, R152). -/
theorem turnsLeft_emitFrame (live : s.ended = false) (phase : s.phase = .rx) (read : s.rxRead = true) (f r : Bytes) :
    turnsLeft (emitFrame f (s.withScanned r)) = 4 + 2 * r.length := by
  have rest : scanned (emitFrame f (s.withScanned r)) = r := by
    rw [emitFrame_eq]
    exact scanned_withScanned s r
  rw [turnsLeft_rx (by simp [emitFrame_eq, live]) (by simp [emitFrame_eq, phase]), rest]
  simp only [emitFrame_eq, State.withScanned_rxRead, read, if_true]
  omega

/-- A pass of `EXTRACT` ends phase `RX`, takes a candidate out of the bytes still to be scanned, or ends the worker (R142,
R155). -/
theorem extractInRx_turnsLeft_lt (live : s.ended = false) (phase : s.phase = .rx) (read : s.rxRead = true)
    (out : s.inCb = false) : turnsLeft (extractInRx s) < turnsLeft s := by
  have left : turnsLeft s = 3 + 2 * (scanned s).length := by simp [turnsLeft_rx live phase, read, out]
  have slept : ∀ b, turnsLeft { s with rxBuf := b, data := [], phase := .sleep, rxRead := false } < turnsLeft s := by
    intro b
    rw [left]
    simp only [turnsLeft, live, Bool.false_eq_true, if_false]
    omega
  unfold extractInRx
  rcases extractPass_cases s with ⟨-, e⟩ | ⟨a, m, -, -, -, -, e⟩ | ⟨a, m, r, found, -, -, -, e⟩ | ⟨a, m, -, -, -, e⟩ <;>
    simp only [e]
  · exact slept _
  · exact slept _
  · have shorter : r.length + 2 ≤ (scanned s).length := by
      simp only [found, List.length_append, List.length_cons]
      omega
    rw [turnsLeft_emitFrame live phase read, left]
    omega
  · rw [turnsLeft_of_ended rfl]
    exact turnsLeft_pos live

/-- Phase `RX`: the bytes counted become bytes to be scanned, no more than `T.in` held (R141). -/
theorem phaseRx_turnsLeft_lt (live : s.ended = false) (phase : s.phase = .rx) (out : s.inCb = false) :
    turnsLeft (phaseRx s) < turnsLeft s := by
  rcases phaseRx_cases s with ⟨read, e⟩ | ⟨unread, -, -, e⟩ | ⟨k, -, -, -, e⟩ | ⟨-, -, e⟩ <;> rw [e]
  · exact extractInRx_turnsLeft_lt live phase read out
  · refine (extractInRx_turnsLeft_lt (s := State.withScanned _ _) (by exact live) (by exact phase) rfl
      (by exact out)).trans_le ?_
    rw [turnsLeft_rx live phase, turnsLeft_rx (by exact live) (by exact phase), scanned_withScanned]
    simp [unread, out]
  all_goals
    rw [turnsLeft_of_ended rfl]
    exact turnsLeft_pos live

/-- Every phase brings the worker nearer to its end. -/
theorem workerPhase_turnsLeft_lt (live : s.ended = false) (out : s.inCb = false) (stop : s.stop = true) :
    turnsLeft (workerPhase s) < turnsLeft s := by
  unfold workerPhase
  split
  case h_1 => exact phaseCheck_turnsLeft_lt live stop
  case h_2 phase => exact phaseRx_turnsLeft_lt live phase out
  case h_3 phase => exact phaseTx_turnsLeft_lt live phase
  case h_4 phase => simp [phaseSleep, State.withPhase, turnsLeft, live, phase]

/-- The callback's return brings the worker nearer to its end (R193). -/
theorem return_turnsLeft_lt (live : s.ended = false) (phase : s.phase = .rx) (inCb : s.inCb = true) :
    turnsLeft { s with inCb := false, evtPut := 0, evt := none } < turnsLeft s := by
  simp [turnsLeft, live, phase, inCb, scanned]

/-- The block left to itself keeps the wait while the worker lives. -/
theorem Waits.of_keepsWait (h : Waits s) (hs : step s = .next t) (keeps : KeepsWait s t) : Waits t := by
  obtain ⟨inputs, closing, fails, hangs⟩ := keeps
  exact ⟨everyStepKeepsTheInvariant s t h.inv hs, inputs.trans h.idle, closing.trans h.closing, by rw [fails, h.closes],
    hangs.trans h.returns⟩

/-- While the worker lives, the next step brings it nearer to its end, and the `CLOSE` goes on waiting. -/
theorem Waits.step_of_live (h : Waits s) (live : s.ended = false) :
    ∃ t, step s = .next t ∧ Waits t ∧ turnsLeft t < turnsLeft s := by
  have moves := step_idle h.idle
  cases inCb : s.inCb
  case true =>
    rw [defaultMove_of_inCb inCb h.returns] at moves
    obtain ⟨⟨inside, -⟩, -⟩ := h.inv
    obtain ⟨-, -, phase, -⟩ := inside inCb
    exact ⟨_, moves, h.of_keepsWait moves ⟨rfl, rfl, rfl, rfl⟩, return_turnsLeft_lt live phase inCb⟩
  case false =>
    have run := h.inv.running_of_live h.closing live
    rw [defaultMove_of_out inCb, internalMove_of_ready ((workerReady_iff s).2 ⟨run, live, inCb⟩)] at moves
    exact ⟨_, moves, h.of_keepsWait moves (workerPhase_keepsWait s),
      workerPhase_turnsLeft_lt live inCb (h.inv.stop_of_closing h.closing)⟩

/-- Once the worker has ended the waiting `CLOSE` returns (R150). -/
theorem Waits.step_of_ended (h : Waits s) (ended : s.ended = true) : step s = .next { s with
    txq := [], rxBuf := [], data := [], closing := false, tr := { s.tr with isOpen := false }, tBound := false,
    run := .closed, resPut := 0, res := some ⟨.ok, .nothing⟩ } := by
  have out := h.inv.not_inCb ended
  rw [step_idle h.idle, defaultMove_of_out out, internalMove_of_waiting_close h.closing ended out,
    closeFinish_of_closes h.closes]

/-- The run to `CLOSED`. A fault on record means that the worker has ended already, so the one step left keeps it. -/
theorem Waits.run_to_closed (s : State) (h : Waits s) : ∃ k t, Sys2Proof.core.run k s = .next t ∧ t.run = .closed
    ∧ t.closing = false ∧ t.txq = [] ∧ t.rxBuf = [] ∧ t.tr.isOpen = false ∧ t.res = some ⟨.ok, .nothing⟩
    ∧ (s.fault ≠ none → t.fault = s.fault) := by
  cases ended : s.ended
  case true => exact ⟨1, _, run_succ (h.step_of_ended ended) 0, rfl, rfl, rfl, rfl, rfl, rfl, fun _ => rfl⟩
  case false =>
    obtain ⟨u, hs, waits, fewer⟩ := h.step_of_live ended
    obtain ⟨k, t, run, closed, closing, txq, rxBuf, isOpen, res, -⟩ := Waits.run_to_closed u waits
    have clean := h.inv.fault_eq_none (h.inv.running_of_live h.closing ended)
    exact ⟨k + 1, t, (run_succ hs k).trans run, closed, closing, txq, rxBuf, isOpen, res, fun fault => absurd clean fault⟩
termination_by turnsLeft s

end waits

/-- Settles O52: `turnsLeft` goes down with every step until the worker has ended, and then the `CLOSE` returns. -/
theorem waitingCloseReturns : Obligations.WaitingCloseReturns := fun s inv idle closing closes returns =>
  Waits.run_to_closed s ⟨inv, idle, closing, closes, returns⟩

end Sys2Proof.Safety
end

section
/-! PROOF, packets of the controller. `ENCODE` through `VALIDATE`, and what `DECODE` makes of the two packets of R83. -/

namespace Sys2Proof.Machine

/-- `ENCODE` of a valid packet is `ASSEMBLE` (R107). -/
theorem encodePacket_of_valid (init : Byte) {d s p : Int} {y : Bytes} (h : validatePacket d s p y = true) :
    encodePacket init d s p y = assembleFrame init (BitVec.ofInt 8 d) (BitVec.ofInt 8 s) (BitVec.ofInt 16 p) y :=
  if_pos h

/-- `ENCODE` of a refused packet is empty (R107). -/
theorem encodePacket_of_refused (init : Byte) {d s p : Int} {y : Bytes} (h : validatePacket d s p y = false) :
    encodePacket init d s p y = [] := by
  simp [encodePacket, h]

/-- `VALIDATE` refuses the controller as destination (R104). -/
theorem validatePacket_to_controller (s p : Int) (y : Bytes) : validatePacket 0 s p y = false := by
  simp [validatePacket]

/-- `VALIDATE` passes a discovery request with any packetId but 0 (R83, R104). -/
theorem validatePacket_discovery {p : Int} (low : 1 ≤ p) (high : p ≤ 65535) : validatePacket 255 0 p [1#8] = true := by
  simp [validatePacket, Config.minPayload, Config.maxPayload, low, high]

/-- A frame with a payload is decoded, whatever its header (R111, R114). -/
theorem decodeFrame_assembleFrame_of_payload (init d s : Byte) (p : Pid) {y : Bytes} (h : y ≠ []) :
    decodeFrame init (assembleFrame init d s p y) = some ⟨d, s, p, y⟩ :=
  decodeFrame_assembleFrame (minFrame_le_length_assembleFrame init d s p h)

end Sys2Proof.Machine

namespace Sys2Proof.Safety

open Sys2Proof.Machine

/-- Settles O33: `VALIDATE` stops what goes to the controller; the response skips it, and the discovery request passes it. -/
theorem responsesNeedAssemble : Obligations.ResponsesNeedAssemble := by
  refine fun init => ⟨fun sr p y => ?_, fun req slot y controller payload => ?_, fun p low high => ?_⟩
  · exact encodePacket_of_refused init (validatePacket_to_controller sr p y)
  · rw [responseFrame, controller]
    exact decodeFrame_assembleFrame_of_payload init _ _ _ (List.length_pos_iff.1 payload)
  · rw [discoveryFrame, encodePacket_of_valid init (validatePacket_discovery low high)]
    exact decodeFrame_assembleFrame_of_payload init _ _ _ (List.cons_ne_nil _ _)

end Sys2Proof.Safety
end

section
/-! PROOF, encodings. The format of what is decoded, of what is encoded and of a word of the table (R79, R80); the sixteen
codes. -/

namespace Sys2Proof

open Sys2Proof.Machine

/-! ## Formats -/

/-- A wire byte is an operation of a wire_byte row (R63). -/
theorem format_decodeWireByte (b : Byte) : (decodeWireByte b).format = .wireByte := by
  unfold decodeWireByte
  split_ifs <;> rfl

/-- A wire pair is an operation of a wire_pair row (R65, R66). -/
theorem format_of_decodeWirePair {b0 b1 : Byte} {i : Instr} (h : decodeWirePair b0 b1 = .ok i) :
    i.format = .wirePair := by
  unfold decodeWirePair at h
  split at h <;> cases h
  split_ifs <;> rfl

/-- A whole frame is the frame row's operation (R60). -/
theorem format_of_decodeWholeFrame {init : Byte} {f : Bytes} {i : Instr} (h : decodeWholeFrame init f = .ok i) :
    i.format = .frame := by
  unfold decodeWholeFrame at h
  split at h
  · cases h
  · split at h <;> cases h
    rfl

/-- A command without operands is the operation of its code. -/
theorem noOperands_eq_ok {i j : Instr} {args : Bytes} (h : noOperands j args = .ok i) : i = j := by
  cases args <;> cases h
  rfl

/-- A command code with its operand bytes is an operation of a host_cmd row (R79): by the layout of its operand bytes. -/
theorem format_of_decodeHostCmd {op : BitVec 4} {args : Bytes} {i : Instr} (h : decodeHostCmd op args = .ok i) :
    i.format = .hostCmd := by
  unfold decodeHostCmd at h
  split at h
  -- no operands
  case h_1 | h_2 | h_15 => rw [noOperands_eq_ok h]; rfl
  -- one byte
  case h_3 =>
    unfold decodeUpdate at h
    split at h <;> cases h
    rfl
  -- the callback's selector
  case h_13 =>
    unfold decodeOpen at h
    split at h
    case h_2 => split_ifs at h <;> cases h <;> rfl
    all_goals cases h
  -- a header
  case h_7 | h_8 | h_16 =>
    simp only [decodeAssemble, decodeEncode, decodeLinkTx] at h
    split at h <;> cases h
    rfl
  -- a slice
  case h_10 | h_11 | h_12 =>
    cases args with
    | nil => cases h
    | cons sel args =>
      simp only [decodeToUint, decodeToInt, decodeToText] at h
      split at h
      · cases h
      · split at h <;> cases h
        rfl
  -- no 4-bit code is left
  case h_17 => cases h
  -- the operand bytes as they are
  all_goals cases h; rfl

/-- The decoder keeps the kind of row (R80). -/
theorem format_of_decode {init : Byte} {e : Encoding} {i : Instr} (h : decode init e = .ok i) : i.format = e.format := by
  cases e with
  | wireByte b => cases h; exact format_decodeWireByte b
  | wirePair b0 b1 => exact format_of_decodeWirePair h
  | frame f => exact format_of_decodeWholeFrame h
  | hostCmd op args => exact format_of_decodeHostCmd h

/-- Exactly the internal rows carry no code (R79, R80). -/
theorem encode_eq_none_iff (init : Byte) (i : Instr) : encode init i = none ↔ i.format = .internal := by
  cases i
  case crc8Bitstep | validate | poll | extract | linkRx => exact iff_of_true rfl rfl
  all_goals exact iff_of_false (Option.some_ne_none _) nofun

/-! ## Words of the table -/

/-- A word is read as its row's kind (R80). -/
theorem format_of_rowEncoding {fmt : Format} {n w : Nat} {e : Encoding} (h : rowEncoding fmt n w = some e) :
    e.format = fmt := by
  cases fmt with
  | frame => cases h; rfl
  | internal => cases h
  | wireByte | wirePair | hostCmd =>
    unfold rowEncoding at h
    dsimp only at h
    split at h <;> cases h
    rfl

/-- An 8-bit word of a wire_byte row (R80). -/
theorem rowEncoding_wireByte (n : Nat) (b : Byte) : rowEncoding .wireByte n b.toNat = some (.wireByte b) := by
  simp [rowEncoding, b.isLt]

/-- A 16-bit word of a wire_pair row, the first wire byte in bits 15 to 8 (R80). -/
theorem rowEncoding_wirePair (n : Nat) (b0 b1 : Byte) :
    rowEncoding .wirePair n (256 * b0.toNat + b1.toNat) = some (.wirePair b0 b1) := by
  have h0 := b0.isLt
  have h1 := b1.isLt
  have first : BitVec.ofNat 8 ((256 * b0.toNat + b1.toNat) / 256) = b0 := by
    apply BitVec.eq_of_toNat_eq
    rw [BitVec.toNat_ofNat]
    omega
  have second : BitVec.ofNat 8 (256 * b0.toNat + b1.toNat) = b1 := by
    apply BitVec.eq_of_toNat_eq
    rw [BitVec.toNat_ofNat]
    omega
  have fits : 256 * b0.toNat + b1.toNat < 65536 := by omega
  simp only [rowEncoding, if_pos fits, first, second]

/-- A 4-bit word of a host_cmd row (R80). -/
theorem rowEncoding_hostCmd (n : Nat) (op : BitVec 4) :
    rowEncoding .hostCmd n op.toNat = some (.hostCmd op (zeroOperands op)) := by
  simp [rowEncoding, op.isLt]

/-- Settles O7: the decoder, the encoder and the reading of a word, by the kind of row. -/
theorem decodingKeepsTheFormat : Obligations.DecodingKeepsTheFormat :=
  ⟨fun _ _ _ => format_of_decode, encode_eq_none_iff, fun _ _ _ _ => format_of_rowEncoding, rowEncoding_wireByte,
    rowEncoding_wirePair, fun n op => ⟨zeroOperands op, rowEncoding_hostCmd n op⟩, fun _ _ => rfl⟩

/-! ## Codes and words -/

/-- `ENCODE` takes its header operands as the ports present them (R24, P2). -/
theorem decodeEncode_putHeader_ports (d s : Byte) (p : Pid) (y : Bytes) :
    decodeEncode (putHeader d s p y) = .ok (.encode d.toNat s.toNat p.toNat y) := by
  simp only [decodeEncode, takeHeader_putHeader]

/-- `LINK.TX` takes its header operands as the ports present them (R24, P2). -/
theorem decodeLinkTx_putHeader_ports (d s : Byte) (p : Pid) (y : Bytes) :
    decodeLinkTx (putHeader d s p y) = .ok (.linkTx d.toNat s.toNat p.toNat y) := by
  simp only [decodeLinkTx, takeHeader_putHeader]

/-- Settles O8: the code picks the command's decoder, which for a header is its layout's lemma; the other rows hold by
evaluation. -/
theorem hostCommandCodes : Obligations.HostCommandCodes := fun _ =>
  ⟨rfl, rfl, fun _ => rfl, fun _ => rfl, fun _ => rfl, fun _ => rfl, decodeAssemble_putHeader,
    decodeEncode_putHeader_ports, fun _ => rfl, fun _ => rfl, fun _ => rfl, fun _ => rfl, rfl, fun _ => rfl, rfl,
    decodeLinkTx_putHeader_ports, fun _ => rfl, fun _ _ _ _ _ _ => ⟨rfl, rfl, rfl, rfl, rfl⟩⟩

/-- Settles O9: the frame is the encoding of its operation and so decodes to it; the other words are evaluated. -/
theorem writtenOutWordsDecode : Obligations.WrittenOutWordsDecode := by
  have bytes : encode 0x00#8 (.frame 255#8 0#8 0xFC00#16 [1#8])
      = some (.frame [0x02#8, 0xFF#8, 0x00#8, 0xFC#8, 0x00#8, 0x01#8, 0xA8#8, 0x04#8]) := by decide +kernel
  exact fun init => ⟨rfl, rfl, rfl, rfl, rfl, decodeEncodeRoundTrip _ _ _ rfl bytes, rfl⟩

end Sys2Proof
end

section
/-! PROOF, wire pairs. Two bytes at the streaming unstuffer, by where it stands and the flag it holds (R66, R101). -/

namespace Sys2Proof.Machine

section pair

variable {s : State} {x : Byte}

/-- A wire pair is its two bytes, one after the other (R48, R66). -/
theorem wirePairIn_eq (x : Byte) (s : State) : wirePairIn x s =
    let u := wireStep (wireStep (s.uat, s.uesc, s.uout) Config.dle) x
    { s with tr := { s.tr with inb := s.tr.inb ++ [Config.dle, x] }, uat := u.1, uesc := u.2.1, uout := u.2.2 } :=
  foldl_wireIn [Config.dle, x] s

/-- In an interior both bytes are unstuffed, unless the second ends it (R101). -/
theorem wirePairIn_inside (inside : s.uat ≠ .outside) (goesOn : s.uat = .given ∨ x ≠ Config.etx) : wirePairIn x s =
    let u := unstuffStep (unstuffStep (s.uesc, s.uout) Config.dle) x
    { s with tr := { s.tr with inb := s.tr.inb ++ [Config.dle, x] }, uesc := u.1, uout := u.2 } := by
  rw [wirePairIn_eq]
  cases place : s.uat with
  | outside => exact absurd place inside
  | given => rw [wireStep_given, wireStep_given, ← place]
  | framed =>
    have notEnd : x ≠ Config.etx := goesOn.resolve_left (by simp [place])
    rw [wireStep_framed _ (by decide), wireStep_framed _ notEnd, ← place]

/-- A pair yields the complement of its second byte (R66). -/
theorem wirePairIn_unpaired (inside : s.uat ≠ .outside) (esc : s.uesc = false)
    (goesOn : s.uat = .given ∨ x ≠ Config.etx) : wirePairIn x s = { s with
      tr := { s.tr with inb := s.tr.inb ++ [Config.dle, x] }, uesc := false, uout := s.uout ++ [~~~x] } := by
  rw [wirePairIn_inside inside goesOn, esc, unstuffStep_dle, unstuffStep_paired]

/-- After an unpaired `DLE` the `20` ends that pair, and the byte after it is data (R101). -/
theorem wirePairIn_paired (inside : s.uat ≠ .outside) (esc : s.uesc = true)
    (goesOn : s.uat = .given ∨ x ≠ Config.etx) (plain : x ≠ Config.dle) : wirePairIn x s = { s with
      tr := { s.tr with inb := s.tr.inb ++ [Config.dle, x] }, uesc := false, uout := s.uout ++ [0xDF#8, x] } := by
  rw [wirePairIn_inside inside goesOn, esc, unstuffStep_paired, unstuffStep_data _ plain, List.append_assoc]
  rfl

/-- After an unpaired `DLE` the second `20` of `20 20` sets the flag again (R101). -/
theorem wirePairIn_paired_dle (inside : s.uat ≠ .outside) (esc : s.uesc = true) :
    wirePairIn Config.dle s = { s with
      tr := { s.tr with inb := s.tr.inb ++ [Config.dle, Config.dle] }, uesc := true,
      uout := s.uout ++ [0xDF#8] } := by
  rw [wirePairIn_inside inside (.inr (by decide)), esc, unstuffStep_paired, unstuffStep_dle]
  rfl

/-- In a candidate `20 04` ends it after the `20` (R68). -/
theorem wirePairIn_ends (framed : s.uat = .framed) : wirePairIn Config.etx s =
    let u := unstuffStep (s.uesc, s.uout) Config.dle
    { s with
      tr := { s.tr with inb := s.tr.inb ++ [Config.dle, Config.etx] }, uat := .outside, uesc := u.1, uout := u.2 } := by
  rw [wirePairIn_eq, framed, wireStep_framed _ (by decide), wireStep_ends]

/-- Outside, `20 02` begins a candidate with its `STX` (R23, R68). -/
theorem wirePairIn_begins (out : s.uat = .outside) : wirePairIn Config.stx s = { s with
    tr := { s.tr with inb := s.tr.inb ++ [Config.dle, Config.stx] }, uat := .framed, uesc := false, uout := [] } := by
  rw [wirePairIn_eq, out, wireStep_outside _ (by decide), wireStep_begins]

/-- Outside, no other pair is taken (R142). -/
theorem wirePairIn_outside (out : s.uat = .outside) (h : x ≠ Config.stx) : wirePairIn x s = { s with
    tr := { s.tr with inb := s.tr.inb ++ [Config.dle, x] }, uat := .outside } := by
  rw [wirePairIn_eq, out, wireStep_outside _ (by decide), wireStep_outside _ h]

end pair

/-- Settles O11: the four pairs, where the unstuffer stands and with the flag it holds, by the lemma for that case. -/
theorem wirePairsYieldOneBodyByte : Obligations.WirePairsYieldOneBodyByte := by
  intro s
  refine ⟨fun inside esc => ?_, fun inside esc => ?_, fun framed => ?_, fun out => ?_⟩
  · exact ⟨fun xx goesOn => congrArg _ (wirePairIn_unpaired inside esc goesOn),
      congrArg _ (wirePairIn_unpaired inside esc (.inr (by decide))),
      congrArg _ (wirePairIn_unpaired inside esc (.inr (by decide))),
      congrArg _ (wirePairIn_unpaired inside esc (.inr (by decide)))⟩
  · refine ⟨fun xx goesOn => congrArg Host.Outcome.next ?_,
      congrArg _ (wirePairIn_paired inside esc (.inr (by decide)) (by decide)),
      congrArg _ (wirePairIn_paired inside esc (.inr (by decide)) (by decide)),
      congrArg _ (wirePairIn_paired inside esc (.inr (by decide)) (by decide))⟩
    split_ifs with dle
    · subst dle; exact wirePairIn_paired_dle inside esc
    · exact wirePairIn_paired inside esc goesOn dle
  · refine congrArg Host.Outcome.next ((wirePairIn_ends framed).trans ?_)
    cases s.uesc <;> rfl
  · refine ⟨fun xx => congrArg Host.Outcome.next ?_, congrArg _ (wirePairIn_outside out (by decide)),
      congrArg _ (wirePairIn_outside out (by decide)), congrArg _ (wirePairIn_outside out (by decide))⟩
    split_ifs with stx
    · subst stx; exact wirePairIn_begins out
    · exact wirePairIn_outside out stx

end Sys2Proof.Machine
end

section
/-! PROOF, CRC-8 (40_crc8.md R86 to R91). What the family's operations do to the state; the CRC is linear and, for a fixed
sequence, one-to-one in the value it starts from, so that a change is seen exactly when its own CRC is not zero. -/

namespace Sys2Proof.Machine

open Sys2Proof.Safety

/-! ## The operations -/

/-- The bit step as its pseudocode has it (R86). -/
theorem bitStep_eq_ofNat (a : Byte) : bitStep a = BitVec.ofNat 8
    (if 128 ≤ a.toNat then ((a.toNat <<< 1) ^^^ 0x07) &&& 0xFF else (a.toNat <<< 1) &&& 0xFF) := by
  have top : a.getLsbD 7 = decide (128 ≤ a.toNat) := BitVec.msb_eq_decide a
  have shift : BitVec.ofNat 8 (a.toNat <<< 1) = a <<< 1 := BitVec.eq_of_toNat_eq (by simp)
  have narrow : ∀ n, BitVec.ofNat 8 (n &&& 0xFF) = BitVec.ofNat 8 n := fun n => by
    rw [BitVec.ofNat_and]
    exact BitVec.and_allOnes
  simp only [bitStep, top, decide_eq_true_eq]
  split_ifs
  · rw [narrow, BitVec.ofNat_xor, shift]; rfl
  · rw [narrow, shift]

theorem exec_crc8Bitstep (a : Byte) (s : State) :
    exec (.crc8Bitstep a) s = .next (s.withReply .ok (.byte (bitStep a))) := rfl

theorem exec_crc8Clear (s : State) : exec .crc8Clear s = .next ((s.withAcc s.par.crcInit).withReply .ok .nothing) := rfl

theorem exec_crc8Update (b : Byte) (s : State) :
    exec (.crc8Update b) s = .next ((s.withAcc (crcUpdate s.acc b)).withReply .ok .nothing) := rfl

theorem exec_crc8Calc (m : Bytes) (s : State) :
    exec (.crc8Calc m) s = .next (s.withReply .ok (.byte (crcCalc s.par.crcInit m))) := rfl

@[simp] theorem crcUpdate_zero_left (b : Byte) : crcUpdate 0#8 b = bitStep8 b := by simp [crcUpdate]

/-- Settles O15: the operation returns `bitStep a`, which is the pseudocode's value. -/
theorem bitStepShiftsAndXors : Obligations.BitStepShiftsAndXors := fun a s =>
  ⟨by rw [exec_crc8Bitstep, bitStep_eq_ofNat]; rfl, rfl⟩

/-- Settles O16: each claim is the operation's own equation, evaluated. -/
theorem clearSetsTheAccumulator : Obligations.ClearSetsTheAccumulator :=
  ⟨exec_crc8Clear, rfl, fun _ => rfl⟩

/-- Settles O17: the byte enters by the xor with `acc` alone. -/
theorem updateRunsEightBitSteps : Obligations.UpdateRunsEightBitSteps := by
  refine ⟨exec_crc8Update, fun _ _ => ⟨_, rfl⟩, fun p q s => ?_⟩
  have same : crcUpdate p q = crcUpdate 0#8 (p ^^^ q) := by rw [crcUpdate_zero_left, crcUpdate]
  simp only [exec_crc8Update, same]
  rfl

/-- Feeding bytes leaves their fold in `acc` (R88, R89). -/
theorem runAll_updates (m : Bytes) (acc : Byte) (s : State) :
    runAll (m.map .crc8Update) ((s.withAcc acc).withReply .ok .nothing)
      = .next ((s.withAcc (crcCalc acc m)).withReply .ok .nothing) := by
  induction m generalizing acc with
  | nil => rfl
  | cons b m ih => exact ih (crcUpdate acc b)

/-- Settles O18: after the clear, `runAll_updates` from `CRC_INIT`. -/
theorem calcIsClearThenUpdates : Obligations.CalcIsClearThenUpdates := fun m s =>
  ⟨⟨_, rfl⟩, crcCalc s.par.crcInit m, exec_crc8Calc m s, rfl, fun u same => by
    rw [← same]
    exact runAll_updates m u.par.crcInit u⟩

/-! ## Linear and one-to-one -/

theorem bitStep8_injective : Function.Injective bitStep8 := by
  intro a b h
  have zero : bitStep8 (a ^^^ b) = 0#8 := by rw [bitStep8_xor, h, BitVec.xor_self]
  exact BitVec.xor_eq_zero_iff.1 ((bitStep8_eq_zero _).1 zero)

/-- What R91 says of the table holds of every function that agrees with the eight bit steps. -/
theorem tableLaws_of_eq_bitStep8 {T : Byte → Byte} (table : ∀ i, T i = bitStep8 i) :
    (∀ (b : Byte) (s : State), exec (.crc8Update b) s
        = .next { s with acc := T (s.acc ^^^ b), resPut := 0, res := some ⟨.ok, .nothing⟩ })
      ∧ Function.Bijective T ∧ ∀ i j : Byte, T (i ^^^ j) = T i ^^^ T j := by
  obtain rfl : T = bitStep8 := funext table
  exact ⟨exec_crc8Update, Finite.injective_iff_bijective.1 bitStep8_injective, bitStep8_xor⟩

/-- Settles O19: the 256 entries, read one by one, are the eight bit steps of their index. -/
theorem updateFollowsTheTable : Obligations.UpdateFollowsTheTable := by
  unfold Obligations.UpdateFollowsTheTable
  intro rows T
  have table : ∀ i, T i = bitStep8 i := by decide +kernel +zetaReduce
  exact tableLaws_of_eq_bitStep8 table

theorem crcUpdate_xor (p q a b : Byte) : crcUpdate (p ^^^ q) (a ^^^ b) = crcUpdate p a ^^^ crcUpdate q b := by
  have swap : (p ^^^ q) ^^^ (a ^^^ b) = (p ^^^ a) ^^^ (q ^^^ b) := by ac_rfl
  rw [crcUpdate, swap, bitStep8_xor, crcUpdate, crcUpdate]

/-- The CRC is linear in the bytes and the starting value together (R90 (a)). -/
theorem crcCalc_zipWith_xor (p q : Byte) {m n : Bytes} (len : m.length = n.length) :
    crcCalc (p ^^^ q) (List.zipWith (· ^^^ ·) m n) = crcCalc p m ^^^ crcCalc q n := by
  induction m generalizing n p q with
  | nil =>
    obtain rfl := List.length_eq_zero_iff.1 len.symm
    rfl
  | cons a m ih =>
    cases n with
    | nil => cases len
    | cons b n =>
      have step := ih (crcUpdate p a) (crcUpdate q b) (Nat.succ.inj len)
      rwa [← crcUpdate_xor] at step

@[simp] theorem crcCalc_replicate_zero (k : Nat) : crcCalc 0#8 (List.replicate k 0#8) = 0#8 := by
  induction k with
  | zero => rfl
  | succ k ih => rwa [List.replicate_succ, crcCalc, List.foldl_cons, crcUpdate_zero_left, bitStep8_zero]

/-- A sequence's CRC goes on from that of its first part. -/
theorem crcCalc_append_eq_crcCalc (init : Byte) (m n : Bytes) : crcCalc init (m ++ n) = crcCalc (crcCalc init m) n :=
  crcCalc_append init m n

/-- Settles O20: the residue is the CRC xored with itself and stepped. -/
theorem crcIsLinearWithZeroResidue : Obligations.CrcIsLinearWithZeroResidue := by
  refine ⟨fun m n len => crcCalc_zipWith_xor 0#8 0#8 len, fun k m => ?_, fun m => ?_, crcCalc_replicate_zero⟩
  · rw [crcCalc_append_eq_crcCalc, crcCalc_replicate_zero]
  · simp [crcCalc_append, crcUpdate]

/-! ## Changes that are seen -/

/-- For given bytes the CRC tells starting values apart. -/
theorem crcCalc_injective (m : Bytes) : Function.Injective (crcCalc · m) := by
  induction m with
  | nil => exact fun _ _ h => h
  | cons b m ih => exact fun _ _ h => (BitVec.xor_left_inj _).1 (bitStep8_injective (ih h))

/-- A change `e` of bytes `d` within a sequence is seen when its own CRC, from 0, is not zero (R90 (a)). -/
theorem crcCalc_ne_of_change (init : Byte) (m n : Bytes) {d e : Bytes} (len : d.length = e.length)
    (seen : crcCalc 0#8 e ≠ 0#8) :
    crcCalc init (m ++ List.zipWith (· ^^^ ·) d e ++ n) ≠ crcCalc init (m ++ d ++ n) := by
  intro h
  simp only [crcCalc_append_eq_crcCalc] at h
  have change := crcCalc_zipWith_xor (crcCalc init m) 0#8 len
  rw [BitVec.xor_zero, crcCalc_injective n h] at change
  exact seen (xor_left_eq_self_iff.1 change.symm)

/-- The two bytes of a 16-bit word, the most significant first. -/
def wordBytes (w : BitVec 16) : Bytes := [(w >>> 8).setWidth 8, w.setWidth 8]

theorem crcCalc_wordBytes (w : BitVec 16) :
    crcCalc 0#8 (wordBytes w) = bitStep8 (bitStep8 ((w >>> 8).setWidth 8) ^^^ w.setWidth 8) := by
  simp [crcCalc, wordBytes, crcUpdate]

/-- Shifted by a bit, the first byte takes in the top bit of the second. -/
theorem firstByte_shiftLeft (w : BitVec 16) (fits : w.getLsbD 15 = false) :
    ((w <<< 1) >>> 8).setWidth 8
      = bitStep ((w >>> 8).setWidth 8) ^^^ (if w.getLsbD 7 then 0x01#8 else 0#8) := by
  have top : ((w >>> 8).setWidth 8 : Byte).getLsbD 7 = false := by simpa using fits
  rw [bitStep, top]
  apply BitVec.eq_of_getElem_eq
  intro i hi
  cases i with
  | zero => cases h : w[7] <;> simp [h]
  | succ i => cases h : w[7] <;> simp [h] <;> omega

/-- Shifted by a bit, the second byte loses its top bit, for which a bit step puts in the polynomial. -/
theorem secondByte_shiftLeft (w : BitVec 16) :
    (w <<< 1).setWidth 8 = bitStep (w.setWidth 8) ^^^ (if w.getLsbD 7 then 0x07#8 else 0#8) := by
  have top : (w.setWidth 8 : Byte).getLsbD 7 = w.getLsbD 7 := by simp
  rw [BitVec.setWidth_shiftLeft_of_le (by decide), bitStep, top]
  cases w.getLsbD 7 <;> simp [Config.crcPoly]

/-- Moving a window on by a bit is a bit step of its CRC: the bit that goes from the second byte into the first counts
there for what the polynomial would be in the second. -/
theorem crcCalc_wordBytes_shiftLeft (w : BitVec 16) (fits : w.getLsbD 15 = false) :
    crcCalc 0#8 (wordBytes (w <<< 1)) = bitStep (crcCalc 0#8 (wordBytes w)) := by
  have carry : bitStep8 (if w.getLsbD 7 then 0x01#8 else 0#8) = if w.getLsbD 7 then 0x07#8 else 0#8 := by
    cases w.getLsbD 7 <;> decide
  have cancel : ∀ c x y : Byte, (x ^^^ c) ^^^ (y ^^^ c) = x ^^^ y := by
    intro c x y
    rw [xor_comm y, BitVec.xor_assoc, xor_cancel_left]
  have comm : ∀ a, bitStep8 (bitStep a) = bitStep (bitStep8 a) := fun _ => rfl
  rw [crcCalc_wordBytes, crcCalc_wordBytes, firstByte_shiftLeft w fits, secondByte_shiftLeft,
    bitStep8_xor _ (ite _ _ _), carry, cancel, comm, ← bitStep_xor, comm]

/-- The CRC of a window at offset `k` is that of its bits at offset 0 and `k` bit steps. -/
theorem crcCalc_wordBytes_window (x : Byte) {k : Nat} (hk : k ≤ 8) :
    crcCalc 0#8 (wordBytes (x.setWidth 16 <<< k)) = bitStep^[k] (bitStep8 x) := by
  induction k with
  | zero =>
    have first : (x.setWidth 16 >>> 8).setWidth 8 = 0#8 := by
      rw [← BitVec.setWidth_ushiftRight (by decide), BitVec.ushiftRight_eq_zero (Nat.le_refl 8)]
      rfl
    simp [crcCalc_wordBytes, first]
  | succ k ih =>
    have fits : (x.setWidth 16 <<< k).getLsbD 15 = false := by
      simpa using fun _ => BitVec.getLsbD_of_ge x (15 - k) (by omega)
    rw [Function.iterate_succ_apply', ← ih (by omega), ← crcCalc_wordBytes_shiftLeft _ fits, ← BitVec.shiftLeft_add]

theorem bitStep_injective : Function.Injective bitStep :=
  fun _ _ h => bitStep8_injective (congrArg bitStep^[7] h)

/-- Bit steps make no byte zero that was not. -/
theorem iterate_bitStep_ne_zero (k : Nat) {a : Byte} (h : a ≠ 0#8) : bitStep^[k] a ≠ 0#8 := by
  have fixed : bitStep^[k] 0#8 = 0#8 := Function.iterate_fixed (by decide) k
  exact fun zero => h (bitStep_injective.iterate k (zero.trans fixed.symm))

/-- Settles O21: the change's own CRC is eight bit steps of it in one byte, and `k` more in a window at offset `k`; no bit
step of a byte that is not zero is zero. -/
theorem crcDetectsEveryShortBurst : Obligations.CrcDetectsEveryShortBurst := by
  refine ⟨fun init m n a x hx => ?_, fun init m n a b x k hx hk => ?_⟩
  all_goals have stepped : bitStep8 x ≠ 0#8 := mt (bitStep8_eq_zero x).1 hx
  · have seen : crcCalc 0#8 [x] ≠ 0#8 := by simpa [crcCalc] using stepped
    exact crcCalc_ne_of_change init m n (d := [a]) (e := [x]) rfl seen
  · have seen : crcCalc 0#8 (wordBytes (x.setWidth 16 <<< k)) ≠ 0#8 := by
      rw [crcCalc_wordBytes_window x hk]
      exact iterate_bitStep_ne_zero k stepped
    exact crcCalc_ne_of_change init m n (d := [a, b]) (e := wordBytes _) rfl seen

end Sys2Proof.Machine
end

section
/-! PROOF, stuffing (41_stuffing.md R96 to R100). A canonical interior is one that `STUFF` makes; what `STUFF` makes is seen
byte by byte, and `UNSTUFF` tells which bytes it was made of. -/

namespace Sys2Proof.Machine

open Sys2Proof.Safety

/-! ## The operations -/

theorem exec_stuff (m : Bytes) (s : State) : exec (.stuff m) s = .next (s.withReply .ok (.bytes (stuffBytes m))) := rfl

theorem exec_unstuff (w : Bytes) (s : State) : exec (.unstuff w) s = execUnstuff w s := rfl

theorem exec_unstuff_of_none {w : Bytes} (h : unstuffBytes w = none) (s : State) :
    exec (.unstuff w) s = .next (s.withReply .frameError .fail) := by
  rw [exec_unstuff, execUnstuff, h]

theorem exec_unstuff_of_some {w u : Bytes} (h : unstuffBytes w = some u) (s : State) :
    exec (.unstuff w) s = .next (s.withReply .ok (.bytes u)) := by
  rw [exec_unstuff, execUnstuff, h]

/-! ## Stuffing -/

/-- `STUFF` byte by byte (R96). -/
theorem stuffBytes_eq_flatMap (m : Bytes) :
    stuffBytes m = m.flatMap fun b => if b = 0x02#8 ∨ b = 0x04#8 ∨ b = 0x20#8 then [0x20#8, ~~~b] else [b] := by
  induction m with
  | nil => rfl
  | cons b m ih =>
    rw [List.flatMap_cons, ← ih]
    split_ifs with h
    · exact stuffBytes_cons_special ((isSpecial_iff b).2 h) m
    · exact stuffBytes_cons_plain (Bool.eq_false_iff.2 (mt (isSpecial_iff b).1 h)) m

/-- Settles O23: the operation returns `stuffBytes`, which is the byte-by-byte replacement. -/
theorem stuffEscapesTheSpecialBytes : Obligations.StuffEscapesTheSpecialBytes := fun m s =>
  ⟨by rw [exec_stuff, stuffBytes_eq_flatMap]; rfl, m, rfl⟩

/-- Each special byte adds one (R97). -/
theorem length_stuffBytes (m : Bytes) : (stuffBytes m).length = m.length + m.countP isSpecial := by
  induction m with
  | nil => rfl
  | cons b m ih =>
    cases h : isSpecial b with
    | true => simp [stuffBytes_cons_special h, h, ih]; omega
    | false => simp [stuffBytes_cons_plain h, h, ih]; omega

theorem length_stuffBytes_le (m : Bytes) : (stuffBytes m).length ≤ 2 * m.length := by
  have special : m.countP isSpecial ≤ m.length := List.countP_le_length
  rw [length_stuffBytes]
  omega

/-- The complement of a special byte is not special (R67). -/
theorem isSpecial_complement {b : Byte} (h : isSpecial b = true) : isSpecial (~~~b) = false := by
  rcases complement_of_special h with e | e | e <;> rw [e] <;> decide

/-- The one special byte in stuffed bytes is the prefix of the pairs (R97). -/
theorem eq_dle_of_mem_stuffBytes {x : Byte} (special : isSpecial x = true) {m : Bytes} (h : x ∈ stuffBytes m) :
    x = Config.dle := by
  induction m with
  | nil => cases h
  | cons b m ih =>
    cases hb : isSpecial b with
    | true =>
      rw [stuffBytes_cons_special hb] at h
      rcases List.mem_cons.1 h with dle | h
      · exact dle
      rcases List.mem_cons.1 h with rfl | h
      · exact absurd (isSpecial_complement hb) (by simp [special])
      · exact ih h
    | false =>
      rw [stuffBytes_cons_plain hb] at h
      rcases List.mem_cons.1 h with rfl | h
      · exact absurd hb (by simp [special])
      · exact ih h

theorem not_mem_stuffBytes {x : Byte} (special : isSpecial x = true) (h : x ≠ Config.dle) (m : Bytes) :
    x ∉ stuffBytes m :=
  mt (eq_dle_of_mem_stuffBytes special) h

/-- After every `DLE` of stuffed bytes comes the complement of a special byte (R97): that `DLE` is the prefix of a pair, for
no second byte of a pair and no copied byte is one. -/
theorem complement_after_dle {m a z : Bytes} (h : stuffBytes m = a ++ Config.dle :: z) :
    ∃ b, isSpecial b = true ∧ z.head? = some (~~~b) := by
  induction m generalizing a with
  | nil => simp at h
  | cons b m ih =>
    cases hb : isSpecial b with
    | true =>
      rw [stuffBytes_cons_special hb] at h
      match a with
      | [] =>
        obtain ⟨-, rfl⟩ := List.cons.inj h
        exact ⟨b, hb, rfl⟩
      | [_] =>
        obtain ⟨-, h⟩ := List.cons.inj h
        obtain ⟨dle, -⟩ := List.cons.inj h
        exact absurd (isSpecial_complement hb) (by rw [dle]; decide)
      | _ :: _ :: a =>
        obtain ⟨-, h⟩ := List.cons.inj h
        exact ih (List.cons.inj h).2
    | false =>
      rw [stuffBytes_cons_plain hb] at h
      match a with
      | [] =>
        obtain ⟨dle, -⟩ := List.cons.inj h
        exact absurd hb (by rw [dle]; decide)
      | _ :: a => exact ih (List.cons.inj h).2

/-- Stuffed bytes do not end in a `DLE`, after which there would be a byte more (R97). -/
theorem getLast?_stuffBytes_ne_dle (m : Bytes) : (stuffBytes m).getLast? ≠ some Config.dle := by
  intro h
  obtain ⟨a, last⟩ := List.getLast?_eq_some_iff.1 h
  obtain ⟨_, _, next⟩ := complement_after_dle last
  cases next

/-- Settles O24: one lemma for each property. -/
theorem stuffedBytesAreCanonical : Obligations.StuffedBytesAreCanonical := fun m n => by
  refine ⟨length_stuffBytes m, length_le_length_stuffBytes m, length_stuffBytes_le m,
    not_mem_stuffBytes (by decide) (by decide) m, not_mem_stuffBytes (by decide) (by decide) m, fun a z h => ?_,
    getLast?_stuffBytes_ne_dle m, stuffBytes_append m n⟩
  obtain ⟨b, special, next⟩ := complement_after_dle h
  simpa only [next, Option.some.injEq] using complement_of_special special

/-! ## Unstuffing -/

/-- Settles O25: the function is `unstuffBytes`, whose equations are those of the scan, and the operation returns it. -/
theorem unstuffScansPairs : Obligations.UnstuffScansPairs :=
  ⟨unstuffBytes, unstuffBytes_nil, unstuffBytes_dle, unstuffBytes_pair, fun _ w h => unstuffBytes_cons h w,
    fun w s => ⟨⟨w, rfl⟩, fun fail => exec_unstuff_of_none fail s, fun _ out => exec_unstuff_of_some out s⟩⟩

/-- An interior that unstuffs has one or two bytes for each byte of the result (R99). -/
theorem length_of_unstuffBytes {w u : Bytes} (h : unstuffBytes w = some u) :
    u.length ≤ w.length ∧ w.length ≤ 2 * u.length := by
  fun_induction unstuffBytes w generalizing u with
  | case1 => cases h; simp
  | case2 => cases h
  | case3 b plain => cases h; simp
  | case4 c rest ih =>
    obtain ⟨v, out, rfl⟩ := Option.map_eq_some_iff.1 h
    have bounds := ih out
    simp only [List.length_cons]
    omega
  | case5 b c rest plain ih =>
    obtain ⟨v, out, rfl⟩ := Option.map_eq_some_iff.1 h
    have bounds := ih out
    simp only [List.length_cons] at bounds ⊢
    omega

/-! ## Canonical interiors -/

theorem canonical_pair (c : Byte) (w : Bytes) :
    canonical (Config.dle :: c :: w) = ((c == 0xFD#8 || c == 0xFB#8 || c == 0xDF#8) && canonical w) := by
  simp [canonical]

theorem canonical_cons {b : Byte} (h : b ≠ Config.dle) (w : Bytes) :
    canonical (b :: w) = (!isSpecial b && canonical w) := by
  cases w <;> simp [canonical, h]

/-- The second bytes of the stuffing pairs are the complements of the special bytes (R66, R67). -/
theorem isSpecial_complement_iff (c : Byte) :
    isSpecial (~~~c) = true ↔ (c == 0xFD#8 || c == 0xFB#8 || c == 0xDF#8) = true := by
  revert c
  decide

/-- What `STUFF` makes is canonical (R97, R100). -/
theorem canonical_stuffBytes (m : Bytes) : canonical (stuffBytes m) = true := by
  induction m with
  | nil => rfl
  | cons b m ih =>
    cases h : isSpecial b with
    | true =>
      have pair := (isSpecial_complement_iff (~~~b)).1 (by rwa [BitVec.not_not])
      rw [stuffBytes_cons_special h, canonical_pair, pair, ih]
      rfl
    | false =>
      obtain ⟨-, -, dle⟩ := ne_of_isSpecial_eq_false h
      rw [stuffBytes_cons_plain h, canonical_cons dle, h, ih]
      rfl

/-- A canonical interior is one that `STUFF` makes (R100). -/
theorem exists_stuffBytes_of_canonical {w : Bytes} (h : canonical w = true) : ∃ m, stuffBytes m = w := by
  fun_induction canonical w with
  | case1 => exact ⟨[], rfl⟩
  | case2 b => exact ⟨[b], stuffBytes_cons_plain (by simpa using h) []⟩
  | case3 c rest ih =>
    obtain ⟨pair, canon⟩ := (Bool.and_eq_true _ _).mp h
    obtain ⟨m, rfl⟩ := ih canon
    refine ⟨~~~c :: m, ?_⟩
    rw [stuffBytes_cons_special ((isSpecial_complement_iff c).2 pair), BitVec.not_not]
  | case4 b c rest dle ih =>
    obtain ⟨plain, canon⟩ := (Bool.and_eq_true _ _).mp h
    obtain ⟨m, made⟩ := ih canon
    exact ⟨b :: m, by rw [stuffBytes_cons_plain (by simpa using plain), made]⟩

/-- Stuffing gives back a canonical interior, and no other (R100). -/
theorem stuffBytes_eq_iff_canonical {w u : Bytes} (h : unstuffBytes w = some u) :
    stuffBytes u = w ↔ canonical w = true := by
  refine ⟨fun made => made ▸ canonical_stuffBytes u, fun canon => ?_⟩
  obtain ⟨m, rfl⟩ := exists_stuffBytes_of_canonical canon
  obtain rfl : m = u := Option.some.inj ((unstuffBytes_stuffBytes m).symm.trans h)
  rfl

/-- Settles O26: the canonical interiors are those `STUFF` makes, and `UNSTUFF` undoes `STUFF`. -/
theorem unstuffInvertsStuff : Obligations.UnstuffInvertsStuff :=
  ⟨unstuffBytes_stuffBytes, fun _ _ out => ⟨stuffBytes_eq_iff_canonical out, length_of_unstuffBytes out⟩, rfl, rfl⟩

end Sys2Proof.Machine
end

section
/-! PROOF, packet encode (42_packet_encode.md R104 to R112). The ranges of `VALIDATE` as one proposition, the length of an
assembled frame, and what a frame that `DECODE` accepts is made of: then `DECODE` and `ENCODE` meet in `frameBody`. -/

namespace Sys2Proof.Machine

open Sys2Proof.Safety

/-! ## The operations -/

theorem exec_validate (d sr p : Int) (y : Bytes) (s : State) :
    exec (.validate d sr p y) s = .next (s.withReply .ok (.truth (validatePacket d sr p y))) := rfl

theorem exec_assemble (d sr : Byte) (p : Pid) (y : Bytes) (s : State) :
    exec (.assemble d sr p y) s = .next (s.withReply .ok (.bytes (assembleFrame s.par.crcInit d sr p y))) := rfl

theorem exec_encode_of_valid {d sr p : Int} {y : Bytes} (h : validatePacket d sr p y = true) (s : State) :
    exec (.encode d sr p y) s = .next (s.withReply .ok (.bytes (encodePacket s.par.crcInit d sr p y))) := if_pos h

theorem exec_encode_of_refused {d sr p : Int} {y : Bytes} (h : validatePacket d sr p y ≠ true) (s : State) :
    exec (.encode d sr p y) s = .next (s.withReply .validationError (.bytes [])) := if_neg h

/-! ## The ranges -/

/-- The range tests (R104). -/
theorem validatePacket_iff {d sr p : Int} {y : Bytes} : validatePacket d sr p y = true ↔
    1 ≤ d ∧ d ≤ 255 ∧ 0 ≤ sr ∧ sr ≤ 255 ∧ d ≠ sr ∧ 1 ≤ p ∧ p ≤ 65535 ∧ 1 ≤ y.length ∧ y.length ≤ 35 := by
  unfold validatePacket Config.minPayload Config.maxPayload
  simp only [Bool.and_eq_true, decide_eq_true_eq, and_assoc]

/-- Settles O27: the value returned is true exactly on the ranges. -/
theorem validateTestsTheRanges : Obligations.ValidateTestsTheRanges := fun d sr p y s => by
  refine ⟨?_, rfl⟩
  rw [exec_validate, Bool.eq_iff_iff.2 (validatePacket_iff.trans decide_eq_true_iff.symm)]
  rfl

theorem payload_ne_nil_of_valid {d sr p : Int} {y : Bytes} (h : validatePacket d sr p y = true) : y ≠ [] := by
  obtain ⟨-, -, -, -, -, -, -, payload, -⟩ := validatePacket_iff.1 h
  exact List.length_pos_iff.1 payload

/-- The header of a valid packet fits its ports (R24, R104). -/
theorem header_fits_of_valid {d sr p : Int} {y : Bytes} (h : validatePacket d sr p y = true) :
    ((BitVec.ofInt 8 d).toNat : Int) = d ∧ ((BitVec.ofInt 8 sr).toNat : Int) = sr
      ∧ ((BitVec.ofInt 16 p).toNat : Int) = p := by
  obtain ⟨dLow, dHigh, sLow, sHigh, -, pLow, pHigh, -⟩ := validatePacket_iff.1 h
  refine ⟨toNat_ofInt_of_fitsByte ?_, toNat_ofInt_of_fitsByte ?_, toNat_ofInt_of_fitsPid ?_⟩ <;>
    simp only [fitsByte, fitsPid, Bool.and_eq_true, decide_eq_true_eq] <;> omega

/-- `ENCODE` of the packet that ports present (R24, R107). -/
theorem encodePacket_toNat (init : Byte) {d sr : Byte} {p : Pid} {y : Bytes}
    (h : validatePacket d.toNat sr.toNat p.toNat y = true) :
    encodePacket init d.toNat sr.toNat p.toNat y = assembleFrame init d sr p y := by
  rw [encodePacket_of_valid init h]
  simp only [BitVec.ofInt_natCast, BitVec.ofNat_toNat, BitVec.setWidth_eq]

/-! ## The frame -/

/-- The body's bytes with the packetId's as R105 has them. -/
theorem headAndPayload_eq_masks (d sr : Byte) (p : Pid) (y : Bytes) : headAndPayload d sr p y
    = [d, sr, BitVec.ofNat 8 ((p.toNat >>> 8) &&& 0xFF), BitVec.ofNat 8 (p.toNat &&& 0xFF)] ++ y := by
  have low : ∀ n, n &&& 0xFF = n % 256 := fun n => Nat.and_two_pow_sub_one_eq_mod n 8
  have high : (p.toNat >>> 8) % 256 = p.toNat / 256 := by
    rw [Nat.shiftRight_eq_div_pow]
    omega
  rw [low, low, high, headAndPayload_eq]

/-- Settles O28: the body with its packetId bytes and CRC written out is `frameBody`, which the frame stuffs. -/
theorem assembleBuildsTheFrame : Obligations.AssembleBuildsTheFrame := by
  intro d sr p y s head body
  have made : frameBody s.par.crcInit d sr p y = body := by
    rw [frameBody, headAndPayload_eq_masks]
    rfl
  refine ⟨?_, _, rfl⟩
  rw [exec_assemble, assembleFrame, made, stuffBytes_eq_flatMap]
  rfl

/-- Settles O29: the ports of a valid packet present it to `VALIDATE`, and `ENCODE` then assembles it. -/
theorem encodeRefusesOrAssembles : Obligations.EncodeRefusesOrAssembles := by
  refine ⟨fun d sr p y s dst differ pid low high => ?_, fun _ _ _ _ _ => ⟨_, rfl⟩, fun d sr p y s bad => ?_⟩
  · have valid : validatePacket d.toNat sr.toNat p.toNat y = true := validatePacket_iff.2 (by bv_omega)
    refine ⟨assembleFrame s.par.crcInit d sr p y, exec_assemble d sr p y s, ?_⟩
    rw [exec_encode_of_valid valid, encodePacket_toNat _ valid]
    rfl
  · exact exec_encode_of_refused (mt validatePacket_iff.1 bad) s

@[simp] theorem length_frameBody (init d sr : Byte) (p : Pid) (y : Bytes) :
    (frameBody init d sr p y).length = y.length + 5 := by
  simp [frameBody, headAndPayload]

/-- The length of a frame: two delimiters, and the body with a byte more for each special one (R97, R108). -/
theorem length_assembleFrame (init d sr : Byte) (p : Pid) (y : Bytes) :
    (assembleFrame init d sr p y).length = 7 + y.length + (frameBody init d sr p y).countP isSpecial := by
  simp only [assembleFrame, List.length_cons, List.length_append, List.length_nil, length_stuffBytes, length_frameBody]
  omega

/-- Settles O30: the length is that of the assembled frame, and what is between the delimiters is stuffed. -/
theorem encodedFrameHasItsShape : Obligations.EncodedFrameHasItsShape := by
  intro init d sr p y valid e
  obtain ⟨-, -, -, -, -, -, -, low, high⟩ := validatePacket_iff.1 valid
  rw [encodePacket_of_valid init valid]
  have len := length_assembleFrame init (BitVec.ofInt 8 d) (BitVec.ofInt 8 sr) (BitVec.ofInt 16 p) y
  have special : e ≤ _ := List.countP_le_length
  rw [length_frameBody] at special
  obtain ⟨-, -, -, noStx, noEtx, pairs, -⟩ :=
    stuffedBytesAreCanonical (frameBody init (BitVec.ofInt 8 d) (BitVec.ofInt 8 sr) (BitVec.ofInt 16 p) y) []
  exact ⟨len, by omega, by omega, by omega, _, rfl, noStx, noEtx, pairs⟩

/-! ## Decoding -/

/-- `DECODE` of an encoded packet is the packet (R110). -/
theorem decodeFrame_encodePacket (init : Byte) {d sr p : Int} {y : Bytes} (h : validatePacket d sr p y = true) :
    decodeFrame init (encodePacket init d sr p y)
      = some ⟨BitVec.ofInt 8 d, BitVec.ofInt 8 sr, BitVec.ofInt 16 p, y⟩ := by
  rw [encodePacket_of_valid init h]
  exact decodeFrame_assembleFrame_of_payload init _ _ _ (payload_ne_nil_of_valid h)

/-- Valid packets with the same frame are the same (R110). -/
theorem encodePacket_injective (init : Byte) {d sr p d' sr' p' : Int} {y y' : Bytes}
    (h : validatePacket d sr p y = true) (h' : validatePacket d' sr' p' y' = true)
    (same : encodePacket init d sr p y = encodePacket init d' sr' p' y') : d = d' ∧ sr = sr' ∧ p = p' ∧ y = y' := by
  have packets := decodeFrame_encodePacket init h
  rw [same, decodeFrame_encodePacket init h'] at packets
  obtain ⟨dst, src, pid, payload⟩ := Packet.mk.inj (Option.some.inj packets)
  obtain ⟨hd, hs, hp⟩ := header_fits_of_valid h
  obtain ⟨hd', hs', hp'⟩ := header_fits_of_valid h'
  exact ⟨by rw [← hd, ← hd', dst], by rw [← hs, ← hs', src], by rw [← hp, ← hp', pid], payload.symm⟩

/-- What is shorter than `MIN_FRAME` is refused (R114 check 1). -/
theorem decodeFrame_of_short (init : Byte) {f : Bytes} (h : f.length < Config.minFrame) : decodeFrame init f = none :=
  if_pos h

/-- Settles O31: a frame has 8 bytes with a payload byte or a special one, and 7 with neither. -/
theorem encodeDecodeRoundTrip : Obligations.EncodeDecodeRoundTrip := by
  refine fun init => ⟨fun d sr p y valid => ?_, fun d sr p y longer => ?_, fun d sr p plain => ?_,
    fun _ _ _ _ _ _ _ _ valid valid' => encodePacket_injective init valid valid'⟩
  · obtain ⟨hd, hs, hp⟩ := header_fits_of_valid valid
    exact ⟨_, decodeFrame_encodePacket init valid, hd, hs, hp, rfl⟩
  · rw [← List.countP_pos_iff] at longer
    refine decodeFrame_assembleFrame ?_
    rw [length_assembleFrame, Config.minFrame]
    omega
  · have noSpecial : (frameBody init d sr p []).countP isSpecial = 0 := by
      simpa only [List.countP_eq_zero, Bool.not_eq_true] using plain
    refine decodeFrame_of_short init ?_
    rw [length_assembleFrame, noSpecial]
    decide

/-- A body that splits into a packet is that packet's body (R105, R114 checks 5 and 6). -/
theorem eq_frameBody_of_splitBody {init : Byte} {u : Bytes} {q : Packet} (h : splitBody init u = some q) :
    u = frameBody init q.dst q.src q.pid q.payload := by
  unfold splitBody at h
  split at h
  next d sr hi lo rest =>
    split_ifs at h with noCrc crc
    cases h
    obtain ⟨y, c, rfl⟩ : ∃ y c, rest = y ++ [c] := ⟨_, _, (List.dropLast_concat_getLast noCrc).symm⟩
    have body : d :: sr :: hi :: lo :: (y ++ [c]) = headAndPayload d sr (pidOf hi lo) y ++ [c] := by
      simp [headAndPayload]
    rw [body, List.dropLast_concat, List.getLastD_concat, not_not] at crc
    rw [body, List.dropLast_concat, frameBody, crc]
  next => cases h

/-- What `DECODE` accepts: delimiters around an interior that unstuffs to the packet's body (R114). -/
theorem shape_of_decodeFrame {init : Byte} {f : Bytes} {q : Packet} (h : decodeFrame init f = some q) :
    ∃ w, f = Config.stx :: (w ++ [Config.etx])
      ∧ unstuffBytes w = some (frameBody init q.dst q.src q.pid q.payload) := by
  unfold decodeFrame at h
  split_ifs at h with short first last
  split at h
  next => cases h
  next u out =>
    obtain ⟨r, rfl⟩ := List.head?_eq_some_iff.1 (not_not.1 first)
    have nonempty : r ≠ [] := by rintro rfl; exact short (by simp [Config.minFrame])
    rw [not_not, List.getLast?_cons_of_ne_nil nonempty] at last
    exact ⟨interior (Config.stx :: r), congrArg _ (List.dropLast_append_getLast? _ last).symm,
      out.trans (congrArg some (eq_frameBody_of_splitBody h))⟩

@[simp] theorem interior_candidate (w : Bytes) : interior (Config.stx :: (w ++ [Config.etx])) = w := by
  simp [interior]

/-- Settles O32: both frames are the delimiters around an interior that unstuffs to the packet's body. -/
theorem reencodingKeepsThePacket : Obligations.ReencodingKeepsThePacket := by
  refine fun init f q decoded => ⟨fun valid => ?_, encodePacket_of_refused init⟩
  obtain ⟨w, rfl, out⟩ := shape_of_decodeFrame decoded
  rw [encodePacket_toNat init valid]
  refine ⟨decodeFrame_assembleFrame_of_payload init _ _ _ (payload_ne_nil_of_valid valid), ?_⟩
  rw [interior_candidate, ← stuffBytes_eq_iff_canonical out]
  simp [assembleFrame]

end Sys2Proof.Machine
end

section
/-! PROOF, packet decode (43_packet_decode.md R114, R122). What `DECODE` accepts, both ways; and that a body with its CRC has
residue 0 (R115), which a body changed in one byte has not. -/

namespace Sys2Proof.Machine

open Sys2Proof.Safety

/-! ## The operation -/

theorem exec_decode (f : Bytes) (s : State) : exec (.decode f) s = execDecode f s := rfl

theorem exec_decode_of_none {f : Bytes} {s : State} (h : decodeFrame s.par.crcInit f = none) :
    exec (.decode f) s = .next (s.withReply .frameError .noPacket) := by
  rw [exec_decode, execDecode, h]

theorem exec_decode_of_some {f : Bytes} {s : State} {q : Packet} (h : decodeFrame s.par.crcInit f = some q) :
    exec (.decode f) s = .next (s.withReply .ok (.packet q)) := by
  rw [exec_decode, execDecode, h]

/-! ## What is accepted -/

/-- The six checks pass exactly on a frame long enough whose interior unstuffs to the packet's body (R114). -/
theorem decodeFrame_eq_some_iff {init : Byte} {f : Bytes} {q : Packet} : decodeFrame init f = some q ↔
    Config.minFrame ≤ f.length ∧ ∃ w, f = Config.stx :: (w ++ [Config.etx])
      ∧ unstuffBytes w = some (frameBody init q.dst q.src q.pid q.payload) := by
  constructor
  · intro h
    refine ⟨Nat.not_lt.1 fun short => ?_, shape_of_decodeFrame h⟩
    cases (decodeFrame_of_short init short).symm.trans h
  · rintro ⟨long, w, rfl, out⟩
    have last : (Config.stx :: (w ++ [Config.etx])).getLast? = some Config.etx := by simp [List.getLast?_cons]
    simpa [decodeFrame, last, out] using long

/-- The body by its bytes: the packetId big-endian, and the CRC of what stands before it (R60, R69). -/
theorem eq_frameBody_iff {init d sr : Byte} {p : Pid} {y u : Bytes} : u = frameBody init d sr p y ↔
    ∃ hi lo c : Byte, u = [d, sr, hi, lo] ++ y ++ [c] ∧ p.toNat = hi.toNat * 256 + lo.toNat
      ∧ c = crcCalc init ([d, sr, hi, lo] ++ y) := by
  constructor
  · rintro rfl
    refine ⟨pidHi p, pidLo p, _, rfl, ?_, rfl⟩
    rw [← pidOf_toNat, pidOf_halves]
  · rintro ⟨hi, lo, c, rfl, pid, rfl⟩
    obtain rfl : p = pidOf hi lo := BitVec.eq_of_toNat_eq (pid.trans (pidOf_toNat hi lo).symm)
    simp [frameBody, headAndPayload]

/-- Settles O34: the function is `decodeFrame` with the body it accepts written out, and the operation returns it. -/
theorem decodeChecksAndSplits : Obligations.DecodeChecksAndSplits := by
  refine fun init => ⟨decodeFrame init, fun f q => ?_, ?_⟩
  · rw [decodeFrame_eq_some_iff]
    simp only [← eq_frameBody_iff, exists_and_left, exists_eq_right]
    rfl
  · rintro f s rfl
    exact ⟨⟨f, rfl⟩, exec_decode_of_none, fun _ => exec_decode_of_some⟩

/-! ## Changes that are seen -/

/-- The CRC over a body with its CRC is 0 (R90 (c), R115). -/
@[simp] theorem crcCalc_frameBody (init d sr : Byte) (p : Pid) (y : Bytes) :
    crcCalc init (frameBody init d sr p y) = 0#8 := by
  simp [frameBody, crcCalc_append, crcUpdate]

/-- Sequences that differ in one byte have different CRCs (R90 (e)). -/
theorem crcCalc_ne_of_byte_ne (init : Byte) (m n : Bytes) {b c : Byte} (h : b ≠ c) :
    crcCalc init (m ++ b :: n) ≠ crcCalc init (m ++ c :: n) := by
  rw [crcCalc_append_eq_crcCalc, crcCalc_append_eq_crcCalc]
  exact fun same => h ((BitVec.xor_right_inj _).1 (bitStep8_injective (crcCalc_injective n same)))

/-- The interior of a frame that decodes unstuffs to bytes whose CRC is 0 (R115). -/
theorem residue_of_decodeFrame {init : Byte} {w : Bytes}
    (h : (decodeFrame init (Config.stx :: (w ++ [Config.etx]))).isSome = true) :
    ∃ u, unstuffBytes w = some u ∧ crcCalc init u = 0#8 := by
  obtain ⟨q, decoded⟩ := Option.isSome_iff_exists.1 h
  obtain ⟨-, v, frame, out⟩ := decodeFrame_eq_some_iff.1 decoded
  obtain rfl : w = v := by simpa using frame
  exact ⟨_, out, crcCalc_frameBody init q.dst q.src q.pid q.payload⟩

/-- Of two interiors that agree but for symbols standing for different bytes, after the same scanned prefix, only one can be
that of a frame that decodes. -/
theorem decodeFrame_eq_none_of_symbol_changed {init x y : Byte} {a z r r' : Bytes} (differ : x ≠ y)
    (scanned : (unstuffBytes a).isSome = true) (read : unstuffBytes r = (unstuffBytes z).map (x :: ·))
    (read' : unstuffBytes r' = (unstuffBytes z).map (y :: ·))
    (h : (decodeFrame init (Config.stx :: (a ++ r ++ [Config.etx]))).isSome = true) :
    decodeFrame init (Config.stx :: (a ++ r' ++ [Config.etx])) = none := by
  obtain ⟨m, before⟩ := Option.isSome_iff_exists.1 scanned
  by_contra accepted
  obtain ⟨u, out, zero⟩ := residue_of_decodeFrame h
  obtain ⟨u', out', zero'⟩ := residue_of_decodeFrame (Option.isSome_iff_ne_none.2 accepted)
  rw [unstuffBytes_append a _ m before, read, Option.map_map] at out
  rw [unstuffBytes_append a _ m before, read', Option.map_map] at out'
  obtain ⟨n, after, rfl⟩ := Option.map_eq_some_iff.1 out
  obtain ⟨n', after', rfl⟩ := Option.map_eq_some_iff.1 out'
  obtain rfl : n = n' := Option.some.inj (after.symm.trans after')
  exact crcCalc_ne_of_byte_ne init m n differ (zero.trans zero'.symm)

/-- Settles O35: a literal stands for itself and a pair for the complement of its second byte, so the changed symbol
stands for another byte. -/
theorem decodeDetectsOneByteTampering : Obligations.DecodeDetectsOneByteTampering := by
  refine fun init a z b c differ => ⟨fun scanned plain plain' => ?_, fun scanned => ?_⟩
  · exact decodeFrame_eq_none_of_symbol_changed differ scanned (unstuffBytes_cons plain z) (unstuffBytes_cons plain' z)
  · exact decodeFrame_eq_none_of_symbol_changed (mt BitVec.not_inj.1 differ) scanned (unstuffBytes_pair b z)
      (unstuffBytes_pair c z)

end Sys2Proof.Machine
end

section
/-! PROOF, payload helpers (44_payload_helpers.md R126 to R131; 60_exceptions.md R188). A helper sees its operands
through `sliceOf` alone: the slice of each form of them, one lemma for each answer of a helper on a slice, and the
big-endian readings as digits to the base 256. -/

namespace Sys2Proof.Machine

/-! ## The slice -/

/-- The bounds of R126: what is not inside the payload, and nothing else, has no slice. -/
theorem sliceOf_eq_none_iff {y : Bytes} {o w : Option Int} : sliceOf y o w = none ↔
    o.getD 0 < 0 ∨ (∃ n, w = some n ∧ (n < 0 ∨ (y.length : Int) < o.getD 0 + n))
      ∨ (w = none ∧ (y.length : Int) < o.getD 0) := by
  cases w with
  | none => simp [sliceOf, imp_iff_not_or]
  | some n => simp [sliceOf, imp_iff_not_or]

theorem sliceOf_offset_width (a sl z : Bytes) :
    sliceOf (a ++ sl ++ z) (some a.length) (some sl.length) = some sl := by
  simp [sliceOf]

theorem sliceOf_offset (a sl : Bytes) : sliceOf (a ++ sl) (some a.length) none = some sl := by
  simp [sliceOf]

theorem sliceOf_width (sl z : Bytes) : sliceOf (sl ++ z) none (some sl.length) = some sl := by
  simp [sliceOf]

theorem sliceOf_whole (sl : Bytes) : sliceOf sl none none = some sl := by
  simp [sliceOf]

/-! ## What a helper answers -/

section integer
variable {y sl : Bytes} {o w : Option Int} (read : Bytes → Value) (s : State)

theorem integerReply_of_outside (h : sliceOf y o w = none) :
    integerReply y o w read s = .refused .sliceOutsidePayload := by
  rw [integerReply, h]

theorem integerReply_of_wide (h : sliceOf y o w = some sl) (wide : 8 < sl.length) :
    integerReply y o w read s = .next (s.withReply (.widthError sl.length) .nothing) := by
  rw [integerReply, h]
  exact if_pos wide

theorem integerReply_of_empty (h : sliceOf y o w = some []) : integerReply y o w read s = .refused .emptySlice := by
  rw [integerReply, h]
  rfl

theorem integerReply_of_fits (h : sliceOf y o w = some sl) (some_byte : 1 ≤ sl.length) (fits : sl.length ≤ 8) :
    integerReply y o w read s = .next (s.withReply .ok (read sl)) := by
  rw [integerReply, h]
  exact (if_neg (Nat.not_lt.2 fits)).trans (if_neg (List.ne_nil_of_length_pos some_byte))

end integer

theorem execToText_of_outside {y : Bytes} {o w : Option Int} (h : sliceOf y o w = none) (sub : Bool) (s : State) :
    execToText y o w sub s = .refused .sliceOutsidePayload := by
  rw [execToText, h]

theorem execToText_of_slice {y sl : Bytes} {o w : Option Int} (h : sliceOf y o w = some sl) (sub : Bool) (s : State) :
    execToText y o w sub s = .next (s.withReply .ok (.text (sl.map (textChar sub)))) := by
  rw [execToText, h]

theorem exec_toUint (y : Bytes) (o w : Option Int) (s : State) :
    exec (.toUint y o w) s = integerReply y o w (fun sl => .natural (unsignedOf sl)) s := rfl

theorem exec_toInt (y : Bytes) (o w : Option Int) (s : State) :
    exec (.toInt y o w) s = integerReply y o w (fun sl => .integer (signedOf sl)) s := rfl

theorem exec_toText (y : Bytes) (o w : Option Int) (sub : Bool) (s : State) :
    exec (.toText y o w sub) s = execToText y o w sub s := rfl

/-! ## The unsigned value -/

/-- The loop of R127 reads the bytes as digits to the base 256, the last one the lowest. -/
theorem unsignedOf_eq_ofDigits (sl : Bytes) : unsignedOf sl = Nat.ofDigits 256 (sl.reverse.map BitVec.toNat) := by
  induction sl using List.reverseRecOn with
  | nil => rfl
  | append_singleton sl b ih =>
    have last : unsignedOf (sl ++ [b]) = unsignedOf sl * 256 + b.toNat := by simp [unsignedOf]
    rw [last, ih, List.reverse_concat, List.map_cons, Nat.ofDigits_cons]
    omega

theorem unsignedOf_lt (sl : Bytes) : unsignedOf sl < 2 ^ (8 * sl.length) := by
  have digits : ∀ d ∈ sl.reverse.map BitVec.toNat, d < 256 := by
    intro d mem
    obtain ⟨b, -, rfl⟩ := List.mem_map.1 mem
    exact b.isLt
  rw [unsignedOf_eq_ofDigits, pow_mul]
  simpa using Nat.ofDigits_lt_base_pow_length (by decide) digits

/-- The first byte is the highest digit. -/
theorem unsignedOf_cons (b : Byte) (sl : Bytes) :
    unsignedOf (b :: sl) = 2 ^ (8 * sl.length) * b.toNat + unsignedOf sl := by
  simp [unsignedOf_eq_ofDigits, Nat.ofDigits_append, pow_mul, add_comm]

/-- Settles O36: `unsignedOf` is the value of the digits, and each form of the operands has the slice. -/
theorem toUintReadsBigEndian : Obligations.ToUintReadsBigEndian := fun a sl z s some_byte fits => by
  have reply {y : Bytes} {o w : Option Int} (slice : sliceOf y o w = some sl) :
      exec (.toUint y o w) s = .next (s.withReply .ok (.natural (unsignedOf sl))) :=
    (exec_toUint y o w s).trans (integerReply_of_fits _ s slice some_byte fits)
  exact ⟨unsignedOf sl, unsignedOf_lt sl, unsignedOf_eq_ofDigits sl, reply (sliceOf_offset_width a sl z),
    reply (sliceOf_offset a sl), reply (sliceOf_width sl z), reply (sliceOf_whole sl)⟩

/-! ## The two's-complement value -/

section sext
variable {n v : Nat}

theorem sext_of_lt (h : v < 2 ^ (n - 1)) : sext n v = v := if_pos h

theorem sext_of_ge (h : 2 ^ (n - 1) ≤ v) : sext n v = v - 2 ^ n := if_neg (Nat.not_lt.2 h)

/-- The range of an `n`-bit integer, and that its sign is bit `n - 1` (R13). -/
theorem sext_range_and_sign (pos : 1 ≤ n) (h : v < 2 ^ n) :
    -(2 ^ (n - 1)) ≤ sext n v ∧ sext n v < 2 ^ (n - 1) ∧ (sext n v < 0 ↔ 2 ^ (n - 1) ≤ v) := by
  have double : 2 ^ n = 2 * 2 ^ (n - 1) := (mul_pow_sub_one (Nat.one_le_iff_ne_zero.1 pos) 2).symm
  have double' : (2 : Int) ^ n = 2 * 2 ^ (n - 1) := by exact_mod_cast double
  have half : ((2 ^ (n - 1) : Nat) : Int) = 2 ^ (n - 1) := by push_cast; rfl
  rcases Nat.lt_or_ge v (2 ^ (n - 1)) with low | high
  · rw [sext_of_lt low]; omega
  · rw [sext_of_ge high]; omega

theorem sext_emod (h : v < 2 ^ n) : sext n v % 2 ^ n = v := by
  have same : (v : Int) % 2 ^ n = v := Int.emod_eq_of_lt (Int.natCast_nonneg v) (by exact_mod_cast h)
  rcases Nat.lt_or_ge v (2 ^ (n - 1)) with low | high
  · rw [sext_of_lt low, same]
  · rw [sext_of_ge high, Int.sub_emod_right, same]

end sext

/-- The highest bit of the value is bit 7 of the first byte. -/
theorem half_le_unsignedOf_iff {sl : Bytes} (h : 1 ≤ sl.length) :
    2 ^ (8 * sl.length - 1) ≤ unsignedOf sl ↔ ∃ b ∈ sl.head?, 128 ≤ b.toNat := by
  cases sl with
  | nil => cases h
  | cons b sl =>
    have half : 2 ^ (8 * (b :: sl).length - 1) = 128 * 2 ^ (8 * sl.length) := by
      rw [List.length_cons, show 8 * (sl.length + 1) - 1 = 7 + 8 * sl.length by omega, pow_add]
      rfl
    have first : unsignedOf (b :: sl) / 2 ^ (8 * sl.length) = b.toNat := by
      rw [unsignedOf_cons, Nat.mul_add_div (by positivity), Nat.div_eq_of_lt (unsignedOf_lt sl), add_zero]
    rw [half, ← Nat.le_div_iff_mul_le (by positivity), first]
    simp

/-- Settles O37: `signedOf` is `sext` of the unsigned value, whose sign bit is bit 7 of the first byte. -/
theorem toIntReadsTwosComplement : Obligations.ToIntReadsTwosComplement := fun a sl z s some_byte fits => by
  have reply {y : Bytes} {o w : Option Int} (slice : sliceOf y o w = some sl) :
      exec (.toInt y o w) s = .next (s.withReply .ok (.integer (signedOf sl))) :=
    (exec_toInt y o w s).trans (integerReply_of_fits _ s slice some_byte fits)
  obtain ⟨low, high, sign⟩ := sext_range_and_sign (by omega) (unsignedOf_lt sl)
  refine ⟨signedOf sl, low, high, ?_, sign.trans (half_le_unsignedOf_iff some_byte),
    reply (sliceOf_offset_width a sl z), reply (sliceOf_offset a sl), reply (sliceOf_width sl z),
    reply (sliceOf_whole sl)⟩
  rw [← unsignedOf_eq_ofDigits]
  exact sext_emod (unsignedOf_lt sl)

/-! ## The text -/

/-- The character by the printable range (R130, R131). -/
theorem textChar_eq (sub : Bool) (b : Byte) : textChar sub b =
    if 0x20 ≤ b.toNat ∧ b.toNat ≤ 0x7E then .ascii b else if sub = true then .ascii 0x2E#8 else .codePage b := by
  have range : nonPrintable b = true ↔ ¬(0x20 ≤ b.toNat ∧ b.toNat ≤ 0x7E) := by
    rw [nonPrintable, Bool.or_eq_true, decide_eq_true_eq, decide_eq_true_eq]
    omega
  by_cases printable : 0x20 ≤ b.toNat ∧ b.toNat ≤ 0x7E
  · rw [textChar, if_neg (range.not.2 (not_not.2 printable)), if_pos printable]
  · rw [textChar, if_pos (range.2 printable), if_neg printable]

/-- Settles O38: the text is the slice's characters, each as `textChar_eq` has it. -/
theorem toTextMapsEveryByte : Obligations.ToTextMapsEveryByte := fun a sl z sub s => by
  simp only [← textChar_eq, exec_toText]
  exact ⟨execToText_of_slice (sliceOf_offset_width a sl z) sub s, execToText_of_slice (sliceOf_offset a sl) sub s,
    execToText_of_slice (sliceOf_width sl z) sub s, execToText_of_slice (sliceOf_whole sl) sub s⟩

/-! ## Refusals and codes -/

/-- `res_ok` (R38). -/
theorem resOk_eq_true_iff (st : Status) (v : Value) : resOk ⟨st, v⟩ = true ↔ st = .ok := by
  cases st <;> simp [resOk, statusCode]

theorem faultCause_of_none {s : State} (h : s.fault = none) : faultCause s = 0 := by
  rw [faultCause, h]

theorem faultCause_of_some {s : State} {f : FaultName} (h : s.fault = some f) : faultCause s = faultCode f := by
  rw [faultCause, h]

/-- Settles O39: each answer of the helpers on the slices that have it; the codes are evaluated. -/
theorem helpersRefuseBadSlices : Obligations.HelpersRefuseBadSlices := by
  refine ⟨fun y o w sub s bad => ?_, fun a sl z s wide => ?_, fun a z s => ?_,
    ⟨rfl, rfl, rfl, fun _ => rfl, rfl, fun _ => rfl, rfl⟩, resOk_eq_true_iff, fun s =>
    ⟨faultCause_of_none, fun _ => faultCause_of_some, faultCause_of_some, faultCause_of_some⟩⟩
  · have outside := sliceOf_eq_none_iff.2 bad
    simp only [exec_toUint, exec_toInt, exec_toText]
    exact ⟨integerReply_of_outside _ s outside, integerReply_of_outside _ s outside,
      execToText_of_outside outside sub s⟩
  · have both read := integerReply_of_wide read s (sliceOf_offset_width a sl z) wide
    have offset read := integerReply_of_wide read s (sliceOf_offset a sl) wide
    have width read := integerReply_of_wide read s (sliceOf_width sl z) wide
    have whole read := integerReply_of_wide read s (sliceOf_whole sl) wide
    simp only [exec_toUint, exec_toInt]
    exact ⟨both _, offset _, width _, whole _, both _, offset _, width _, whole _⟩
  · have both read := integerReply_of_empty read s (by simpa using sliceOf_offset_width a [] z)
    have offset read := integerReply_of_empty read s (by simpa using sliceOf_offset a [])
    have width read := integerReply_of_empty read s (sliceOf_width [] z)
    have whole read := integerReply_of_empty read s (sliceOf_whole [])
    simp only [exec_toUint, exec_toInt]
    exact ⟨both _, offset _, width _, whole _, both _, offset _, width _, whole _⟩

end Sys2Proof.Machine
end

section
/-! PROOF, `EXTRACT` (45_arbiter.md R142, R155): one lemma for each thing a pass finds in the bytes it scans. -/

namespace Sys2Proof.Machine

/-- The state a pass of `EXTRACT` leaves, whichever way it ended. -/
def Pass.state : Pass → State
  | .left t => t
  | .emitted t => t
  | .faulted t => t

/-- Outside the callback `EXTRACT` by itself is one pass (R142, R152), log 18. -/
theorem exec_extract_of_pass {s : State} {p : Pass} (out : s.inCb = false) (pass : extractPass s = p) :
    exec .extract s = .next p.state := by
  subst pass
  simp only [exec, execExtract, out, Bool.false_eq_true, if_false]
  cases extractPass s <;> rfl

/-- In the callback `EXTRACT` stands still (R152). -/
theorem exec_extract_of_inCb {s : State} (inCb : s.inCb = true) : exec .extract s = .next s := by
  simp [exec, execExtract, inCb]

/-- Anything fits a buffer without a bound. -/
theorem fits_of_unbounded {cap : Option Nat} (unbounded : cap = none) (n : Nat) : ∀ c, cap = some c → n ≤ c :=
  fun _ bounded => nomatch unbounded.symm.trans bounded

/-- What fits is not over the capacity. -/
theorem overCap_eq_false {cap : Option Nat} {n : Nat} (fits : ∀ c, cap = some c → n ≤ c) : overCap cap n = false := by
  cases cap with
  | none => rfl
  | some c => simpa using fits c rfl

theorem overCap_eq_true {cap : Option Nat} {n c : Nat} (bounded : cap = some c) (exceeds : c < n) :
    overCap cap n = true := by
  simpa [bounded] using exceeds

section pass

variable {s : State} {a m r : Bytes}

/-- Bytes without an `STX` are kept where they fit (R142, R145). -/
theorem extractPass_of_kept (noStx : Config.stx ∉ scanned s)
    (fits : ∀ c, s.par.rxBufCap = some c → (scanned s).length ≤ c) :
    extractPass s = .left { s with rxBuf := scanned s, data := [] } := by
  simp [extractPass, cut_noStx _ noStx, keepJunk, overCap_eq_false fits, State.withRxBuf]

/-- Bytes without an `STX` are dropped where they do not fit (R145), log 12. -/
theorem extractPass_of_dropped {c : Nat} (noStx : Config.stx ∉ scanned s) (bounded : s.par.rxBufCap = some c)
    (exceeds : c < (scanned s).length) : extractPass s = .left { s with rxBuf := [], data := [] } := by
  simp [extractPass, cut_noStx _ noStx, keepJunk, overCap_eq_true bounded exceeds, State.withRxBuf]

/-- An `STX`, no `ETX` after it, and room for what there is of the frame (R142, R145). -/
theorem extractPass_of_unfinished (found : scanned s = a ++ Config.stx :: m) (first : Config.stx ∉ a)
    (noEtx : Config.etx ∉ m) (fits : ∀ c, s.par.rxBufCap = some c → m.length + 1 ≤ c) :
    extractPass s = .left { s with rxBuf := Config.stx :: m, data := [] } := by
  simp [extractPass, found, cut_unfinished _ first noEtx, overCap_eq_false fits, State.withRxBuf]

/-- A candidate the buffer has room for: it is cut out and emitted (R142, R152). -/
theorem extractPass_of_frame (found : scanned s = a ++ Config.stx :: m ++ Config.etx :: r) (first : Config.stx ∉ a)
    (noEtx : Config.etx ∉ m) (fits : ∀ c, s.par.rxBufCap = some c → m.length + 2 ≤ c) :
    extractPass s = .emitted { s with
      rxBuf := keepCap s.par.rxBufCap r, data := beyondCap s.par.rxBufCap r, inCb := true, evtPut := 0,
      evt := some (Config.stx :: m ++ [Config.etx]), emits := s.emits ++ [Config.stx :: m ++ [Config.etx]],
      got := if s.cb = some .linkRx then
        s.got ++ (decodeFrame s.par.crcInit (Config.stx :: m ++ [Config.etx])).toList else s.got } := by
  rw [List.append_assoc, List.cons_append] at found
  simp [extractPass, found, cut_frame _ r first noEtx, overCap_eq_false fits, emitFrame_eq, State.withScanned]

/-- A candidate in a buffer without a bound, which holds all that is behind it. -/
theorem extractPass_of_frame_unbounded (found : scanned s = a ++ Config.stx :: m ++ Config.etx :: r)
    (first : Config.stx ∉ a) (noEtx : Config.etx ∉ m) (unbounded : s.par.rxBufCap = none) :
    extractPass s = .emitted { s with
      rxBuf := r, data := [], inCb := true, evtPut := 0,
      evt := some (Config.stx :: m ++ [Config.etx]), emits := s.emits ++ [Config.stx :: m ++ [Config.etx]],
      got := if s.cb = some .linkRx then
        s.got ++ (decodeFrame s.par.crcInit (Config.stx :: m ++ [Config.etx])).toList else s.got } := by
  have pass := extractPass_of_frame found first noEtx (fits_of_unbounded unbounded _)
  rw [unbounded] at pass
  exact pass

/-- A frame that outgrows a bounded buffer, its `ETX` counted: no `ETX` among the bytes the buffer has room for behind the
`STX`, and more bytes than it holds (R155), log 12. -/
theorem extractPass_of_overflow {c : Nat} (found : scanned s = a ++ Config.stx :: m) (first : Config.stx ∉ a)
    (bounded : s.par.rxBufCap = some c) (noEtx : Config.etx ∉ m.take (c - 1)) (exceeds : c < m.length + 1) :
    extractPass s = .faulted { s with
      rxBuf := (Config.stx :: m).take c, data := [], fault := s.fault.or (some .rxOverflow), run := .faulted,
      ended := true } := by
  rcases etx_split m with noEtx' | ⟨m, r, rfl, noEtx'⟩
  · simp [extractPass, found, cut_unfinished _ first noEtx', bounded, exceeds, State.withRxBuf, raiseFault]
  · have late : c < m.length + 2 := by
      by_contra early
      refine noEtx ?_
      rw [List.take_append, List.take_cons (by omega)]
      simp
    simp [extractPass, found, cut_frame _ r first noEtx', bounded, late, State.withRxBuf, raiseFault]

end pass

/-- Settles O43: the pass of each of the three cases, for a buffer without a bound. -/
theorem extractCutsTheFirstCandidate : Obligations.ExtractCutsTheFirstCandidate := by
  refine ⟨fun s => exec_extract_of_inCb, fun s out unbounded => ?_⟩
  have fits := fits_of_unbounded unbounded
  refine ⟨fun noStx => ?_, fun a m found first noEtx => ?_, fun a m r found first noEtx => ?_⟩
  · exact exec_extract_of_pass out (extractPass_of_kept noStx (fits _))
  · exact exec_extract_of_pass out (extractPass_of_unfinished found first noEtx (fits _))
  · exact exec_extract_of_pass out (extractPass_of_frame_unbounded found first noEtx unbounded)

/-- Settles O44: a frame over the capacity is the overflow's pass, with its `ETX` or without; within the capacity the cases
are those of an unbounded buffer. -/
theorem overlongFrameRaisesRxOverflow : Obligations.OverlongFrameRaisesRxOverflow := by
  intro s c out bounded
  have fits : ∀ {n}, n ≤ c → ∀ c', s.par.rxBufCap = some c' → n ≤ c' := fun {n} le c' bounded' => by
    cases bounded.symm.trans bounded'
    exact le
  refine ⟨fun a m found first noEtx exceeds => ?_, fun a m found first noEtx le => ?_,
    fun a m r found first noEtx exceeds => ?_, fun a m r found first noEtx le => ?_, fun noStx => ?_⟩
  · exact exec_extract_of_pass out
      (extractPass_of_overflow found first bounded (fun h => noEtx (List.mem_of_mem_take h)) exceeds)
  · exact exec_extract_of_pass out (extractPass_of_unfinished found first noEtx (fits le))
  · rw [List.append_assoc, List.cons_append] at found
    refine exec_extract_of_pass out (extractPass_of_overflow found first bounded ?_ ?_)
    · rw [List.take_append_of_le_length (by omega)]
      exact fun h => noEtx (List.mem_of_mem_take h)
    · simp only [List.length_append, List.length_cons]
      omega
  · have pass := extractPass_of_frame found first noEtx (fits le)
    rw [bounded] at pass
    exact exec_extract_of_pass out pass
  · split
    case isTrue le => exact exec_extract_of_pass out (extractPass_of_kept noStx (fits le))
    case isFalse exceeds =>
      exact exec_extract_of_pass out (extractPass_of_dropped noStx bounded (Nat.lt_of_not_le exceeds))

end Sys2Proof.Machine
end

section
/-! PROOF, the worker's turn, phase by phase (45_arbiter.md R138 to R144), and the iteration of `POLL`. -/

namespace Sys2Proof.Machine

section phases

variable {s t : State} {rest : List Input}

/-- At `tick` a ready worker goes through the phase it stands in (R138), log 1. -/
theorem step_of_workerPhase (tick : s.inputs = .tick :: rest) (ready : workerReady s = true)
    (turn : workerPhase (s.withInputs rest) = t) : step s = .next t := by
  rw [step_tick tick, internalMove_of_ready (s := s.withInputs rest) ready, turn]

/-- Phase `CHECK` with the stop signal set (R139). -/
theorem workerPhase_of_stop (phase : s.phase = .check) (stop : s.stop = true) :
    workerPhase s = { s with ended := true } := by
  simpa [workerPhase, phase, stop] using phaseCheck_cases s

/-- Phase `CHECK` reads the count, and the count selects the phase (R139). -/
theorem workerPhase_of_count (phase : s.phase = .check) (stop : s.stop = false) (usable : transportUsable s = true)
    (works : s.tr.fails.avail = false) : workerPhase s = { s with
      avail := s.tr.inb.length, rxRead := false, phase := if 0 < s.tr.inb.length then .rx else .tx } := by
  simpa [workerPhase, phase, stop, usable, works] using phaseCheck_cases s

/-- Phase `TX` with nothing to send (R143). -/
theorem workerPhase_of_empty_queue (phase : s.phase = .tx) (empty : s.txq = []) :
    workerPhase s = { s with phase := .sleep } := by
  simpa [workerPhase, phase, empty] using phaseTx_cases s

/-- Phase `TX` writes the head entry, whole (R143). -/
theorem workerPhase_of_write {e : Bytes} {q : List Bytes} (phase : s.phase = .tx) (head : s.txq = e :: q)
    (usable : transportUsable s = true) (works : s.tr.fails.write = none) : workerPhase s = { s with
      txq := q, tr := { s.tr with outb := s.tr.outb ++ e }, phase := .sleep } := by
  simpa [workerPhase, phase, head, usable, works] using phaseTx_cases s

/-- After `SLEEP` comes `CHECK` (R144). -/
theorem workerPhase_of_sleep (phase : s.phase = .sleep) : workerPhase s = { s with phase := .check } := by
  simp [workerPhase, phase, phaseSleep, State.withPhase]

/-- Phase `RX` runs `EXTRACT` on what was left to scan and, where the read is not done yet, the bytes counted (R141, R193).
How a bounded buffer holds them is of no account to `EXTRACT`. -/
theorem workerPhase_of_rx (phase : s.phase = .rx)
    (works : s.rxRead = false → transportUsable s = true ∧ s.tr.fails.read = none) :
    ∃ b d, b ++ d = s.rxBuf ++ s.data ++ (if s.rxRead = true then [] else s.tr.inb.take s.avail)
      ∧ workerPhase s = extractInRx { s with
        rxBuf := b, data := d, rxRead := true,
        tr := { s.tr with inb := if s.rxRead = true then s.tr.inb else s.tr.inb.drop s.avail } } := by
  have turn : workerPhase s = phaseRx s := by simp [workerPhase, phase]
  cases read : s.rxRead
  case true =>
    refine ⟨s.rxBuf, s.data, by simp, ?_⟩
    rw [turn, phaseRx, if_pos read]
    simp [← read]
  case false =>
    obtain ⟨usable, reads⟩ := works read
    refine ⟨_, _, keepCap_append_beyondCap s.par.rxBufCap _, ?_⟩
    simpa [turn, read, usable, reads, State.withScanned, scanned] using phaseRx_cases s

/-- When `EXTRACT` has run to its end phase `RX` is over (R138). -/
theorem extractInRx_of_left (pass : extractPass s = .left t) :
    extractInRx s = { t with phase := .sleep, rxRead := false } := by
  simp [extractInRx, pass]

/-- At an emit the callback holds phase `RX` (R152). -/
theorem extractInRx_of_emitted (pass : extractPass s = .emitted t) : extractInRx s = t := by
  simp [extractInRx, pass]

theorem extractInRx_of_faulted (pass : extractPass s = .faulted t) : extractInRx s = t := by
  simp [extractInRx, pass]

end phases

/-- Settles O45: the two outcomes of phase `CHECK` whose primitives work. -/
theorem checkSamplesStopThenTheCount : Obligations.CheckSamplesStopThenTheCount := by
  intro s rest tick ready phase
  refine ⟨fun stop => ?_, fun stop bound isOpen works => ?_⟩
  · exact step_of_workerPhase tick ready (workerPhase_of_stop (s := s.withInputs rest) phase stop)
  · exact step_of_workerPhase tick ready
      (workerPhase_of_count (s := s.withInputs rest) phase stop ((transportUsable_iff _).2 ⟨bound, isOpen⟩) works)

/-- Settles O47: phase `TX` without and with an entry, and phase `SLEEP`. -/
theorem txWritesOneWholeEntry : Obligations.TxWritesOneWholeEntry := by
  intro s rest tick ready
  refine ⟨fun phase empty => ?_, fun e q phase head bound isOpen works => ?_, fun phase => ?_⟩
  · exact step_of_workerPhase tick ready (workerPhase_of_empty_queue (s := s.withInputs rest) phase empty)
  · exact step_of_workerPhase tick ready
      (workerPhase_of_write (s := s.withInputs rest) phase head ((transportUsable_iff _).2 ⟨bound, isOpen⟩) works)
  · exact step_of_workerPhase tick ready (workerPhase_of_sleep (s := s.withInputs rest) phase)

/-- Settles O46: after the read the phase is one pass of `EXTRACT` on the bytes of `buf`, in each of its cases. -/
theorem rxDrainsTheCountedBytes : Obligations.RxDrainsTheCountedBytes := by
  intro s rest tick ready phase works buf read fits
  have usable : s.rxRead = false → transportUsable s = true ∧ s.tr.fails.read = none := fun unread => by
    obtain ⟨bound, isOpen, reads⟩ := works unread
    exact ⟨(transportUsable_iff s).2 ⟨bound, isOpen⟩, reads⟩
  obtain ⟨b, d, scan, turn⟩ := workerPhase_of_rx (s := s.withInputs rest) phase usable
  have steps {t} (pass : extractInRx { read with rxBuf := b, data := d } = t) : step s = .next t :=
    step_of_workerPhase tick ready (turn.trans pass)
  replace scan : scanned { read with rxBuf := b, data := d } = buf := scan
  refine ⟨fun noStx => ⟨fun le => ?_, fun exceeds => ?_⟩, fun a m found first noEtx le => ?_,
    fun a m r found first noEtx le => ?_, fun c bounded a m found first ⟨noEtx, exceeds⟩ => ?_⟩
  · rw [← scan] at noStx le
    have pass := extractInRx_of_left (extractPass_of_kept noStx le)
    rw [scan] at pass
    exact steps pass
  · obtain ⟨c, bounded, exceeds⟩ : ∃ c, s.par.rxBufCap = some c ∧ c < buf.length := by simpa [fits] using exceeds
    rw [← scan] at noStx exceeds
    exact steps (extractInRx_of_left (extractPass_of_dropped noStx bounded exceeds))
  · exact steps (extractInRx_of_left (extractPass_of_unfinished (scan.trans found) first noEtx le))
  · exact ⟨keepCap s.par.rxBufCap r, beyondCap s.par.rxBufCap r, keepCap_append_beyondCap _ _,
      fun c bounded => length_keepCap_le bounded r, cap_of_beyondCap_ne_nil,
      steps (extractInRx_of_emitted (extractPass_of_frame (scan.trans found) first noEtx le))⟩
  · exact steps (extractInRx_of_faulted (extractPass_of_overflow (scan.trans found) first bounded noEtx exceeds))

section poll

variable {s t u : State} {n : Nat}

/-- The iteration goes on to the next phase (R138). -/
theorem iterationFrom_of_goes_on (turn : workerPhase s = t) (ready : workerReady t = true) (more : t.phase ≠ .check) :
    iterationFrom (n + 1) s = iterationFrom n t := by
  simp [iterationFrom, turn, ready, more]

/-- The iteration is over, at `CHECK` or where the worker cannot go on (R138, R152). -/
theorem iterationFrom_of_stops (turn : workerPhase s = t) (stops : workerReady t = false ∨ t.phase = .check) :
    iterationFrom (n + 1) s = t := by
  rcases stops with stops | stops <;> simp [iterationFrom, turn, stops]

/-- An iteration by way of phase `t.phase`, after which the worker sleeps, ends in `CHECK`. -/
theorem iterationFrom_of_sleeps (check : workerPhase s = t) (ready : workerReady t = true) (more : t.phase ≠ .check)
    (turn : workerPhase t = { u with phase := .sleep }) (ready' : workerReady u = true) (phase : u.phase = .check) :
    iterationFrom 3 s = u := by
  have slept : workerPhase { u with phase := .sleep } = u := by
    rw [workerPhase_of_sleep rfl, ← phase]
  rw [iterationFrom_of_goes_on check ready more, iterationFrom_of_goes_on turn ready' nofun,
    iterationFrom_of_stops slept (.inr phase)]

/-- `POLL` without a live worker, or in the callback (R151, R152). -/
theorem exec_poll_of_not_ready (idle : workerReady s = false) : exec .poll s = .next s := by
  simp [exec, execPoll, idle]

/-- `POLL` is one iteration (R138). -/
theorem exec_poll_of_ready (ready : workerReady s = true) (run : iterationFrom 3 s = t) : exec .poll s = .next t := by
  simp [exec, execPoll, ready, run]

/-- Where `EXTRACT` stands in an iteration that has read all of `T.in` (R141), with `b` and `d` to be scanned. -/
def afterRead (s : State) (b d : Bytes) : State := { s with
  avail := s.tr.inb.length, phase := .rx, rxRead := true, rxBuf := b, data := d, tr := { s.tr with inb := [] } }

/-- `POLL` with bytes in `T.in` is one pass of `EXTRACT` on them and what was left to scan: when the phase is over the
iteration ends in `CHECK`, and where the worker cannot go on it ends there (R138, R141, R152). -/
theorem exec_poll_of_bytes (ready : workerReady s = true) (phase : s.phase = .check) (stop : s.stop = false)
    (usable : transportUsable s = true) (counts : s.tr.fails.avail = false) (reads : s.tr.fails.read = none)
    (bytes : s.tr.inb ≠ []) : ∃ b d, b ++ d = s.rxBuf ++ s.data ++ s.tr.inb
      ∧ (∀ u, extractInRx (afterRead s b d) = { u with phase := .sleep } → workerReady u = true →
        u.phase = .check → exec .poll s = .next u)
      ∧ ∀ u, extractInRx (afterRead s b d) = u → workerReady u = false → exec .poll s = .next u := by
  have check := workerPhase_of_count phase stop usable counts
  rw [if_pos (List.length_pos_of_ne_nil bytes)] at check
  obtain ⟨b, d, scan, turn⟩ := workerPhase_of_rx (s := { s with
    avail := s.tr.inb.length, rxRead := false, phase := .rx }) rfl fun _ => ⟨usable, reads⟩
  simp only [Bool.false_eq_true, if_false, List.take_length, List.drop_length] at scan turn
  refine ⟨b, d, scan, fun u slept ready' phase' => ?_, fun u stopped stops => ?_⟩
  · exact exec_poll_of_ready ready (iterationFrom_of_sleeps check ready nofun (turn.trans slept) ready' phase')
  · exact exec_poll_of_ready ready ((iterationFrom_of_goes_on check ready nofun).trans
      (iterationFrom_of_stops (turn.trans stopped) (.inl stops)))

end poll

/-- Settles O49: the iteration goes from `CHECK` through `TX` or `RX` to `SLEEP` and back to `CHECK`, unless the stop signal
or an emit ends it before. -/
theorem pollPerformsOneIteration : Obligations.PollPerformsOneIteration := by
  refine ⟨fun s => ?_, fun s => exec_poll_of_not_ready, fun s ready phase =>
    ⟨fun stop => ?_, fun stop bound isOpen counts => ?_⟩⟩
  · cases ready : workerReady s
    case false => exact ⟨s, exec_poll_of_not_ready ready⟩
    case true => exact ⟨_, exec_poll_of_ready ready rfl⟩
  · exact exec_poll_of_ready ready
      (iterationFrom_of_stops (workerPhase_of_stop phase stop) (.inl (by simp [workerReady])))
  · have usable : transportUsable s = true := (transportUsable_iff s).2 ⟨bound, isOpen⟩
    have check := workerPhase_of_count phase stop usable counts
    refine ⟨fun noBytes empty => ?_, fun e q noBytes head writes => ?_, fun bytes reads unbounded => ?_⟩
    · simp only [noBytes, List.length_nil, lt_irrefl, if_false] at check
      exact exec_poll_of_ready ready (iterationFrom_of_sleeps check ready nofun
        (workerPhase_of_empty_queue rfl empty) ready phase)
    · simp only [noBytes, List.length_nil, lt_irrefl, if_false] at check
      exact exec_poll_of_ready ready (iterationFrom_of_sleeps check ready nofun
        (workerPhase_of_write rfl head usable writes) ready phase)
    · obtain ⟨b, d, scan, ends, stands⟩ := exec_poll_of_bytes ready phase stop usable counts reads bytes
      replace scan : scanned (afterRead s b d) = s.rxBuf ++ s.data ++ s.tr.inb := scan
      have fits := fits_of_unbounded unbounded
      refine ⟨fun noStx => ?_, fun a m found first noEtx => ?_, fun a m r found first noEtx => ?_⟩
      · rw [← scan] at noStx ⊢
        have pass := extractInRx_of_left (extractPass_of_kept noStx (fits _))
        exact ends _ pass ready phase
      · have pass := extractInRx_of_left (extractPass_of_unfinished (scan.trans found) first noEtx (fits _))
        exact ends _ pass ready phase
      · exact stands _ (extractInRx_of_emitted (extractPass_of_frame_unbounded (scan.trans found) first noEtx unbounded))
          (by simp [workerReady])

end Sys2Proof.Machine
end

section
/-! PROOF, the commands `OPEN` and `SEND` (45_arbiter.md R136, R137). -/

namespace Sys2Proof.Machine

section commands

variable {s : State} {m : Bytes} {cb : Callback}

theorem exec_openT (cb : Callback) (s : State) : exec (.openT cb) s = execOpenT cb s := rfl

/-- The move `openReturn` ends a call of `OPEN` (R209), log 30. -/
theorem step_openReturn {rest : List Input} (head : s.inputs = .openReturn :: rest) :
    step s = .next (openReturn (s.withInputs rest)) := by
  simp [step, fetch, head, fetchInput]

/-- A call of `OPEN` that has taken effect returns (R209). -/
theorem openReturn_of_opening (opening : s.opening = true) :
    openReturn s = { s with opening := false, resPut := 0, res := some ⟨.ok, .nothing⟩ } := by
  simpa [opening] using openReturn_cases s

theorem openReturn_of_none (none : s.opening = false) : openReturn s = s := by
  simpa [none] using openReturn_cases s

/-- `OPEN` of a block not yet opened (R136). -/
theorem execOpenT_of_unopened (run : s.run = .unopened) : execOpenT cb s = .next { s with
    tBound := true, cb := some cb, rxBuf := [], txq := [], stop := false, inCb := false, fault := none, evt := none,
    evtPut := 0, phase := .check, avail := 0, rxRead := false, data := [], ended := false, closing := false,
    opening := s.lateOpen, run := .running, resPut := 0,
    res := if s.lateOpen = true then none else some ⟨.ok, .nothing⟩ } := by
  simpa [run] using execOpenT_cases cb s

/-- `OPEN` of a block opened before (R136). -/
theorem execOpenT_of_opened (run : s.run ≠ .unopened) : execOpenT cb s
    = .next { s with resPut := 0, res := some ⟨.transportError .alreadyOpened, .nothing⟩ } := by
  simpa [run] using execOpenT_cases cb s

theorem exec_send (m : Bytes) (s : State) : exec (.send m) s = .next (sendBytes m s) := rfl

/-- `SEND` on a block that does not run (R137). -/
theorem sendBytes_of_not_running (run : s.run ≠ .running) :
    sendBytes m s = { s with resPut := 0, res := some ⟨.transportError .notRunning, .nothing⟩ } := by
  simpa [run] using sendBytes_cases m s

/-- `SEND` on a full queue (R137). -/
theorem sendBytes_of_full (run : s.run = .running) (full : s.par.txqCap = some s.txq.length) :
    sendBytes m s = { s with resPut := 0, res := some ⟨.txQueueFull, .nothing⟩ } := by
  simpa [run, full] using sendBytes_cases m s

/-- `SEND` with room in the queue (R137). -/
theorem sendBytes_of_room (run : s.run = .running) (room : s.par.txqCap ≠ some s.txq.length) :
    sendBytes m s = { s with txq := s.txq ++ [m], resPut := 0, res := some ⟨.ok, .nothing⟩ } := by
  simpa [run, room] using sendBytes_cases m s

end commands

/-- Settles O40: `OPEN` by the life cycle and the draw `lateOpen`, and the move that ends a call. -/
theorem openStartsTheWorker : Obligations.OpenStartsTheWorker := by
  intro cb s opened
  refine ⟨fun run late => ?_, fun run late => ?_, fun run => ?_,
    fun rest head => ⟨fun opening => ?_, fun opening => ?_⟩⟩
  · simp [exec_openT, execOpenT_of_unopened run, late, opened]
  · simp [exec_openT, execOpenT_of_unopened run, late, opened]
  · exact execOpenT_of_opened run
  · rw [step_openReturn head, openReturn_of_opening (by exact opening)]
    rfl
  · rw [step_openReturn head, openReturn_of_none (by exact opening)]
    rfl

/-- Settles O41: `SEND` by the life cycle, then by the room in the queue. -/
theorem sendEnqueuesOrReturnsItsError : Obligations.SendEnqueuesOrReturnsItsError := fun m _ =>
  ⟨⟨m, rfl⟩, fun run => congrArg Host.Outcome.next (sendBytes_of_not_running run),
    fun run full => congrArg Host.Outcome.next (sendBytes_of_full run full),
    fun run room => congrArg Host.Outcome.next (sendBytes_of_room run room)⟩

end Sys2Proof.Machine
end

section
/-! PROOF, the callback that holds the worker (45_arbiter.md R152, 60_exceptions.md R187, R193, R215). -/

namespace Sys2Proof.Machine

open Sys2Proof.Safety

section callback

variable {s : State} {rest : List Input}

theorem step_cbReturn (head : s.inputs = .cbReturn :: rest) :
    step s = .next (callbackReturn (s.withInputs rest)) := by
  simp [step, fetch, head, fetchInput]

theorem step_cbError (head : s.inputs = .cbError :: rest) :
    step s = .next (callbackError (s.withInputs rest)) := by
  simp [step, fetch, head, fetchInput]

/-- The return of a running callback (R193). -/
theorem callbackReturn_of_inCb (inCb : s.inCb = true) :
    callbackReturn s = { s with inCb := false, evtPut := 0, evt := none } := by
  simp [callbackReturn, inCb]

/-- Host code in the callback holds the worker (R152). -/
theorem internalMove_of_host (host : hostInCallback s = true) : internalMove s = s := by
  simp [internalMove, inCb_of_hostInCallback host, host]

/-- A `LINK.RX` that runs no host code returns at the worker's turn (R162). -/
theorem internalMove_of_dropped (inCb : s.inCb = true) (dropped : hostInCallback s = false) :
    internalMove s = { s with inCb := false, evtPut := 0, evt := none } := by
  simp [internalMove, inCb, dropped, callbackReturn]

/-- A callback that never returns hangs the block (R215). -/
theorem defaultMove_of_hangs (host : hostInCallback s = true) (hangs : s.hangs = true) : defaultMove s = s := by
  simp [defaultMove, hangs, internalMove_of_host host]

/-- Where no host code runs the block makes its own move, whatever `hangs` is (R162), log 1. -/
theorem defaultMove_of_dropped (dropped : hostInCallback s = false) : defaultMove s = internalMove s := by
  simp [defaultMove, dropped]

/-- The first error of host code in the callback (R187, U4). -/
theorem callbackError_of_host (host : hostInCallback s = true) (clean : s.fault = none) : callbackError s = { s with
    inCb := false, evtPut := 0, evt := none, data := [], fault := some .callbackFault, run := .faulted,
    ended := true } := by
  rw [callbackError, if_pos host, callbackReturn_of_inCb (inCb_of_hostInCallback host)]
  exact raiseFault_of_clean (by exact clean) _

/-- Where no host code runs there is no error (R162). -/
theorem callbackError_of_dropped (dropped : hostInCallback s = false) : callbackError s = s := by
  simp [callbackError, dropped]

end callback

/-- A state that a step leaves as it is stays so. -/
theorem run_of_fixed {s : State} (fixed : step s = .next s) (k : Nat) : Sys2Proof.core.run k s = .next s := by
  induction k with
  | zero => rfl
  | succ k ih => exact (run_succ fixed k).trans ih

/-- Settles O59: host code in the callback holds the worker, and what drops its frame returns at the next turn. -/
theorem callbackHoldsTheWorker : Obligations.CallbackHoldsTheWorker := by
  intro s rest inCb
  refine ⟨fun head => ?_, fun code => ?_, fun linkRx drops => ?_⟩
  · rw [step_cbReturn head, callbackReturn_of_inCb (by exact inCb)]
    rfl
  · have host : hostInCallback s = true := (hostInCallback_iff s).2 ⟨inCb, code⟩
    refine ⟨fun head => ?_, fun head clean => ?_, fun idle hangs => ?_, fun idle returns => ?_⟩
    · rw [step_tick head, internalMove_of_host (by exact host)]
      rfl
    · rw [step_cbError head, callbackError_of_host (by exact host) (by exact clean)]
      rfl
    · exact run_of_fixed (by rw [step_idle idle, defaultMove_of_hangs host hangs])
    · rw [step_idle idle, defaultMove_of_inCb inCb returns]
  · have dropped : hostInCallback s = false := hostInCallback_eq_false fun _ => ⟨linkRx, drops⟩
    refine ⟨fun head => ?_, fun head => ?_, fun idle => ?_⟩
    · rw [step_tick head, internalMove_of_dropped (by exact inCb) (by exact dropped)]
      rfl
    · rw [step_cbError head, callbackError_of_dropped (by exact dropped)]
      rfl
    · rw [step_idle idle, defaultMove_of_dropped dropped, internalMove_of_dropped inCb dropped]

end Sys2Proof.Machine
end

section
/-! PROOF, the loop of the phases (45_arbiter.md R138, R140): what a step other than a reset does to `phase`. -/

namespace Sys2Proof.Safety

open Sys2Proof.Machine

/-- What a step other than a reset does to `phase` (R140): nothing, or it goes on along the loop. -/
def PhaseMove (s t : State) : Prop :=
  t.phase = s.phase ∨ (s.phase = .check ∧ (t.phase = .rx ∨ t.phase = .tx))
    ∨ ((s.phase = .rx ∨ s.phase = .tx) ∧ t.phase = .sleep) ∨ (s.phase = .sleep ∧ t.phase = .check)

section loop

variable {s t u : State}

/-- Before `OPEN` the phase is `CHECK` (R136, R206). -/
theorem LinkInv.phase_of_unopened (h : LinkInv s) (run : s.run = .unopened) : s.phase = .check := by
  obtain ⟨-, ⟨unopened, -⟩, -⟩ := h
  obtain ⟨-, -, phase, -⟩ := unopened run
  exact phase

/-- The end of a `CLOSE` (R150). -/
theorem closeFinish_phase (s : State) : (closeFinish s).phase = s.phase := by
  rcases closeFinish_cases s with ⟨-, e⟩ | ⟨-, e⟩ <;> rw [e]

/-- No command moves the phase: `OPEN` finds it in `CHECK` (R136, R137, R150). -/
theorem commanded_phase (h : LinkInv u) (ht : Commanded u t) : t.phase = u.phase := by
  rcases ht with ⟨_, _, _, _, _, _, _, _, rfl, -⟩ | ⟨cb, ht⟩ | ⟨m, rfl⟩ | ht
  · rfl
  · rcases execOpenT_cases cb u with ⟨-, e⟩ | ⟨run, e⟩ <;> cases e.symm.trans ht
    · rfl
    · exact (h.phase_of_unopened run).symm
  · rcases sendBytes_cases m u with ⟨-, e⟩ | ⟨-, -, e⟩ | ⟨-, -, e⟩ <;> rw [e]
  · rcases execClose_cases u with ⟨-, e⟩ | ⟨-, -, -, e⟩ | ⟨-, -, -, -, -, e⟩ | ⟨-, -, -, -, e⟩ <;> cases e.symm.trans ht
    · rfl
    · exact closeFinish_phase { u with stop := true }
    · rfl

/-- Phase `CHECK` ends the worker where it stands, or selects `RX` or `TX` (R139). -/
theorem phaseCheck_phase (s : State) :
    (phaseCheck s).phase = s.phase ∨ (phaseCheck s).phase = .rx ∨ (phaseCheck s).phase = .tx := by
  rcases phaseCheck_cases s with ⟨-, e⟩ | ⟨-, -, e⟩ | ⟨-, -, -, e⟩ <;> rw [e]
  · exact .inl rfl
  · exact .inl rfl
  · split <;> simp

/-- A pass of `EXTRACT` leaves phase `RX` for `SLEEP`, or holds it at an emit or a fault (R142, R155). -/
theorem extractInRx_phase (s : State) : (extractInRx s).phase = s.phase ∨ (extractInRx s).phase = .sleep := by
  unfold extractInRx
  rcases extractPass_cases s with ⟨-, e⟩ | ⟨a, m, -, -, -, -, e⟩ | ⟨a, m, r, -, -, -, -, e⟩ | ⟨a, m, -, -, -, e⟩ <;>
    rw [e]
  · exact .inr rfl
  · exact .inr rfl
  · rw [emitFrame_eq]
    exact .inl rfl
  · exact .inl rfl

/-- Phase `RX` (R141). -/
theorem phaseRx_phase (s : State) : (phaseRx s).phase = s.phase ∨ (phaseRx s).phase = .sleep := by
  rcases phaseRx_cases s with ⟨-, e⟩ | ⟨-, -, -, e⟩ | ⟨k, -, -, -, e⟩ | ⟨-, -, e⟩ <;> rw [e]
  · exact extractInRx_phase s
  · exact extractInRx_phase (State.withScanned _ _)
  · exact .inl rfl
  · exact .inl rfl

/-- Phase `TX` (R143). -/
theorem phaseTx_phase (s : State) : (phaseTx s).phase = s.phase ∨ (phaseTx s).phase = .sleep := by
  rcases phaseTx_cases s with ⟨-, e⟩ | ⟨e, q, -, -, -, e'⟩ | ⟨e, q, k, -, -, -, e'⟩ | ⟨e, q, -, -, e'⟩
  · exact .inr (by rw [e])
  · exact .inr (by rw [e'])
  · exact .inl (by rw [e']; rfl)
  · exact .inl (by rw [e']; rfl)

/-- The worker's next phase is the loop's (R140). -/
theorem workerPhase_phaseMove (s : State) : PhaseMove s (workerPhase s) := by
  unfold workerPhase
  split
  case h_1 phase => exact (phaseCheck_phase s).imp_right fun next => .inl ⟨phase, next⟩
  case h_2 phase => exact (phaseRx_phase s).imp_right fun next => .inr (.inl ⟨.inl phase, next⟩)
  case h_3 phase => exact (phaseTx_phase s).imp_right fun next => .inr (.inl ⟨.inr phase, next⟩)
  case h_4 phase => exact .inr (.inr (.inr ⟨phase, rfl⟩))

/-- The block's own move (R150, R152, R162). -/
theorem internalMove_phaseMove (s : State) : PhaseMove s (internalMove s) := by
  rcases internalMove_cases s with ⟨e, -⟩ | ⟨-, -, e⟩ | ⟨-, e⟩ | ⟨-, -, -, -, e⟩ <;> rw [e]
  · exact .inl rfl
  · exact .inl rfl
  · exact workerPhase_phaseMove s
  · exact .inl (closeFinish_phase s)

end loop

/-- Settles O57: only the worker's own move changes the phase, and that follows the loop. -/
theorem phasesFollowTheLoop : Obligations.PhasesFollowTheLoop := by
  intro s t h noReset hs
  rcases step_cases hs with ⟨u, edge, cmd⟩ | ⟨is, rfl⟩ | ⟨is, rfl⟩ | ⟨is, b, o, e, -, rfl⟩ | ⟨is, f, rfl⟩ |
    ⟨is, hangs, late, rfl⟩ | ⟨is, k, head, rfl⟩
  · obtain ⟨-, -, -, phase, -⟩ := edge_keeps edge
    exact .inl ((commanded_phase (h.edge edge) cmd).trans phase)
  · exact internalMove_phaseMove { s with inputs := is }
  · refine .inl ?_
    rcases callbackError_cases { s with inputs := is } with ⟨-, e⟩ | e <;> rw [e]
    rfl
  · refine .inl ?_
    unfold openMedium
    split <;> rfl
  · exact .inl rfl
  · exact .inl rfl
  · exact absurd trivial (noReset (.rst k) (by simp [head]))

end Sys2Proof.Safety
end

section
/-! PROOF, the joined block (46_link_top.md R161, R162): what its two operations do, by the packet and by the frame. -/

namespace Sys2Proof.Machine

section joined

variable {d sr p : Int} {y : Bytes} {s : State}

theorem exec_linkTx (d sr p : Int) (y : Bytes) (s : State) : exec (.linkTx d sr p y) s = execLinkTx d sr p y s := rfl

theorem exec_linkRx (f : Bytes) (s : State) : exec (.linkRx f) s = .next (linkDeliver f s) := rfl

/-- The empty sequence stands for a refusal and for no frame (R107, R161). -/
theorem encodePacket_ne_nil_of_valid (init : Byte) (valid : validatePacket d sr p y = true) :
    encodePacket init d sr p y ≠ [] := by
  rw [encodePacket_of_valid init valid]
  exact List.cons_ne_nil _ _

/-- `LINK.TX` of a valid packet queues its frame (R161). -/
theorem execLinkTx_of_valid (valid : validatePacket d sr p y = true) :
    execLinkTx d sr p y s = .next (sendBytes (encodePacket s.par.crcInit d sr p y) s) := by
  simpa [encodePacket_ne_nil_of_valid s.par.crcInit valid] using execLinkTx_cases d sr p y s

/-- `LINK.TX` of a refused packet queues nothing (R161). -/
theorem execLinkTx_of_refused (refused : validatePacket d sr p y = false) :
    execLinkTx d sr p y s = .next { s with resPut := 0, res := some ⟨.validationError, .nothing⟩ } := by
  simpa [encodePacket_of_refused s.par.crcInit refused] using execLinkTx_cases d sr p y s

/-- `LINK.RX` delivers what decodes (R162). -/
theorem linkDeliver_of_some {f : Bytes} {q : Packet} (decodes : decodeFrame s.par.crcInit f = some q) :
    linkDeliver f s = { s with got := s.got ++ [q] } := by
  simp [linkDeliver, decodes]

/-- `LINK.RX` drops what does not decode (R162). -/
theorem linkDeliver_of_none {f : Bytes} (drops : decodeFrame s.par.crcInit f = none) : linkDeliver f s = s := by
  simp [linkDeliver, drops]

end joined

/-- Settles O42: `LINK.TX` by `VALIDATE`, then as `SEND`; `LINK.RX` by what `DECODE` makes of the frame. -/
theorem joinedBlockComposes : Obligations.JoinedBlockComposes := by
  refine ⟨fun d sr p y s => ⟨fun valid => ⟨?_, fun run room => ?_⟩, fun refused => ?_⟩,
    fun f s => ⟨fun q decodes => ?_, fun drops => ?_⟩⟩
  · rw [exec_linkTx, execLinkTx_of_valid valid, exec_send]
  · rw [exec_linkTx, execLinkTx_of_valid valid, sendBytes_of_room run room]
  · rw [exec_linkTx, execLinkTx_of_refused refused]
  · rw [exec_linkRx, linkDeliver_of_some decodes]
  · rw [exec_linkRx, linkDeliver_of_none drops]

end Sys2Proof.Machine
end

section
/-! PROOF, the loop-back (46_link_top.md R163). A byte stream that carries packets, and what a pass of `EXTRACT` makes of its
first bytes; the block that serves the line with `LINK.RX` bound, and how it comes to have delivered all of them. -/

namespace Sys2Proof.Safety

open Sys2Proof.Machine

/-! ## Streams of packets -/

/-- The bytes carry the packets, in order: each packet's frame of at most 82 bytes behind bytes without an `STX`, and no
`STX` behind the last frame. -/
inductive Carries (init : Byte) : Bytes → List Packet → Prop where
  | noFrame {b : Bytes} : Config.stx ∉ b → Carries init b []
  | frame {g w r : Bytes} {p : Packet} {ps : List Packet} : Config.stx ∉ g → Config.etx ∉ w → w.length + 2 ≤ 82 →
      decodeFrame init (Config.stx :: w ++ [Config.etx]) = some p → Carries init r ps →
      Carries init (g ++ Config.stx :: (w ++ Config.etx :: r)) (p :: ps)

/-- What stands before the first of a byte, and what behind it, is determined. -/
theorem append_cons_inj_of_first {c : Byte} {a a' b b' : Bytes} (h : c ∉ a) (h' : c ∉ a')
    (same : a ++ c :: b = a' ++ c :: b') : a = a' ∧ b = b' := by
  have before := congrArg (List.takeWhile (· != c)) same
  rw [takeWhile_ne_append b h, takeWhile_ne_append b' h'] at before
  subst before
  exact ⟨rfl, List.cons_inj_right c |>.1 (List.append_cancel_left same)⟩

section carries

variable {init : Byte} {a b z : Bytes} {ps : List Packet}

/-- Where there is an `STX`, the first one begins the first packet's frame. -/
theorem carries_append_stx_iff (first : Config.stx ∉ a) : Carries init (a ++ Config.stx :: b) ps ↔
    ∃ w r p qs, b = w ++ Config.etx :: r ∧ Config.etx ∉ w ∧ w.length + 2 ≤ 82
      ∧ decodeFrame init (Config.stx :: w ++ [Config.etx]) = some p ∧ ps = p :: qs ∧ Carries init r qs := by
  constructor
  · generalize found : a ++ Config.stx :: b = bytes
    rintro (noStx | ⟨gap, noEtx, short, decodes, others⟩)
    · exact absurd (found ▸ by simp) noStx
    · obtain ⟨-, rfl⟩ := append_cons_inj_of_first first gap found
      exact ⟨_, _, _, _, rfl, noEtx, short, decodes, rfl, others⟩
  · rintro ⟨w, r, p, qs, rfl, noEtx, short, decodes, rfl, others⟩
    exact .frame first noEtx short decodes others

/-- Bytes without an `STX` carry nothing. -/
theorem Carries.eq_nil (h : Carries init b ps) (noStx : Config.stx ∉ b) : ps = [] := by
  cases h
  case noFrame => rfl
  case frame => exact absurd (by simp) noStx

/-- Bytes without an `STX` at the front are of no account (R142, R145). -/
theorem Carries.replace_front {a' : Bytes} (h : Carries init (a ++ z) ps) (ha : Config.stx ∉ a) (ha' : Config.stx ∉ a') :
    Carries init (a' ++ z) ps := by
  have clean : ∀ {x y : Bytes}, Config.stx ∉ x → Config.stx ∉ y → Config.stx ∉ x ++ y := fun hx hy => by simp [hx, hy]
  rcases stx_split z with hz | ⟨g, m, rfl, hg⟩
  · obtain rfl := h.eq_nil (clean ha hz)
    exact .noFrame (clean ha' hz)
  · rw [← List.append_assoc] at h ⊢
    exact (carries_append_stx_iff (clean ha' hg)).2 ((carries_append_stx_iff (clean ha hg)).1 h)

/-- A frame that has begun is no longer than the greatest one (R109). -/
theorem Carries.unfinished_le {m : Bytes} (h : Carries init (a ++ Config.stx :: (m ++ z)) ps) (first : Config.stx ∉ a)
    (noEtx : Config.etx ∉ m) : m.length + 2 ≤ 82 := by
  obtain ⟨w, r, p, qs, same, -, short, -⟩ := (carries_append_stx_iff first).1 h
  suffices m.length ≤ w.length by omega
  by_contra longer
  have inside := congrArg (List.take m.length) same
  rw [List.take_left, List.take_append, List.take_cons (by omega)] at inside
  exact noEtx (inside ▸ by simp)

/-- A frame that stands there whole is the first packet's (R163). -/
theorem Carries.first_frame {m r : Bytes} (h : Carries init (a ++ Config.stx :: (m ++ Config.etx :: r)) ps)
    (first : Config.stx ∉ a) (noEtx : Config.etx ∉ m) : m.length + 2 ≤ 82 ∧ ∃ p qs, ps = p :: qs
      ∧ decodeFrame init (Config.stx :: m ++ [Config.etx]) = some p ∧ Carries init r qs := by
  obtain ⟨w, r', p, qs, same, noEtx', short, decodes, rfl, others⟩ := (carries_append_stx_iff first).1 h
  obtain ⟨rfl, rfl⟩ := append_cons_inj_of_first noEtx noEtx' same
  exact ⟨short, p, qs, rfl, decodes, others⟩

/-- What `EXTRACT` leaves in `rx_buf` (R145) carries nothing by itself. -/
theorem Carries.noStx_of_settled (h : Carries init b ps) (settled : Settled b) : Config.stx ∉ b := by
  rcases settled with noStx | ⟨front, noEtx⟩
  · exact noStx
  · obtain ⟨m, rfl⟩ := List.head?_eq_some_iff.1 front
    obtain ⟨w, r, -, -, rfl, -⟩ := (carries_append_stx_iff List.not_mem_nil).1 h
    exact absurd (by simp) noEtx

end carries

/-- The frame of a valid packet, behind its gap (R60, R109, R110). -/
theorem Carries.cons_encodePacket {init : Byte} {gap r : Bytes} {p : Packet} {ps : List Packet} (noStx : Config.stx ∉ gap)
    (valid : validatePacket p.dst.toNat p.src.toNat p.pid.toNat p.payload = true) (others : Carries init r ps) :
    Carries init (gap ++ (encodePacket init p.dst.toNat p.src.toNat p.pid.toNat p.payload ++ r)) (p :: ps) := by
  obtain ⟨-, -, -, -, -, -, -, -, payload⟩ := validatePacket_iff.1 valid
  have body := length_stuffBytes_le (frameBody init p.dst p.src p.pid p.payload)
  rw [length_frameBody] at body
  have decodes := decodeFrame_assembleFrame_of_payload init p.dst p.src p.pid (payload_ne_nil_of_valid valid)
  rw [encodePacket_toNat init valid]
  rw [assembleFrame] at decodes ⊢
  simpa using Carries.frame noStx (etx_not_mem_stuffBytes _) (by omega) decodes others

/-- The stream of R163 carries its packets. -/
theorem carries_streamOf {init : Byte} {tail : Bytes} (noStx : Config.stx ∉ tail) : ∀ stream : List (Bytes × Packet),
    (∀ g ∈ stream, Config.stx ∉ g.1
      ∧ validatePacket g.2.dst.toNat g.2.src.toNat g.2.pid.toNat g.2.payload = true) →
    Carries init (streamOf init stream ++ tail) (stream.map (·.2))
  | [], _ => .noFrame noStx
  | (gap, p) :: stream, h => by
    obtain ⟨⟨clean, valid⟩, others⟩ := List.forall_mem_cons.1 h
    simpa [streamOf] using Carries.cons_encodePacket clean valid (carries_streamOf noStx stream others)

/-! ## The block that serves the line -/

/-- The bytes the worker has yet to scan: those it has read, those in `T.in`, and those still to be delivered. -/
def pendingBytes (s : State) : Bytes := scanned s ++ s.tr.inb ++ delivered s.inputs

/-- A live worker with `LINK.RX` bound, a sound Transport, a callback that returns and room for a frame; what it has
delivered and what the bytes to come carry are `ps`. -/
structure Serves (ps : List Packet) (s : State) : Prop where
  run : s.run = .running
  live : s.ended = false
  stop : s.stop = false
  returns : s.hangs = false
  linkRx : s.cb = some .linkRx
  isOpen : s.tr.isOpen = true
  works : s.tr.fails = Health.good
  room : ∀ c, s.par.rxBufCap = some c → 82 ≤ c
  carries : ∃ qs, ps = s.got ++ qs ∧ Carries s.par.crcInit (pendingBytes s) qs

section serves

variable {s t : State} {ps : List Packet}

/-! ### The worker -/

/-- Outside phase `RX` nothing of a drain waits (R25, R46). -/
theorem LinkInv.data_eq_nil (h : LinkInv s) (phase : s.phase ≠ .rx) : s.data = [] := by
  obtain ⟨-, -, ⟨-, -, -, waiting, -⟩, -⟩ := h
  by_contra some_byte
  exact phase (waiting some_byte).1

/-- Outside phase `RX` no callback runs (R152). -/
theorem LinkInv.out_of_phase (h : LinkInv s) (phase : s.phase ≠ .rx) : s.inCb = false := by
  obtain ⟨⟨inside, -⟩, -⟩ := h
  by_contra inCb
  obtain ⟨-, -, rx, -⟩ := inside (Bool.eq_true_of_not_eq_false inCb)
  exact phase rx

/-- The worker can use the Transport it serves (R33, R44). -/
theorem Serves.usable (h : Serves ps s) (inv : LinkInv s) : transportUsable s = true := by
  obtain ⟨-, ⟨-, running, -⟩, -⟩ := inv
  obtain ⟨-, bound, -⟩ := running h.run
  exact (transportUsable_iff s).2 ⟨bound, h.isOpen⟩

/-- A pass of `EXTRACT` drops bytes without an `STX`, keeps a frame that has begun, or delivers the first packet (R142,
R162). -/
theorem Serves.extractInRx (h : Serves ps s) : Serves ps (extractInRx s) := by
  obtain ⟨qs, total, carries⟩ := h.carries
  have fits : ∀ {n}, n ≤ 82 → ∀ c, s.par.rxBufCap = some c → n ≤ c := fun le c cap => le.trans (h.room c cap)
  rw [pendingBytes, List.append_assoc] at carries
  rcases stx_split (scanned s) with noStx | ⟨a, m, found, first⟩
  · have pass : extractPass s = .left { s with rxBuf := keepJunk s.par.rxBufCap (scanned s), data := [] } := by
      simp [extractPass, cut_noStx _ noStx, State.withRxBuf]
    have kept : Config.stx ∉ keepJunk s.par.rxBufCap (scanned s) := by
      unfold keepJunk
      split <;> simp [noStx]
    rw [extractInRx_of_left pass]
    refine { h with carries := ⟨qs, total, ?_⟩ }
    simpa [pendingBytes, scanned] using carries.replace_front noStx kept
  rw [found, List.append_assoc] at carries
  rcases etx_split m with noEtx | ⟨m, r, rfl, noEtx⟩
  · rw [List.cons_append] at carries
    have short := carries.unfinished_le first noEtx
    rw [extractInRx_of_left (extractPass_of_unfinished found first noEtx (fits (by omega)))]
    refine { h with carries := ⟨qs, total, ?_⟩ }
    simpa [pendingBytes, scanned] using carries.replace_front first List.not_mem_nil
  · rw [List.cons_append, List.append_assoc, List.cons_append] at carries
    obtain ⟨short, p, qs, rfl, decodes, others⟩ := carries.first_frame first noEtx
    rw [extractInRx_of_emitted (extractPass_of_frame (by simpa using found) first noEtx (fits short)), decodes]
    refine { h with carries := ⟨qs, ?_, ?_⟩ }
    · simp [h.linkRx, total]
    · simpa [pendingBytes, scanned] using others

/-- Every phase serves the stream (R138). -/
theorem Serves.workerPhase (h : Serves ps s) (inv : LinkInv s) : Serves ps (workerPhase s) := by
  have usable := h.usable inv
  cases phase : s.phase
  case check =>
    rw [workerPhase_of_count phase h.stop usable (by rw [h.works]; rfl)]
    exact { h with }
  case rx =>
    obtain ⟨b, d, read, turn⟩ := workerPhase_of_rx phase fun _ => ⟨usable, by rw [h.works]; rfl⟩
    rw [turn]
    obtain ⟨qs, total, carries⟩ := h.carries
    refine Serves.extractInRx { h with carries := ⟨qs, total, ?_⟩ }
    have same : b ++ d ++ (if s.rxRead = true then s.tr.inb else s.tr.inb.drop s.avail) = scanned s ++ s.tr.inb := by
      rw [read, scanned]
      split <;> simp
    simpa only [pendingBytes, scanned, same] using carries
  case tx =>
    cases queue : s.txq with
    | nil =>
      rw [workerPhase_of_empty_queue phase queue]
      exact { h with }
    | cons e q =>
      rw [workerPhase_of_write phase queue usable (by rw [h.works]; rfl)]
      exact { h with }
  case sleep =>
    rw [workerPhase_of_sleep phase]
    exact { h with }

/-- The callback returns (R193). -/
theorem Serves.returned (h : Serves ps s) : Serves ps { s with inCb := false, evtPut := 0, evt := none } := { h with }

theorem Serves.callbackReturn (h : Serves ps s) : Serves ps (callbackReturn s) := by
  rcases callbackReturn_cases s with ⟨-, e⟩ | ⟨-, e⟩ <;> rw [e]
  · exact h.returned
  · exact h

/-- The block's own move serves the stream: no `CLOSE` waits (R150). -/
theorem Serves.internalMove (h : Serves ps s) (inv : LinkInv s) : Serves ps (internalMove s) := by
  rcases internalMove_cases s with ⟨e, -⟩ | ⟨-, -, e⟩ | ⟨-, e⟩ | ⟨-, -, closing, -⟩
  · exact e.symm ▸ h
  · exact e.symm ▸ h.returned
  · exact e.symm ▸ h.workerPhase inv
  · cases (inv.stop_of_closing closing).symm.trans h.stop

/-! ### The moves of the traffic -/

/-- The block's own move takes none of the moves to come. -/
theorem internalMove_inputs (s : State) : (internalMove s).inputs = s.inputs := by
  rcases internalMove_cases s with ⟨e, -⟩ | ⟨-, -, e⟩ | ⟨-, e⟩ | ⟨-, -, -, -, e⟩ <;> rw [e]
  · exact (workerPhase_keepsWait s).1
  · rcases closeFinish_cases s with ⟨-, e⟩ | ⟨-, e⟩ <;> rw [e]

theorem callbackReturn_inputs (s : State) : (callbackReturn s).inputs = s.inputs := by
  rcases callbackReturn_cases s with ⟨-, e⟩ | ⟨-, e⟩ <;> rw [e]

/-- A move that delivers nothing is used up. -/
theorem Serves.withInputs (h : Serves ps s) {rest : List Input} (same : delivered rest = delivered s.inputs) :
    Serves ps (s.withInputs rest) := by
  obtain ⟨qs, total, carries⟩ := h.carries
  rw [pendingBytes, ← same] at carries
  exact { h with carries := ⟨qs, total, carries⟩ }

/-- A delivery comes in (R20, R41). -/
theorem Serves.delivers (h : Serves ps s) {w : Bytes} {rest : List Input} (head : s.inputs = .line w :: rest) :
    Serves ps ((w.foldl (fun t c => wireIn c t) s).withInputs rest) := by
  obtain ⟨qs, total, carries⟩ := h.carries
  rw [foldl_wireIn]
  refine { h with carries := ⟨qs, total, ?_⟩ }
  simpa [pendingBytes, scanned, head, delivered] using carries

/-! ### Runs -/

/-- A run that goes on after its first `j` steps. -/
theorem run_add_of_next (M : Host.Core) {j : Nat} (k : Nat) {s t : M.State} (h : M.run j s = .next t) :
    M.run (j + k) s = M.run k t := by
  induction j generalizing s with
  | zero =>
    cases h
    rw [Nat.zero_add]
  | succ j ih =>
    cases first : M.step s with
    | next u =>
      rw [run_succ_of_next M first] at h
      rw [Nat.add_right_comm, run_succ_of_next M first, ih h]
    | fault r => simp [Host.Core.run, first] at h
    | refused r => simp [Host.Core.run, first] at h

/-- Some run leads from `s` to `t`. -/
def Reaches (s t : State) : Prop := ∃ k, Sys2Proof.core.run k s = .next t

theorem Reaches.refl (s : State) : Reaches s s := ⟨0, rfl⟩

theorem Reaches.step {u : State} (first : step s = .next u) (h : Reaches u t) : Reaches s t := by
  obtain ⟨k, run⟩ := h
  exact ⟨k + 1, (run_succ first k).trans run⟩

theorem Reaches.trans {u : State} (h : Reaches s t) (h' : Reaches t u) : Reaches s u := by
  obtain ⟨j, run⟩ := h
  obtain ⟨k, run'⟩ := h'
  exact ⟨j + k, (run_add_of_next Sys2Proof.core k run).trans run'⟩

/-- The traffic is used up, served on the way. -/
theorem Serves.reaches_idle (is : List Input) : ∀ s, s.inputs = is → (∀ m ∈ is, IsTraffic m) → LinkInv s → Serves ps s →
    ∃ t, Reaches s t ∧ LinkInv t ∧ Serves ps t ∧ t.inputs = [] := by
  induction is with
  | nil => exact fun s idle _ inv h => ⟨s, .refl s, inv, h, idle⟩
  | cons m rest ih =>
    intro s head traffic inv h
    obtain ⟨moves, others⟩ := List.forall_mem_cons.1 traffic
    have kept : LinkInv (s.withInputs rest) := inv
    have next : delivered rest = delivered (m :: rest) → Serves ps (s.withInputs rest) := fun same =>
      h.withInputs (head.symm ▸ same)
    suffices ∃ u, Reaches s u ∧ LinkInv u ∧ Serves ps u ∧ u.inputs = rest by
      obtain ⟨u, leads, inv', h', left⟩ := this
      obtain ⟨t, goesOn, served⟩ := ih u left others inv' h'
      exact ⟨t, leads.trans goesOn, served⟩
    cases m with
    | line w =>
      refine ⟨_, run_line rest w s head, ?_, h.delivers head, rfl⟩
      rw [foldl_wireIn]
      exact inv.quiet (Quiet.of_wire s _ rest w)
    | tick =>
      exact ⟨_, .step (step_tick head) (.refl _), kept.internalMove, (next rfl).internalMove kept, internalMove_inputs _⟩
    | cbReturn =>
      exact ⟨_, .step (step_cbReturn head) (.refl _), kept.callbackReturn, (next rfl).callbackReturn,
        callbackReturn_inputs _⟩
    | _ => exact moves.elim

/-! ### The block left to itself -/

/-- Left to itself the block lets the callback return, or goes through its phase. -/
theorem Serves.step_of_idle (h : Serves ps s) (inv : LinkInv s) (idle : s.inputs = []) :
    ∃ u, step s = .next u ∧ LinkInv u ∧ Serves ps u ∧ u.inputs = []
      ∧ ((s.inCb = true ∧ u = { s with inCb := false, evtPut := 0, evt := none })
        ∨ (s.inCb = false ∧ u = Machine.workerPhase s)) := by
  have moves := step_idle idle
  cases inCb : s.inCb
  case true =>
    rw [defaultMove_of_inCb inCb h.returns] at moves
    exact ⟨_, moves, everyStepKeepsTheInvariant s _ inv moves, h.returned, idle, .inl ⟨rfl, rfl⟩⟩
  case false =>
    rw [defaultMove_of_out inCb, internalMove_of_ready ((workerReady_iff s).2 ⟨h.run, h.live, inCb⟩)] at moves
    exact ⟨_, moves, everyStepKeepsTheInvariant s _ inv moves, h.workerPhase inv,
      (workerPhase_keepsWait s).1.trans idle, .inr ⟨rfl, rfl⟩⟩

/-- `EXTRACT` takes nothing from `T.in` (R142). -/
theorem extractInRx_inb (s : State) : (extractInRx s).tr.inb = s.tr.inb := by
  unfold extractInRx
  rcases extractPass_cases s with ⟨-, e⟩ | ⟨a, m, -, -, -, -, e⟩ | ⟨a, m, r, -, -, -, -, e⟩ | ⟨a, m, -, -, -, e⟩ <;>
    simp [e, emitFrame_eq]

/-- What a phase leaves in `T.in`: only the read of phase `RX` takes bytes, those counted (R141). -/
theorem Serves.workerPhase_inb (h : Serves ps s) (inv : LinkInv s) : (Machine.workerPhase s).tr.inb =
    if s.phase = .rx ∧ s.rxRead = false then s.tr.inb.drop s.avail else s.tr.inb := by
  have usable := h.usable inv
  cases phase : s.phase
  case check => simp [workerPhase_of_count phase h.stop usable (by rw [h.works]; rfl)]
  case rx =>
    obtain ⟨b, d, -, turn⟩ := workerPhase_of_rx phase fun _ => ⟨usable, by rw [h.works]; rfl⟩
    rw [turn, extractInRx_inb]
    cases s.rxRead <;> simp
  case tx =>
    cases queue : s.txq with
    | nil => simp [workerPhase_of_empty_queue phase queue]
    | cons e q => simp [workerPhase_of_write phase queue usable (by rw [h.works]; rfl)]
  case sleep => simp [workerPhase_of_sleep phase]

/-- But for `CHECK`, every phase brings the worker nearer to its next `CHECK`. -/
theorem workerPhase_turnsLeft_lt_of_ne_check (live : s.ended = false) (out : s.inCb = false) (phase : s.phase ≠ .check) :
    turnsLeft (workerPhase s) < turnsLeft s := by
  unfold workerPhase
  split
  case h_1 check => exact absurd check phase
  case h_2 rx => exact phaseRx_turnsLeft_lt live rx out
  case h_3 tx => exact phaseTx_turnsLeft_lt live tx
  case h_4 sleep => simp [phaseSleep, State.withPhase, turnsLeft, live, sleep]

/-- Left to itself the worker comes to its next `CHECK`, and nothing new enters `T.in` on the way. -/
theorem Serves.reaches_check (s : State) (inv : LinkInv s) (h : Serves ps s) (idle : s.inputs = []) : ∃ t, Reaches s t
    ∧ LinkInv t ∧ Serves ps t ∧ t.inputs = [] ∧ t.phase = .check ∧ (s.tr.inb = [] → t.tr.inb = []) := by
  by_cases check : s.phase = .check
  · exact ⟨s, .refl s, inv, h, idle, check, id⟩
  obtain ⟨u, first, inv', h', idle', moved⟩ := h.step_of_idle inv idle
  have nearer : turnsLeft u < turnsLeft s ∧ (s.tr.inb = [] → u.tr.inb = []) := by
    rcases moved with ⟨inCb, rfl⟩ | ⟨out, rfl⟩
    · obtain ⟨⟨inside, -⟩, -⟩ := inv
      obtain ⟨-, -, rx, -⟩ := inside inCb
      exact ⟨return_turnsLeft_lt h.live rx inCb, id⟩
    · refine ⟨workerPhase_turnsLeft_lt_of_ne_check h.live out check, fun empty => ?_⟩
      rw [h.workerPhase_inb inv, empty, List.drop_nil, ite_self]
  obtain ⟨t, others, inv'', h'', idle'', check', empty⟩ := Serves.reaches_check u inv' h' idle'
  exact ⟨t, .step first others, inv'', h'', idle'', check', empty ∘ nearer.2⟩
termination_by turnsLeft s
decreasing_by exact nearer.1

/-- From `CHECK` the worker reads all of `T.in` in one iteration (R139, R141). -/
theorem Serves.reaches_drained (h : Serves ps s) (inv : LinkInv s) (idle : s.inputs = []) (check : s.phase = .check) :
    ∃ t, Reaches s t ∧ LinkInv t ∧ Serves ps t ∧ t.inputs = [] ∧ t.tr.inb = [] := by
  by_cases empty : s.tr.inb = []
  · exact ⟨s, .refl s, inv, h, idle, empty⟩
  have some_byte := List.length_pos_iff.2 empty
  have not_rx : s.phase ≠ .rx := by simp [check]
  have out := inv.out_of_phase not_rx
  obtain ⟨u, counts, inv', h', idle', ⟨inCb, -⟩ | ⟨-, turn⟩⟩ := h.step_of_idle inv idle
  · cases out.symm.trans inCb
  rw [workerPhase_of_count check h.stop (h.usable inv) (by rw [h.works]; rfl), if_pos some_byte] at turn
  obtain ⟨t, reads, inv'', h'', idle'', ⟨inCb, -⟩ | ⟨-, turn'⟩⟩ := h'.step_of_idle inv' idle'
  · rw [turn] at inCb
    cases out.symm.trans inCb
  refine ⟨t, .step counts (.step reads (.refl t)), inv'', h'', idle'', ?_⟩
  rw [turn', h'.workerPhase_inb inv', turn]
  simp

/-- Once the bytes are in and scanned, all packets are delivered: what is left in `rx_buf` carries none. -/
theorem Serves.delivered_all (h : Serves ps s) (inv : LinkInv s) (idle : s.inputs = []) (check : s.phase = .check)
    (empty : s.tr.inb = []) : s.got = ps ∧ Config.stx ∉ s.rxBuf := by
  have not_rx : s.phase ≠ .rx := by simp [check]
  obtain ⟨qs, rfl, carries⟩ := h.carries
  have left : pendingBytes s = s.rxBuf := by
    simp [pendingBytes, scanned, inv.data_eq_nil not_rx, empty, idle, delivered]
  rw [left] at carries
  obtain ⟨-, -, ⟨-, -, settled, -⟩, -⟩ := inv
  have noStx := carries.noStx_of_settled (settled.resolve_left fun rx => not_rx rx.1)
  rw [carries.eq_nil noStx, List.append_nil]
  exact ⟨rfl, noStx⟩

end serves

/-- Settles O60: the traffic is used up, the worker comes to `CHECK`, drains `T.in` and comes to `CHECK` again; all the way
what is delivered and what the bytes to come carry are the same packets. -/
theorem loopBackDeliversEveryPacket : Obligations.LoopBackDeliversEveryPacket := by
  intro s stream tail inv run live stop out check returns linkRx isOpen works empty noStx room valid clean traffic bytes
  have served : Serves (s.got ++ stream.map (·.2)) s := by
    refine ⟨run, live, stop, returns, linkRx, isOpen, works, room, _, rfl, ?_⟩
    have carries : Carries s.par.crcInit ([] ++ delivered s.inputs) (stream.map (·.2)) := by
      rw [bytes]
      exact carries_streamOf clean stream valid
    simpa [pendingBytes, scanned, inv.data_eq_nil, check, empty] using carries.replace_front List.not_mem_nil noStx
  obtain ⟨t₁, r₁, inv₁, served₁, idle₁⟩ := served.reaches_idle s.inputs s rfl traffic inv
  obtain ⟨t₂, r₂, inv₂, served₂, idle₂, check₂, -⟩ := Serves.reaches_check t₁ inv₁ served₁ idle₁
  obtain ⟨t₃, r₃, inv₃, served₃, idle₃, empty₃⟩ := served₂.reaches_drained inv₂ idle₂ check₂
  obtain ⟨t, r₄, inv₄, served₄, idle₄, check₄, empty₄⟩ := Serves.reaches_check t₃ inv₃ served₃ idle₃
  obtain ⟨got, noStx⟩ := served₄.delivered_all inv₄ idle₄ check₄ (empty₄ empty₃)
  obtain ⟨k, runs⟩ := r₁.trans (r₂.trans (r₃.trans r₄))
  exact ⟨k, t, runs, idle₄, inv₄.out_of_phase (by simp [check₄]), empty₄ empty₃, inv₄.fault_eq_none served₄.run, got, noStx⟩

end Sys2Proof.Safety
end

section
/-! PROOF, reset (70_reset_and_hazards.md R206 to R208): what `rst` leaves of each part of the state, and that the machine
idles at reset. -/

namespace Sys2Proof.Machine

open Sys2Proof.Safety

section reset

variable {s : State} {rest : List Input} {k : Nat}

theorem step_rst (head : s.inputs = .rst k :: rest) : step s = .next (resetMove k (s.withInputs rest)) := by
  simp [step, fetch, head, fetchInput]

/-- A reset of the fresh machine changes nothing. -/
theorem resetMove_reset : resetMove 0 State.reset = State.reset := rfl

/-- The fields that a reset sets are those of R206, whatever state it strikes. -/
theorem resetMove_fresh (k : Nat) (s : State) :
    (resetMove k s).acc = (resetMove k s).par.crcInit ∧ (resetMove k s).rxBuf = [] ∧ (resetMove k s).txq = []
      ∧ (resetMove k s).phase = .check ∧ (resetMove k s).stop = false ∧ (resetMove k s).run = .unopened
      ∧ (resetMove k s).fault = none ∧ (resetMove k s).inCb = false ∧ (resetMove k s).tBound = false
      ∧ (resetMove k s).cb = none :=
  ⟨rfl, rfl, rfl, rfl, rfl, rfl, rfl, rfl, rfl, rfl⟩

/-- A bound Transport is closed (R208). -/
theorem resetMove_closes (bound : s.tBound = true) : (resetMove k s).tr.isOpen = false := by
  simp [resetMove, transportAtReset, bound]

/-- What a reset takes from `T.in`: nothing, or the first bytes of the read of phase `RX` it strikes (R208), log 15. -/
theorem resetMove_inb (k : Nat) (s : State) : (resetMove k s).tr.inb = s.tr.inb
    ∨ (s.phase = .rx ∧ s.rxRead = false ∧ s.run = .running
      ∧ (resetMove k s).tr.inb = s.tr.inb.drop (min k s.avail)) := by
  have left : (resetMove k s).tr.inb = s.tr.inb.drop (takenAtReset k s) := rfl
  by_cases reading : (workerReady s && s.phase == .rx && !s.rxRead) = true
  · obtain ⟨⟨ready, phase⟩, unread⟩ : (workerReady s = true ∧ s.phase = .rx) ∧ s.rxRead = false := by
      simpa using reading
    obtain ⟨run, -⟩ := (workerReady_iff s).1 ready
    exact .inr ⟨phase, unread, run, by rw [left, takenAtReset, if_pos reading]⟩
  · exact .inl (by rw [left, takenAtReset, if_neg reading, List.drop_zero])

/-- What a reset adds to `T.out`: nothing, or the first bytes of the entry whose write it cuts off (R208, U13), log 15. -/
theorem resetMove_outb (k : Nat) (s : State) : (resetMove k s).tr.outb = s.tr.outb
    ∨ (s.phase = .tx ∧ s.run = .running ∧ ∃ e q, s.txq = e :: q ∧ (resetMove k s).tr.outb = s.tr.outb ++ e.take k) := by
  have written : (resetMove k s).tr.outb = s.tr.outb ++ writtenAtReset k s := rfl
  by_cases writing : (workerReady s && s.phase == .tx) = true
  · obtain ⟨ready, phase⟩ : workerReady s = true ∧ s.phase = .tx := by simpa using writing
    obtain ⟨run, -⟩ := (workerReady_iff s).1 ready
    cases queue : s.txq with
    | nil => exact .inl (by simp [written, writtenAtReset, queue])
    | cons e q => exact .inr ⟨phase, run, e, q, rfl, by simp [written, writtenAtReset, writing, queue]⟩
  · exact .inl (by simp [written, writtenAtReset, writing])

end reset

/-- An unopened block has no move of its own (R207). -/
theorem internalMove_of_unopened {s : State} (run : s.run = .unopened) (out : s.inCb = false)
    (closing : s.closing = false) : internalMove s = s := by
  simp [internalMove, workerReady, run, out, closing]

/-- Settles O1: the fresh machine is its own reset, and every reset sets the same fields. -/
theorem resetLeavesTheFreshValues : Obligations.ResetLeavesTheFreshValues :=
  ⟨resetMove_reset ▸ resetMove_fresh 0 State.reset, rfl, fun s k rest head =>
    ⟨_, step_rst head, resetMove_fresh k (s.withInputs rest)⟩⟩

/-- Settles O2: at reset the block has no move of its own, and a reset keeps the streams but for the phase it strikes. -/
theorem resetIdlesAndKeepsTheStreams : Obligations.ResetIdlesAndKeepsTheStreams := by
  refine ⟨?_, fun s k rest head => ⟨_, step_rst head, fun bound => resetMove_closes bound, rfl, rfl, rfl, rfl, rfl, rfl,
    rfl, resetMove_inb k (s.withInputs rest), resetMove_outb k (s.withInputs rest)⟩⟩
  rw [step_idle rfl, defaultMove_of_out rfl, internalMove_of_unopened rfl rfl rfl]

end Sys2Proof.Machine

namespace Sys2Proof.Safety

open Sys2Proof.Machine

/-- Settles O3: an unopened block runs no callback, holds no byte and waits for nothing, so each part of the invariant is
about a case that does not occur or about something empty. -/
theorem invariantHoldsAtReset : Obligations.InvariantHoldsAtReset := by
  have callback : CallbackInv State.reset := callbackInv_of_out rfl rfl
  have life : LifeInv State.reset :=
    ⟨fun _ => ⟨rfl, rfl, rfl, rfl, rfl, rfl, rfl, rfl, rfl, rfl⟩, nofun, nofun, nofun, nofun, nofun⟩
  have buffers : BufferInv State.reset :=
    ⟨nofun, nofun, .inr (.inl List.not_mem_nil), fun waiting => absurd rfl waiting, nofun⟩
  have count : CountInv State.reset := ⟨nofun, nofun, nofun⟩
  have records : RecordInv State.reset := ⟨nofun, Nat.le_refl 0⟩
  have ports : PortInv State.reset := ⟨Nat.zero_le _, Nat.zero_le _⟩
  exact ⟨callback, life, buffers, count, records, ports⟩

end Sys2Proof.Safety
end

section
/-! PROOF, `CLOSE` from the callback (70_reset_and_hazards.md R216, U5). -/

namespace Sys2Proof.Machine

open Sys2Proof.Safety

/-- `CLOSE` on a live worker, from host code that this worker is executing (R216). -/
theorem execClose_of_stuck {s : State} (run : s.run = .running) (live : s.ended = false) (caller : s.caller = .callback)
    (host : hostInCallback s = true) : execClose s = .fault .closeInsideCallback := by
  rcases execClose_cases s with ⟨g, _⟩ | ⟨_, _, ended, _⟩ | ⟨_, _, _, _, _, e⟩ | ⟨_, _, _, waits, _⟩
  · exact absurd g (not_closed_or_unopened (.inl run))
  · cases live.symm.trans ended
  · exact e
  · exact absurd ⟨caller, host⟩ waits

/-- Settles O51: by the invariant the worker that runs the callback is live, so the `CLOSE` would wait for itself. -/
theorem closeInsideTheCallbackIsStuck : Obligations.CloseInsideTheCallbackIsStuck := by
  intro s rest inv inCb code head
  obtain ⟨⟨running, -⟩, -⟩ := inv
  obtain ⟨run, live, -⟩ := running inCb
  have host : hostInCallback s = true := (hostInCallback_iff s).2 ⟨inCb, code⟩
  have decodes : decode s.par.crcInit (.hostCmd 0xE#4 []) = .ok .close := rfl
  calc step s = execClose { s with inputs := rest, caller := .callback } := step_host_ok head decodes
    _ = .fault .closeInsideCallback := execClose_of_stuck run live rfl host

end Sys2Proof.Machine
end
